-- ==== Sys2Proof/Word.lean ====
section
/-! DEFINITION. The word types of the BOO encoder core. -/

namespace Sys2Proof

/-- A byte: an unsigned 8-bit value; a character is a byte (spec/00_scope.md R6). -/
abbrev Byte := BitVec 8

end Sys2Proof
end

