-- ==== Sys2Proof/Config.lean ====
section
/-! DEFINITION. What is fixed for the machine: the hard-wired constants (spec/00_scope.md R4, spec/10_state.md R18),
the alphabet ROM (spec/40_alphabet_mapper.md R74), and the free values, which the spec leaves open. -/

namespace Sys2Proof.Config

/-- MAX_LINE_WIDTH, the greatest number of characters on one line of the body (R4). -/
def maxLineWidth : Nat := 72
/-- MAX_NULL_RUN, the greatest count one escape sequence carries (R4). -/
def maxNullRun : Nat := 78
/-- MIN_NULL_RUN, the smallest run that is escaped (R4). -/
def minNullRun : Nat := 2
/-- CHAR_BASE, added to a value to make its character (R4). -/
def charBase : Nat := 48
/-- ESC_CHAR, the escape marker `~` (R4). -/
def escChar : Byte := 0x7E#8
/-- TRIPLE, bytes per packed group (R4). -/
def triple : Nat := 3
/-- QUAD_LEN, characters per packed group (R4). -/
def quadLen : Nat := 4
/-- ESC_LEN, characters per escape sequence and per padding marker (R4). -/
def escLen : Nat := 2
/-- The line break, carriage return then line feed (spec/20_memory.md R34, whose byte values are the spec's general
knowledge G1; entry 19, PRESUMED). -/
def lineBreak : List Byte := [0x0D#8, 0x0A#8]

/-- The alphabet ROM as cells: index `n` in 0..78 holds the byte `n + 48` (spec/20_memory.md R40,
spec/40_alphabet_mapper.md R74). The block's one memory that is read by address; read-only, so no part of State. -/
def alphabetRom : List Host.Cell :=
  (List.range (maxNullRun + 1)).map fun n => (n, BitVec.ofNat 8 (n + charBase))

/-- One draw of everything the spec leaves open: the registers after an abort (U18), the bytes that may reach `OUT` at and
after a failing write (U19), the input position after a failed read (spec/20_memory.md R31), and the two results of an
invalid FROMCHAR (U7). -/
structure FreeValues where
  lit0 : Byte
  lit1 : Byte
  lit2 : Byte
  litN : BitVec 2
  nulls : BitVec 7
  remByte : Byte
  remValid : Bool
  col : BitVec 7
  fill : BitVec 2
  ipos : Nat
  outTail : List Byte
  charIndex : BitVec 7
  is6 : Bool
  deriving DecidableEq, Repr, Inhabited

/-- The free values: no body, so that nothing can be proved of any of them. A step that meets an open value reads the
draw numbered by State.fresh and advances that counter (entries 2 to 5). -/
opaque freeValues : Nat → FreeValues

end Sys2Proof.Config
end

