-- ==== Sys2Proof/Syntax.lean ====
section
/-! DEFINITION. The instructions: one constructor per row of spec/opcode_table.json, in the table's order, and the words that
stand for them on the block's wires. What the spec calls an instruction here is an input symbol class, a per-symbol step, a
token, an output group, a unit operation, a sequencer action or an event (spec/INDEX.md). -/

namespace Sys2Proof

/-- The two streams of a session (spec/20_memory.md R30), the operand of `raise IOError(which)`. -/
inductive Stream where
  /-- `INPUT`, read by `InRead()`. -/
  | inp
  /-- `OUT`, written by `OutWrite()`. -/
  | out
  deriving DecidableEq, Repr

/-- One constructor per row of spec/opcode_table.json. -/
inductive Instr where
  /-- SYM.EOF: the end-of-input symbol (R51, R82). Its byte field has no meaning (R50). -/
  | symEof
  /-- SYM.NUL: the null byte (R51, R82). -/
  | symNul
  /-- SYM.LIT: the non-null byte `b` (R51, R82). -/
  | symLit (b : Byte)
  /-- SYM.NUL.COUNT (R83). -/
  | symNulCount
  /-- SYM.NUL.CUT (R84). -/
  | symNulCut
  /-- SYM.NUL.APPEND (R85). -/
  | symNulAppend
  /-- SYM.LIT.APPEND (R86). -/
  | symLitAppend (b : Byte)
  /-- SYM.LIT.BACKTRACK (R87). -/
  | symLitBacktrack (b : Byte)
  /-- SYM.LIT.ENDRUN (R88). -/
  | symLitEndrun (b : Byte)
  /-- SYM.EOF.RUN (R90). -/
  | symEofRun
  /-- SYM.EOF.ONE (R91). -/
  | symEofOne
  /-- SYM.EOF.TAIL (R92). -/
  | symEofTail
  /-- SYM.EOF.END (R93). -/
  | symEofEnd
  /-- T.END: the token `End` (R52). -/
  | tEnd
  /-- T.LITERAL: the token `Literal` of real length `len`, with the bus's three bytes (R52). -/
  | tLiteral (len : BitVec 2) (x y z : Byte)
  /-- T.NULLRUN: the token `NullRun(count)` (R52). -/
  | tNullrun (count : BitVec 7)
  /-- W.QUAD: a packed group, its four characters in the order they are written (R53). -/
  | wQuad (a b c d : Byte)
  /-- W.ESC: an escape sequence, `~` then the count character `k` (R54). -/
  | wEsc (k : Byte)
  /-- W.PAD: the padding marker `~0` (R55). -/
  | wPad
  /-- W.EOL: the line break (R56). -/
  | wEol
  /-- W.HDR: the header line, the bytes of `HDR` and a line break (R57). -/
  | wHdr (hdr : List Byte)
  /-- TOCHAR `n` (R70). -/
  | toChar (n : BitVec 7)
  /-- FROMCHAR `c` (R72). -/
  | fromChar (c : Byte)
  /-- PACK `x, y, z` (R110). -/
  | pack (x y z : Byte)
  /-- ESCAPE `n` (R120). -/
  | escape (n : BitVec 7)
  /-- PADMARK (R122). -/
  | padmark
  /-- EMIT: length select `long` (false = 2 characters, true = 4) and the bus of 32 bits (R125, R66). -/
  | emit (long : Bool) (g : BitVec 32)
  /-- GET3: one whole call of the classifier (R80). -/
  | get3
  /-- SEQ.START (R136). -/
  | seqStart
  /-- SEQ.LITERAL (R138). -/
  | seqLiteral
  /-- SEQ.SHORTLIT (R139). -/
  | seqShortlit
  /-- SEQ.NULLRUN (R140). -/
  | seqNullrun
  /-- SEQ.END (R141). -/
  | seqEnd
  /-- SEQ.FINALIZE (R142, R143). -/
  | seqFinalize
  /-- ABORT: `raise IOError(which)` (R156 to R158). -/
  | abort (which : Stream)
  /-- RESET (R175). -/
  | reset
  deriving DecidableEq, Repr

/-- A word on one set of the block's wires, at its exact width. The units have separate wires and no common opcode
(spec/30_encoding.md R66), so a word names the wires it stands on; the constructors are the `format` names of the table. -/
inductive PortWord where
  /-- SYM9: a 9-bit input symbol, `S[8]` = eof, `S[7:0]` = the byte (R50). -/
  | symbol (w : BitVec 9)
  /-- SYM9+state: the same 9 bits, taken together with a condition on `LIT_N` and `NULLS`. -/
  | symbolStep (w : BitVec 9)
  /-- TOK35: the token bus (R52). -/
  | token (w : BitVec 35)
  /-- WIRE32: four characters, the first written most significant (R53). -/
  | wire32 (w : BitVec 32)
  /-- WIRE16: two characters, the first written most significant (R54 to R56). -/
  | wire16 (w : BitVec 16)
  /-- WIREVAR: the bytes of a header line, in the order they are written (R57). -/
  | wireVar (bytes : List Byte)
  /-- OP7 of TOCHAR. -/
  | opToChar (w : BitVec 7)
  /-- OP8 of FROMCHAR. -/
  | opFromChar (w : BitVec 8)
  /-- OP24 of PACK. -/
  | opPack (w : BitVec 24)
  /-- OP7 of ESCAPE. -/
  | opEscape (w : BitVec 7)
  /-- OP0 of PADMARK. -/
  | opPadmark
  /-- OP33 of EMIT: bit 32 the length select. -/
  | opEmit (w : BitVec 33)
  /-- OP0 of GET3. -/
  | opGet3
  /-- SEQSTATE: selected by `SEQ` and the token, no bits. -/
  | sequencer
  /-- EVENT: an access of the stream `which` was answered `IoErr`. -/
  | ioErr (which : Stream)
  /-- EVENT: the reset line. -/
  | resetLine
  deriving DecidableEq, Repr

/-- Why the decoder refuses a word. -/
inductive DecodeReject where
  /-- A token word of kind 3 (R52: never). -/
  | tokenKind
  /-- A token word with a bit set in a field that is 0 for its kind (R52; for the bytes of T.END and T.NULLRUN their
  encodings in spec/opcode_table.json). -/
  | tokenZeroField
  /-- A Literal of length 0 (R52; U10). -/
  | literalLength
  /-- A NullRun whose count is outside 2..78 (R52; U10). -/
  | nullRunCount
  /-- A quad character outside 0x30..0x6F (R53, R61). -/
  | quadCharacter
  /-- `~` followed by a byte that is no count character and not `0` (R61 (a), (b)). -/
  | countCharacter
  /-- A 2-byte group that begins with neither `~` nor the line break (R60, R61). -/
  | groupMarker
  /-- A header line that does not end in the line break (R57). -/
  | headerLineBreak
  /-- A format whose row is selected by the state and not by the bits (SYM9+state, SEQSTATE). -/
  | selectedByState
  deriving DecidableEq, Repr

end Sys2Proof
end

