-- ==== Sys2Proof/Machine/State.lean ====
section
/-! DEFINITION. The state of the block and of its environment (spec/10_state.md R10 to R26), the reasons a step stops, and
the state after reset (R25). -/

namespace Sys2Proof.Machine

/-- The literal buffer `LIT[0..2]` (R10). -/
structure Lit where
  b0 : Byte
  b1 : Byte
  b2 : Byte
  deriving DecidableEq, Repr

/-- The session state `SEQ` (R16); the encodings 5, 6, 7 are never taken (U20). -/
inductive Seq where
  | start
  | streaming
  | finalizing
  | done
  | abort
  deriving DecidableEq, Repr

/-- The error status `ERR` (R17); the encoding 3 is never taken (U20). -/
inductive Err where
  /-- 0: no error. -/
  | none
  /-- 1: I/O failure on the input stream. -/
  | inp
  /-- 2: I/O failure on the output stream. -/
  | out
  deriving DecidableEq, Repr

/-- A token (spec/30_encoding.md R52): a Literal carries its real length and refers to `LIT[0..n-1]`. -/
inductive Token where
  | literal (n : BitVec 2)
  | nullRun (count : BitVec 7)
  | endOfInput
  deriving DecidableEq, Repr

/-- Where the classifier stands (spec/41_byte_classifier.md R80; the model's own field, entry 6). -/
inductive Call where
  /-- Between two calls of GET3: the next symbol begins a call (R81). -/
  | idle
  /-- Inside a call, between two symbols (R82). -/
  | running
  /-- The call has returned a token: it stands on the token bus (spec/30_encoding.md R52). -/
  | returned (t : Token)
  /-- The sequencer has taken the token and handles it next (R137). -/
  | accepted (t : Token)
  deriving DecidableEq, Repr

/-- The arguments of a session (spec/00_scope.md R5; spec/92_eei_decisions.md section 7): `HDR`, `INPUT`, the failure oracle
as indices of accesses counted from 0; and, for U12, the index of a read or a write the environment never answers. -/
structure SessionArgs where
  hdr : List Byte
  input : List Byte
  readFail : Option Nat
  writeFail : Option Nat
  readMute : Option Nat
  writeMute : Option Nat
  deriving DecidableEq, Repr

/-- What the outside can present: an operand on the stand-alone port of a leaf function (spec/92_eei_decisions.md D2; entry
10). A leaf function has no effect on a session (spec/10_state.md R27), so that nothing presented alters one
(spec/60_exceptions.md R162). The wires between the units are no ports. -/
inductive PortRequest where
  /-- TOCHAR's operand. -/
  | toChar (w : BitVec 7)
  /-- FROMCHAR's operand. -/
  | fromChar (w : BitVec 8)
  /-- PACK's operand. -/
  | pack (w : BitVec 24)
  /-- ESCAPE's operand. -/
  | escape (w : BitVec 7)
  /-- PADMARK, no operand. -/
  | padmark
  deriving DecidableEq, Repr

/-- What stands on the operand wires of GET3 or of the line writer (spec/30_encoding.md R66; entries 12 and 24): wires inside
the block, which the sequencer's state drives and nothing outside does. -/
inductive UnitWord where
  /-- EMIT's operand. -/
  | emit (w : BitVec 33)
  /-- GET3, no operand. -/
  | get3
  /-- A packed group to write. -/
  | wire32 (w : BitVec 32)
  /-- A 2-byte group to write. -/
  | wire16 (w : BitVec 16)
  /-- A header line to write. -/
  | wireVar (bytes : List Byte)
  deriving DecidableEq, Repr

/-- What the result wires of the stand-alone ports show (spec/30_encoding.md R66; the model's own field, entry 10). -/
inductive PortResult where
  /-- No port has been used. -/
  | idle
  /-- TOCHAR's 8 bits. -/
  | char (c : Byte)
  /-- FROMCHAR's `valid`, `n` and `is6`. -/
  | charIndex (valid : Bool) (n : BitVec 7) (is6 : Bool)
  /-- PACK's 32 bits `A : B : C : D`. -/
  | quad (w : BitVec 32)
  /-- The 16 bits of ESCAPE and PADMARK. -/
  | pair (w : BitVec 16)
  /-- The operand was outside its function's contract: no result is defined (U5, U6). -/
  | refused
  deriving DecidableEq, Repr

/-- The whole state: the registers of the block (R10 to R17), the environment of the session (R26), and the fields the
model adds. -/
structure State where
  /-- `LIT[0..2]` (R10). -/
  lit : Lit
  /-- `LIT_N` (R11). -/
  litN : BitVec 2
  /-- `NULLS` (R12). -/
  nulls : BitVec 7
  /-- `REM` (R13). -/
  remByte : Byte
  /-- `REM_VALID` (R13). -/
  remValid : Bool
  /-- `COL` (R14). -/
  col : BitVec 7
  /-- `FILL` (R15). -/
  fill : BitVec 2
  /-- `SEQ` (R16). -/
  seq : Seq
  /-- `ERR` (R17). -/
  err : Err
  /-- The arguments bound to the session (R24). -/
  args : SessionArgs
  /-- `IPOS` (R19). -/
  ipos : Nat
  /-- `OUT`, first byte written first (spec/20_memory.md R33). -/
  out : List Byte
  /-- How many `InRead()` have been made: the index of the next one (entry 9). -/
  reads : Nat
  /-- How many `OutWrite()` have been made: the index of the next one (entry 9). -/
  writes : Nat
  /-- The classifier's call (entry 6). -/
  call : Call
  /-- The arguments the host holds ready for the next session (spec/70_reset_and_hazards.md R180; entry 8). -/
  offered : SessionArgs
  /-- Whether reset is asserted (R175; entry 8). -/
  resetLine : Bool
  /-- What is presented from outside on the port of a leaf function (entry 10). -/
  request : Option PortRequest
  /-- What stands on the operand wires of GET3 or of the line writer between two steps: nothing in any run, since the
  sequencer drives them and has the unit's work done within its own step (entry 24). -/
  unitWires : Option UnitWord
  /-- The result wires of the stand-alone ports (entry 10). -/
  result : PortResult
  /-- The number of free values drawn (entry 5). -/
  fresh : Nat
  deriving DecidableEq, Repr

/-- Why the machine stops with a fault. The block's own exception, `IOError`, is no fault of the model: it is a next state
in which `SEQ` is `Abort` (spec/60_exceptions.md R158). -/
inductive Fault where
  /-- Raised by `InRead()` when the environment never answers it: the block waits inside GET3 (U12 `stuck`, R185). Safe:
  the machine makes no further step. -/
  | readUnanswered
  /-- Raised by `OutWrite()` when the environment never answers it (U12 `stuck`). Safe: the machine makes no further step. -/
  | writeUnanswered
  deriving DecidableEq, Repr

/-- Why an operation has no meaning: the spec's `refuse` (spec/00_scope.md R7), an operation invoked outside its contract. -/
inductive Refusal where
  /-- Raised by exec's arm of an instruction that has no meaning yet. Safe. -/
  | notModelled (mnemonic : String)
  /-- Raised by the step for a word the decoder refuses (U10, R61). Safe. -/
  | undecodable (why : DecodeReject)
  /-- Raised by a per-symbol step or a sequencer action whose condition in the opcode table does not hold. Safe. -/
  | conditionFails
  /-- Raised by a symbol outside a running call of GET3 (R80, R82). Safe. -/
  | noRunningCall
  /-- Raised by GET3 outside `Streaming`, or while a call is open or its token is not handled (R137). Safe. -/
  | callNotAllowed
  /-- Raised by a token that is not the one on the token bus, or outside `Streaming` (R137). Safe. -/
  | tokenNotAccepted
  /-- Raised by a token word outside the ranges of R52 (U10). Safe. -/
  | malformedToken
  /-- Raised by an output group outside the ranges of R53, R54 (R61). Safe. -/
  | malformedGroup
  /-- Raised by TOCHAR of 79..127 (R73, U6), the operation and no step of a session (entry 10). Safe. -/
  | charIndexOutOfRange
  /-- Raised by ESCAPE of 0, 1 or 79..127 (R121, U5), the operation and no step of a session (entry 10). Safe. -/
  | runCountOutOfRange
  /-- Raised by EMIT of a group that has neither 2 nor 4 characters (R129, U8). Safe. -/
  | groupLength
  /-- Raised by a group or a line break presented in `Done` or `Abort`, where no byte is written (R144, R158). Safe. -/
  | sessionOver
  /-- Raised by ABORT where no access of that stream can be made (R156, R157, R159). Safe. -/
  | noAccessToFail
  deriving DecidableEq, Repr

/-- No arguments: empty `HDR` and `INPUT`, an environment that answers and never fails (entries 7, 9). -/
def SessionArgs.empty : SessionArgs :=
  { hdr := [], input := [], readFail := none, writeFail := none, readMute := none, writeMute := none }

/-- The machine right after reset (R25), with no program placed (entry 7). `LIT` and `REM`, for which the spec gives no
value, are 0 (entry 1). -/
def State.reset : State :=
  { lit := { b0 := 0#8, b1 := 0#8, b2 := 0#8 }
    litN := 0#2
    nulls := 0#7
    remByte := 0#8
    remValid := false
    col := 0#7
    fill := 0#2
    seq := .start
    err := .none
    args := SessionArgs.empty
    ipos := 0
    out := []
    reads := 0
    writes := 0
    call := .idle
    offered := SessionArgs.empty
    resetLine := false
    request := none
    unitWires := none
    result := .idle
    fresh := 0 }

end Sys2Proof.Machine
end

