-- ==== Sys2Proof/Machine/Flags.lean ====
section
/-! DEFINITION. Every flag and predicate the rules test (spec/10_state.md R20) and the numbers of the status outputs (R16,
R17). The block has no arithmetic condition codes. -/

namespace Sys2Proof.Machine

/-- `IsNull(b)` (R20). -/
def isNull (b : Byte) : Bool := b == 0x00#8

/-- `lit_pending`: `LIT_N > 0` (R20). -/
def State.litPending (s : State) : Bool := s.litN != 0#2

/-- `run_pending`: `NULLS > 0` (R20). -/
def State.runPending (s : State) : Bool := s.nulls != 0#7

/-- `run_escapable`: `NULLS >= MIN_NULL_RUN` (R20). -/
def State.runEscapable (s : State) : Bool := decide (Config.minNullRun ≤ s.nulls.toNat)

/-- `run_overflow`: `NULLS + 1 > MAX_NULL_RUN`, on unbounded integers (R20, spec/00_scope.md R6). -/
def State.runOverflow (s : State) : Bool := decide (Config.maxNullRun < s.nulls.toNat + 1)

/-- `lit_full`: `LIT_N == 3` (R20). -/
def State.litFull (s : State) : Bool := s.litN == 3#2

/-- `wrap_needed(g)`: `COL + len(g) > MAX_LINE_WIDTH`, strict (R20, spec/44_line_writer.md R126). -/
def State.wrapNeeded (s : State) (len : Nat) : Bool := decide (Config.maxLineWidth < s.col.toNat + len)

/-- `pad_pending`: `FILL > 0` (R20). -/
def State.padPending (s : State) : Bool := s.fill != 0#2

/-- The number of a session state (R16). -/
def Seq.code (q : Seq) : BitVec 3 :=
  match q with
  | .start => 0#3
  | .streaming => 1#3
  | .finalizing => 2#3
  | .done => 3#3
  | .abort => 4#3

/-- The number of an error status (R17). -/
def Err.code (e : Err) : BitVec 2 :=
  match e with
  | .none => 0#2
  | .inp => 1#2
  | .out => 2#2

/-- The status output `SEQ`, readable by the host (D2). -/
def State.statusSeq (s : State) : BitVec 3 := s.seq.code

/-- The status output `ERR`, readable by the host (D2). -/
def State.statusErr (s : State) : BitVec 2 := s.err.code

/-- The session has ended: `Done` and `Abort` are terminal (R16), no access is made in them (R144, R158). -/
def State.over (s : State) : Bool :=
  match s.seq with
  | .done => true
  | .abort => true
  | _ => false

end Sys2Proof.Machine
end

