-- ==== Sys2Proof/WellFormed.lean ====
section
/-! DEFINITION. Which instructions are well formed: the operand ranges that the encodings state. An operand a bus can
carry but an operation's contract excludes (TOCHAR 79..127, ESCAPE 0, 1, 79..127) is well formed: the operation itself
refuses it (spec/40_alphabet_mapper.md R73, spec/43_escaper.md R121). -/

namespace Sys2Proof

/-- A byte of the class SYM.LIT (spec/30_encoding.md R51). -/
def isLitByte (b : Byte) : Bool := b != 0x00#8

/-- A character of a quad, 0x30..0x6F (R53). -/
def isQuadChar (c : Byte) : Bool := decide (0x30 ≤ c.toNat ∧ c.toNat ≤ 0x6F)

/-- A count character of an escape sequence, 0x32..0x7E (R54). -/
def isCountChar (c : Byte) : Bool := decide (0x32 ≤ c.toNat ∧ c.toNat ≤ 0x7E)

/-- A count a NullRun token carries, 2..78 (R52). -/
def isRunCount (n : BitVec 7) : Bool := decide (2 ≤ n.toNat ∧ n.toNat ≤ 78)

/-- The operand ranges stated by the encodings, row by row. -/
def Instr.wellFormed (i : Instr) : Bool :=
  match i with
  | .symEof | .symNul => true
  | .symLit b => isLitByte b
  | .symNulCount | .symNulCut | .symNulAppend => true
  | .symLitAppend b => isLitByte b
  | .symLitBacktrack b => isLitByte b
  | .symLitEndrun b => isLitByte b
  | .symEofRun | .symEofOne | .symEofTail | .symEofEnd => true
  | .tEnd => true
  | .tLiteral len _ _ _ => len != 0#2
  | .tNullrun count => isRunCount count
  | .wQuad a b c d => isQuadChar a && isQuadChar b && isQuadChar c && isQuadChar d
  | .wEsc k => isCountChar k
  | .wPad | .wEol => true
  | .wHdr _ => true
  | .toChar _ | .fromChar _ | .pack _ _ _ | .escape _ | .padmark | .emit _ _ | .get3 => true
  | .seqStart | .seqLiteral | .seqShortlit | .seqNullrun | .seqEnd | .seqFinalize => true
  | .abort _ | .reset => true

end Sys2Proof
end

