-- ==== Sys2Proof/Machine/Operands.lean ====
section
/-! DEFINITION. The operand and result forms of the units, as pure functions: the alphabet mapper
(spec/40_alphabet_mapper.md), the packer's slices (spec/42_packer.md), the escaper's pairs (spec/43_escaper.md), the group on
EMIT's bus (spec/30_encoding.md R66), and the literal buffer read and written by index (spec/10_state.md R10). -/

namespace Sys2Proof.Machine

/-! ## The alphabet mapper -/

/-- The adder of TOCHAR: `zext_8(n) + 48` (R70). -/
def mapChar (n : BitVec 7) : Byte := n.zeroExtend 8 + BitVec.ofNat 8 Config.charBase

/-- TOCHAR on its domain 0..78; no result outside it (R70, R73). -/
def toChar (n : BitVec 7) : Option Byte :=
  if n.toNat ≤ Config.maxNullRun then some (mapChar n) else none

/-- The byte a list of cells holds at an address, if it lists one. -/
def readCell (m : List Host.Cell) (addr : Nat) : Option Byte :=
  match m with
  | [] => none
  | c :: rest => if c.1 = addr then some c.2 else readCell rest addr

/-- `MemRead(ROM + i, 1)` (spec/00_scope.md R7, spec/20_memory.md R40). -/
def romRead (i : Nat) : Option Byte := readCell Config.alphabetRom i

/-- The canonical form of a memory: addresses strictly rising. -/
def Memory.wf (m : List Host.Cell) : Bool :=
  match m with
  | [] => true
  | c :: rest => rest.all (fun d => decide (c.1 < d.1)) && Memory.wf rest

/-- FROMCHAR's `valid`: the character lies in 48..126 (R72). -/
def charValid (c : Byte) : Bool := decide (48 ≤ c.toNat ∧ c.toNat ≤ 126)

/-- FROMCHAR's `n` for a valid character: `(c - 48)[6:0]` (R72). -/
def charIndexOf (c : Byte) : BitVec 7 := (c - 48#8).extractLsb' 0 7

/-- FROMCHAR's `is6` for a valid character: a legal packer character (R72). -/
def charIs6 (c : Byte) : Bool := decide (c.toNat ≤ 111)

/-! ## The packer -/

/-- The four 6-bit values of PACK by the document's formulas, on integers wide enough to lose no bit (R110, R113). -/
def packFields (x y z : Byte) : BitVec 6 × BitVec 6 × BitVec 6 × BitVec 6 :=
  let x := x.zeroExtend 12
  let y := y.zeroExtend 12
  let z := z.zeroExtend 12
  let a := x >>> 2
  let b := ((x <<< 4) ||| (y >>> 4)) &&& 0x3F#12
  let c := ((y <<< 2) ||| (z >>> 6)) &&& 0x3F#12
  let d := z &&& 0x3F#12
  (a.extractLsb' 0 6, b.extractLsb' 0 6, c.extractLsb' 0 6, d.extractLsb' 0 6)

/-- The character of a 6-bit value (R70, R71). -/
def mapField (v : BitVec 6) : Byte := mapChar (v.zeroExtend 7)

/-- PACK: four characters, the first written first (R110). -/
def packChars (x y z : Byte) : List Byte :=
  let f := packFields x y z
  [mapField f.1, mapField f.2.1, mapField f.2.2.1, mapField f.2.2.2]

/-- PACK's result on its 32 wires, `A : B : C : D` (R66). -/
def packWord (x y z : Byte) : BitVec 32 :=
  let f := packFields x y z
  mapField f.1 ++ mapField f.2.1 ++ mapField f.2.2.1 ++ mapField f.2.2.2

/-! ## The escaper -/

/-- ESCAPE: `~` and the count character; no result outside 2..78 (R120, R121). -/
def escapeChars (count : BitVec 7) : Option (List Byte) :=
  if isRunCount count then some [Config.escChar, mapChar count] else none

/-- ESCAPE's result on its 16 wires, `0x7E : K` (R66). -/
def escapeWord (count : BitVec 7) : Option (BitVec 16) :=
  if isRunCount count then some (Config.escChar ++ mapChar count) else none

/-- PADMARK: `~` and `to_char(0)` (R122). -/
def padChars : List Byte := [Config.escChar, mapChar 0#7]

/-- PADMARK's result on its 16 wires (R66). -/
def padWord : BitVec 16 := Config.escChar ++ mapChar 0#7

/-! ## The group on EMIT's bus -/

/-- The characters on EMIT's bus, the most significant first: 4, or, with length select 0, the 2 of bits 31:16 (R66). -/
def busGroup (long : Bool) (g : BitVec 32) : List Byte :=
  if long then
    [g.extractLsb' 24 8, g.extractLsb' 16 8, g.extractLsb' 8 8, g.extractLsb' 0 8]
  else [g.extractLsb' 24 8, g.extractLsb' 16 8]

/-! ## The literal buffer -/

/-- `LIT[i] <- b`; there is no `LIT[3]`. -/
def Lit.set (l : Lit) (i : BitVec 2) (b : Byte) : Lit :=
  if i = 0#2 then { l with b0 := b }
  else if i = 1#2 then { l with b1 := b }
  else if i = 2#2 then { l with b2 := b }
  else l

/-- `for i in n .. 2: LIT[i] <- 0x00` (spec/45_session_sequencer.md R139). -/
def Lit.padFrom (l : Lit) (n : BitVec 2) : Lit :=
  { b0 := if n = 0#2 then 0x00#8 else l.b0
    b1 := if n.toNat ≤ 1 then 0x00#8 else l.b1
    b2 := if n.toNat ≤ 2 then 0x00#8 else l.b2 }

/-- The bytes `LIT[0..n-1]` a Literal token of length `n` refers to (spec/30_encoding.md R52). -/
def Lit.bytes (l : Lit) (n : BitVec 2) : List Byte := [l.b0, l.b1, l.b2].take n.toNat

end Sys2Proof.Machine
end

