-- ==== Sys2Proof/Machine/Ops.lean ====
section
/-! DEFINITION. The shared operations: the stream accesses (spec/20_memory.md R31, R33, R34), taking the block's one exception
(spec/60_exceptions.md R158) and leaving it by reset (spec/70_reset_and_hazards.md R175), the start of a call and the register
updates of the classifier (spec/41_byte_classifier.md R81 to R93), and the line writer (spec/44_line_writer.md R125). -/

namespace Sys2Proof.Machine

/-! ## Taking the exception, and the way out -/

/-- The error code that a failing stream records (R155). -/
def errOf (which : Stream) : Err :=
  match which with
  | .inp => .inp
  | .out => .out

/-- `raise IOError(which)` (R158): `ERR` and `SEQ <- Abort`, the operation in progress stopped. Every other register is
then not to be relied on (U18), `OUT` not from the failing byte on (U19), `IPOS` not after a failed read (R31): free
values (entry 3). -/
def State.raiseIOError (s : State) (which : Stream) : State :=
  let v := Config.freeValues s.fresh
  { s with
    seq := .abort
    err := errOf which
    lit := { b0 := v.lit0, b1 := v.lit1, b2 := v.lit2 }
    litN := v.litN
    nulls := v.nulls
    remByte := v.remByte
    remValid := v.remValid
    col := v.col
    fill := v.fill
    call := .idle
    ipos := match which with
      | .inp => v.ipos
      | .out => s.ipos
    out := match which with
      | .inp => s.out
      | .out => s.out ++ v.outTail
    fresh := s.fresh + 1 }

/-- Reset asserted and released (R175): the registers of R25, the session's arguments bound, `OUT` empty; `LIT` and `REM`
unspecified, so free values (entry 2). The one way out of `Abort` (R159). -/
def State.resetSession (s : State) : State :=
  let v := Config.freeValues s.fresh
  { s with
    lit := { b0 := v.lit0, b1 := v.lit1, b2 := v.lit2 }
    litN := 0#2
    nulls := 0#7
    remByte := v.remByte
    remValid := false
    col := 0#7
    fill := 0#2
    seq := .start
    err := .none
    args := s.offered
    ipos := 0
    out := []
    reads := 0
    writes := 0
    call := .idle
    resetLine := false
    unitWires := none
    fresh := s.fresh + 1 }

/-! ## How an operation that makes accesses ends -/

/-- The end of an operation that makes stream accesses. -/
inductive Run where
  /-- It goes on from this state. -/
  | ok (s : State)
  /-- An access failed and the exception was taken: nothing after it happens (R158). -/
  | aborted (s : State)
  /-- An access is never answered. -/
  | stuck (f : Fault)
  /-- It was invoked outside its contract. -/
  | refused (r : Refusal)
  deriving DecidableEq, Repr

/-- What follows, where the operation goes on. -/
def Run.andThen (m : Run) (f : State → Run) : Run :=
  match m with
  | .ok s => f s
  | .aborted s => .aborted s
  | .stuck r => .stuck r
  | .refused r => .refused r

/-- The outcome of an instruction from the end of its operation: an abort is a next state. -/
def Run.outcome (m : Run) : Host.Outcome State Fault Refusal :=
  match m with
  | .ok s => .next s
  | .aborted s => .next s
  | .stuck f => .fault f
  | .refused r => .refused r

/-! ## The output stream -/

/-- The byte `c` appended to `OUT`, one more write made (R33). -/
def State.putByte (s : State) (c : Byte) : State :=
  { s with out := s.out ++ [c], writes := s.writes + 1 }

/-- The bytes appended to `OUT` in order, one write each (R33). -/
def State.putBytes (s : State) (bytes : List Byte) : State :=
  { s with out := s.out ++ bytes, writes := s.writes + bytes.length }

/-- `OutWrite(c)` (R33): accepted, or answered `IoErr`, or never answered (U12), by the index of the write. -/
def outWrite (s : State) (c : Byte) : Run :=
  if s.args.writeMute = some s.writes then .stuck .writeUnanswered
  else if s.args.writeFail = some s.writes then
    .aborted (State.raiseIOError { s with writes := s.writes + 1 } .out)
  else .ok (s.putByte c)

/-- Consecutive `OutWrite` calls, the first byte first (R36, R38). -/
def writeAll (bytes : List Byte) (s : State) : Run :=
  match bytes with
  | [] => .ok s
  | c :: rest => (outWrite s c).andThen (writeAll rest)

/-- `OutEOL()`: 0x0D then 0x0A (R34). -/
def outEol (s : State) : Run := writeAll Config.lineBreak s

/-- The header line: the bytes of `HDR` unchanged, then the line break; not through EMIT (R57, R136). -/
def writeHeaderLine (hdr : List Byte) (s : State) : Run :=
  (writeAll hdr s).andThen outEol

/-! ## The line writer -/

/-- `COL <- v`. -/
def State.setCol (s : State) (v : BitVec 7) : State := { s with col := v }

/-- The wrap of EMIT, made before the group is written (R126). -/
def wrapLine (len : Nat) (s : State) : Run :=
  if s.wrapNeeded len then (outEol s).andThen fun s' => .ok (s'.setCol 0#7) else .ok s

/-- EMIT of a group of 2 or 4 characters; of any other length refused (R125 to R127, R129). -/
def emitGroup (g : List Byte) (s : State) : Run :=
  if g.length = Config.escLen ∨ g.length = Config.quadLen then
    (wrapLine g.length s).andThen fun s1 =>
      (writeAll g s1).andThen fun s2 => .ok (s2.setCol (s2.col + BitVec.ofNat 7 g.length))
  else .refused .groupLength

/-- `repeat n times: EMIT(PADMARK())`, each marker a group of its own (spec/45_session_sequencer.md R142). -/
def writeMarkers (n : Nat) (s : State) : Run :=
  match n with
  | 0 => .ok s
  | n + 1 => (emitGroup padChars s).andThen (writeMarkers n)

/-! ## The input stream -/

/-- The answer to an `InRead()` (R31), with the state after it. -/
inductive ReadAnswer where
  | byte (b : Byte) (s : State)
  | eof (s : State)
  | ioErr (s : State)
  /-- The environment never answers (U12). -/
  | unanswered
  deriving DecidableEq, Repr

/-- One byte taken from the input: `IPOS <- IPOS + 1` (R31). -/
def State.takeByte (s : State) : State := { s with ipos := s.ipos + 1, reads := s.reads + 1 }

/-- A read that takes no byte: end of input, or a failure (R31). -/
def State.countRead (s : State) : State := { s with reads := s.reads + 1 }

/-- `InRead()` (R31); at end of input it answers `Eof` every time (R32). -/
def inRead (s : State) : ReadAnswer :=
  if s.args.readMute = some s.reads then .unanswered
  else if s.args.readFail = some s.reads then .ioErr s.countRead
  else match s.args.input[s.ipos]? with
    | some b => .byte b s.takeByte
    | none => .eof s.countRead

/-! ## The classifier's registers -/

/-- `LIT[LIT_N] <- b; LIT_N <- LIT_N + 1` (R85, R86). -/
def State.appendLit (s : State) (b : Byte) : State :=
  { s with lit := s.lit.set s.litN b, litN := s.litN + 1#2 }

/-- `NULLS <- NULLS + 1` (R83). -/
def State.countNull (s : State) : State := { s with nulls := s.nulls + 1#7 }

/-- `REM <- b; REM_VALID <- 1` (R84, R88). -/
def State.holdByte (s : State) (b : Byte) : State := { s with remByte := b, remValid := true }

/-- `LIT[0] <- 0x00; LIT_N <- 1; NULLS <- 0`: the one pending null becomes a literal byte (R87, R91). -/
def State.nullToLit (s : State) : State :=
  { s with lit := s.lit.set 0#2 0x00#8, litN := 1#2, nulls := 0#7 }

/-- `return t`: the call ends with its token on the bus to the sequencer (spec/00_scope.md R7). -/
def State.returnToken (s : State) (t : Token) : State := { s with call := .returned t }

/-- The start of a call (R81): `LIT_N` and `NULLS` cleared, then the remainder, if there is one, classified as if it had
just been read (it returns no token). -/
def State.openCall (s : State) : State :=
  let s1 : State := { s with litN := 0#2, nulls := 0#7, call := .running }
  if s1.remValid then
    let s2 : State := { s1 with remValid := false }
    if isNull s2.remByte then s2.countNull else s2.appendLit s2.remByte
  else s1

/-- Completion of a triple, after an append: `if LIT_N == 3: return Literal(3)` (R89). -/
def State.closeTriple (s : State) : State := if s.litFull then s.returnToken (.literal 3#2) else s

/-- A literal byte appended, and the triple closed if it is complete (R85, R86, R89); there is no `LIT[3]`, and `LIT_N` is
at most 2 before an append (R86). -/
def appendLiteral (s : State) (b : Byte) : Host.Outcome State Fault Refusal :=
  if s.litFull then .refused .conditionFails else .next (s.appendLit b).closeTriple

/-! ## The sequencer's registers -/

/-- The sequencer takes the token off the bus. -/
def State.acceptToken (s : State) (t : Token) : State := { s with call := .accepted t }

/-- `FILL <- v`, and the token taken: the sequencer has handled it when its group is written (R137 to R140). -/
def State.takeToken (s : State) (fill : BitVec 2) : State := { s with fill := fill, call := .idle }

/-- `SEQ <- q`. -/
def State.setSeq (s : State) (q : Seq) : State := { s with seq := q }

/-- The result wires of a leaf function's port. -/
def State.showResult (s : State) (r : PortResult) : State := { s with result := r }

end Sys2Proof.Machine
end

