-- ==== Sys2Proof/Machine/Classifier.lean ====
section
/-! DEFINITION. The byte classifier (spec/41_byte_classifier.md): the ten per-symbol steps, the three symbol classes that
dispatch to them on the state, and GET3, one whole call. A symbol is classified inside a running call (R80, R82); a row whose
condition in the table does not hold has no meaning (entry 14). -/

namespace Sys2Proof.Machine

/-- A per-symbol step inside a running call, under its condition. -/
def inCall (s : State) (cond : Bool) (effect : Host.Outcome State Fault Refusal) : Host.Outcome State Fault Refusal :=
  if s.call = .running then if cond then effect else .refused .conditionFails
  else .refused .noRunningCall

/-- SYM.NUL.COUNT (R83): the null is counted; a count above MAX_NULL_RUN cuts the run (R84). -/
def execSymNulCount (s : State) : Host.Outcome State Fault Refusal :=
  inCall s (!s.litPending) <|
    if s.runOverflow then .next ((s.countNull.holdByte 0x00#8).returnToken (.nullRun 78#7))
    else .next s.countNull

/-- SYM.NUL.CUT (R84): the 79th null. -/
def execSymNulCut (s : State) : Host.Outcome State Fault Refusal :=
  inCall s (!s.litPending && s.nulls == 78#7) <|
    .next ((s.countNull.holdByte 0x00#8).returnToken (.nullRun 78#7))

/-- SYM.NUL.APPEND (R85): a literal byte 0x00. -/
def execSymNulAppend (s : State) : Host.Outcome State Fault Refusal :=
  inCall s s.litPending <| appendLiteral s 0x00#8

/-- SYM.LIT.APPEND (R86). -/
def execSymLitAppend (b : Byte) (s : State) : Host.Outcome State Fault Refusal :=
  inCall s (!s.runPending) <| appendLiteral s b

/-- SYM.LIT.BACKTRACK (R87): the one pending null is re-inserted, then the byte appended. -/
def execSymLitBacktrack (b : Byte) (s : State) : Host.Outcome State Fault Refusal :=
  inCall s (s.nulls == 1#7) <| .next (s.nullToLit.appendLit b)

/-- SYM.LIT.ENDRUN (R88): the run ends, the byte is held. -/
def execSymLitEndrun (b : Byte) (s : State) : Host.Outcome State Fault Refusal :=
  inCall s s.runEscapable <| .next ((s.holdByte b).returnToken (.nullRun s.nulls))

/-- SYM.EOF.RUN (R90). -/
def execSymEofRun (s : State) : Host.Outcome State Fault Refusal :=
  inCall s s.runEscapable <| .next (s.returnToken (.nullRun s.nulls))

/-- SYM.EOF.ONE (R91). -/
def execSymEofOne (s : State) : Host.Outcome State Fault Refusal :=
  inCall s (s.nulls == 1#7) <| .next (s.nullToLit.returnToken (.literal 1#2))

/-- SYM.EOF.TAIL (R92): `NULLS == 0` and `LIT_N` in 1..2. -/
def execSymEofTail (s : State) : Host.Outcome State Fault Refusal :=
  inCall s (!s.runPending && s.litPending && !s.litFull) <| .next (s.returnToken (.literal s.litN))

/-- SYM.EOF.END (R93). -/
def execSymEofEnd (s : State) : Host.Outcome State Fault Refusal :=
  inCall s (!s.runPending && !s.litPending) <| .next (s.returnToken .endOfInput)

/-- SYM.NUL, dispatched on the state (R82): R83 with R84, or R85. -/
def execSymNul (s : State) : Host.Outcome State Fault Refusal :=
  if s.litPending then execSymNulAppend s else execSymNulCount s

/-- SYM.LIT, dispatched on the state (R82): R88, R87 or R86. -/
def execSymLit (b : Byte) (s : State) : Host.Outcome State Fault Refusal :=
  if s.runEscapable then execSymLitEndrun b s
  else if s.runPending then execSymLitBacktrack b s
  else execSymLitAppend b s

/-- SYM.EOF, dispatched on the state (R82): R90, R91, R92 or R93. -/
def execSymEof (s : State) : Host.Outcome State Fault Refusal :=
  if s.runEscapable then execSymEofRun s
  else if s.runPending then execSymEofOne s
  else if s.litPending then execSymEofTail s
  else execSymEofEnd s

/-- One iteration of the loop of a call: one `InRead()` and the step of its symbol (R82); a failed read raises
`IOError(In)` (R156). -/
def readSymbol (s : State) : Host.Outcome State Fault Refusal :=
  match inRead s with
  | .byte b s' => if isNull b then execSymNul s' else execSymLit b s'
  | .eof s' => execSymEof s'
  | .ioErr s' => .next (s'.raiseIOError .inp)
  | .unanswered => .fault .readUnanswered

/-- The loop of a call, for at most `n` symbols: it ends when a symbol returns a token or a read fails (R80). -/
def callLoop (n : Nat) (s : State) : Host.Outcome State Fault Refusal :=
  match n with
  | 0 => .next s
  | n + 1 =>
    match readSymbol s with
    | .next s' => if s'.call = .running then callLoop n s' else .next s'
    | .fault f => .fault f
    | .refused r => .refused r

/-- The number of input bytes not yet read. -/
def State.unread (s : State) : Nat := s.args.input.length - s.ipos

/-- GET3 (R80): one whole call, invoked in `Streaming` when no call is open and no token waits (R137). A call reads at most
the unread bytes and one `Eof`. -/
def execGet3 (s : State) : Host.Outcome State Fault Refusal :=
  if s.seq = .streaming ∧ s.call = .idle then callLoop (s.unread + 1) s.openCall
  else .refused .callNotAllowed

end Sys2Proof.Machine
end

