-- ==== Sys2Proof/Machine/Escaper.lean ====
section
/-! DEFINITION. The null-run escaper's stand-alone ports: ESCAPE, PADMARK (spec/43_escaper.md). -/

namespace Sys2Proof.Machine

/-- ESCAPE `count` (R120); 0, 1 and 79..127 refused (R121). -/
def execEscape (n : BitVec 7) (s : State) : Host.Outcome State Fault Refusal :=
  match escapeWord n with
  | some w => .next (s.showResult (.pair w))
  | none => .refused .runCountOutOfRange

/-- PADMARK (R122). -/
def execPadmark (s : State) : Host.Outcome State Fault Refusal :=
  .next (s.showResult (.pair padWord))

end Sys2Proof.Machine
end

