-- ==== Sys2Proof/Machine/Events.lean ====
section
/-! DEFINITION. The two events: ABORT (spec/60_exceptions.md R156 to R158) and RESET (spec/70_reset_and_hazards.md R175). -/

namespace Sys2Proof.Machine

/-- Whether an access of the stream can be made, and so fail: a read in `Streaming` inside a call of GET3 (R156), a write in
`Start`, `Streaming` and `Finalizing` (R157), none in `Done` and `Abort` (R159). That for a write the state `SEQ` alone decides,
whatever the call stands at, is the model's choice (DESIGN CHOICE, entry 14). -/
def canFail (which : Stream) (q : Seq) (c : Call) : Bool :=
  match which, q with
  | .inp, .streaming => c == .running
  | .out, .start => true
  | .out, .streaming => true
  | .out, .finalizing => true
  | _, _ => false

/-- ABORT: the exception is taken (R158). -/
def execAbort (which : Stream) (s : State) : Host.Outcome State Fault Refusal :=
  if canFail which s.seq s.call then .next (s.raiseIOError which) else .refused .noAccessToFail

/-- RESET, in any state (R175). -/
def execReset (s : State) : Host.Outcome State Fault Refusal := .next s.resetSession

end Sys2Proof.Machine
end

