-- ==== Sys2Proof/Machine/LineWriter.lean ====
section
/-! DEFINITION. The line writer's operation, EMIT (spec/44_line_writer.md), and the output groups as operations:
W.QUAD, W.ESC, W.PAD, W.EOL, W.HDR (spec/30_encoding.md R53 to R57; entry 12). -/

namespace Sys2Proof.Machine

/-- A group on the line writer's operand wires (entry 24); after `Done` or `Abort` no byte is written (R144, R158). -/
def presentGroup (g : List Byte) (s : State) : Host.Outcome State Fault Refusal :=
  if s.over then .refused .sessionOver else (emitGroup g s).outcome

/-- EMIT (R125). -/
def execEmit (long : Bool) (g : BitVec 32) (s : State) : Host.Outcome State Fault Refusal :=
  presentGroup (busGroup long g) s

/-- W.QUAD (R53): the body's groups are written by EMIT (R129). -/
def execWQuad (a b c d : Byte) (s : State) : Host.Outcome State Fault Refusal :=
  if isQuadChar a && isQuadChar b && isQuadChar c && isQuadChar d then presentGroup [a, b, c, d] s
  else .refused .malformedGroup

/-- W.ESC (R54), written by EMIT (R129). -/
def execWEsc (k : Byte) (s : State) : Host.Outcome State Fault Refusal :=
  if isCountChar k then presentGroup [Config.escChar, k] s else .refused .malformedGroup

/-- W.PAD (R55), written by EMIT (R129). -/
def execWPad (s : State) : Host.Outcome State Fault Refusal := presentGroup padChars s

/-- W.EOL (R56): `OutEOL()`; it does not go through EMIT and does not change `COL` (R126, R143). -/
def execWEol (s : State) : Host.Outcome State Fault Refusal :=
  if s.over then .refused .sessionOver else (outEol s).outcome

/-- W.HDR (R57): the header bytes unchanged, then a line break; not through EMIT, not counted in `COL`. -/
def execWHdr (hdr : List Byte) (s : State) : Host.Outcome State Fault Refusal :=
  if s.over then .refused .sessionOver else (writeHeaderLine hdr s).outcome

end Sys2Proof.Machine
end

