-- ==== Sys2Proof/Machine/Mapper.lean ====
section
/-! DEFINITION. The alphabet mapper's stand-alone ports: TOCHAR, FROMCHAR (spec/40_alphabet_mapper.md). They read and write
no register (spec/10_state.md R27); their result is what the port's wires show. -/

namespace Sys2Proof.Machine

/-- TOCHAR `n` (R70); 79..127 refused (R73). -/
def execToChar (n : BitVec 7) (s : State) : Host.Outcome State Fault Refusal :=
  match toChar n with
  | some c => .next (s.showResult (.char c))
  | none => .refused .charIndexOutOfRange

/-- FROMCHAR `c` (R72): `(valid, n, is6)`; where `valid = 0` the other two have no meaning (U7) and are free values. -/
def execFromChar (c : Byte) (s : State) : Host.Outcome State Fault Refusal :=
  if charValid c then .next (s.showResult (.charIndex true (charIndexOf c) (charIs6 c)))
  else
    let v := Config.freeValues s.fresh
    .next { s with result := .charIndex false v.charIndex v.is6, fresh := s.fresh + 1 }

end Sys2Proof.Machine
end

