-- ==== Sys2Proof/Machine/Packer.lean ====
section
/-! DEFINITION. The packer's stand-alone port: PACK (spec/42_packer.md). -/

namespace Sys2Proof.Machine

/-- PACK `x, y, z` (R110): total on every triple. -/
def execPack (x y z : Byte) (s : State) : Host.Outcome State Fault Refusal :=
  .next (s.showResult (.quad (packWord x y z)))

end Sys2Proof.Machine
end

