-- ==== Sys2Proof/Machine/Sequencer.lean ====
section
/-! DEFINITION. The session sequencer (spec/45_session_sequencer.md): SEQ.START, SEQ.LITERAL, SEQ.SHORTLIT, SEQ.NULLRUN,
SEQ.END, SEQ.FINALIZE. Each row has the condition on `SEQ` and the token that the table states; elsewhere it has no meaning
(entry 14). -/

namespace Sys2Proof.Machine

/-- PACK of the literal buffer (R138, R139). -/
def Lit.pack (l : Lit) : List Byte := packChars l.b0 l.b1 l.b2

/-- SEQ.START (R136). -/
def execSeqStart (s : State) : Host.Outcome State Fault Refusal :=
  if s.seq = .start then
    ((writeHeaderLine s.args.hdr s).andThen fun s' => .ok (s'.setSeq .streaming)).outcome
  else .refused .conditionFails

/-- SEQ.LITERAL (R138). -/
def execSeqLiteral (s : State) : Host.Outcome State Fault Refusal :=
  if s.seq = .streaming ∧ s.call = .accepted (.literal 3#2) then
    (emitGroup s.lit.pack (s.takeToken 0#2)).outcome
  else .refused .conditionFails

/-- `LIT[n..2] <- 0x00` (R139). -/
def State.padLit (s : State) (n : BitVec 2) : State := { s with lit := s.lit.padFrom n }

/-- SEQ.SHORTLIT (R139). -/
def execSeqShortlit (s : State) : Host.Outcome State Fault Refusal :=
  match s.seq, s.call with
  | .streaming, .accepted (.literal n) =>
    if n = 1#2 ∨ n = 2#2 then
      (emitGroup (s.padLit n).lit.pack ((s.padLit n).takeToken (3#2 - n))).outcome
    else .refused .conditionFails
  | _, _ => .refused .conditionFails

/-- SEQ.NULLRUN (R140); a count outside ESCAPE's contract refused (R121, U10). -/
def execSeqNullrun (s : State) : Host.Outcome State Fault Refusal :=
  match s.seq, s.call with
  | .streaming, .accepted (.nullRun count) =>
    match escapeChars count with
    | some g => (emitGroup g (s.takeToken 0#2)).outcome
    | none => .refused .malformedToken
  | _, _ => .refused .conditionFails

/-- SEQ.END (R141): nothing is written, `FILL` keeps its value. -/
def execSeqEnd (s : State) : Host.Outcome State Fault Refusal :=
  if s.seq = .streaming ∧ s.call = .accepted .endOfInput then
    .next ((s.takeToken s.fill).setSeq .finalizing)
  else .refused .conditionFails

/-- SEQ.FINALIZE (R142, R143): `FILL` markers through EMIT, then the trailer, not through EMIT. -/
def execSeqFinalize (s : State) : Host.Outcome State Fault Refusal :=
  if s.seq = .finalizing then
    ((writeMarkers s.fill.toNat s).andThen fun s1 =>
      (outEol s1).andThen fun s2 => .ok (s2.setSeq .done)).outcome
  else .refused .conditionFails

end Sys2Proof.Machine
end

