-- ==== Sys2Proof/Machine/Tokens.lean ====
section
/-! DEFINITION. Tokens on the token bus (spec/30_encoding.md R52): T.END, T.LITERAL, T.NULLRUN. A token word is the token that
the classifier has returned; executing it, the sequencer takes that token, and its next action handles it (the rows'
`handled_by`; entry 11). A token that the classifier has not returned is not taken, so that none is forced on the sequencer
(spec/45_session_sequencer.md R150). -/

namespace Sys2Proof.Machine

/-- The token stands on the bus and the sequencer, in `Streaming`, is ready for it (spec/45_session_sequencer.md R137). -/
def State.offersToken (s : State) (t : Token) : Bool := s.seq == .streaming && s.call == .returned t

/-- T.END. -/
def execTEnd (s : State) : Host.Outcome State Fault Refusal :=
  if s.offersToken .endOfInput then .next (s.acceptToken .endOfInput) else .refused .tokenNotAccepted

/-- T.LITERAL, whose bytes are `LIT[0..len-1]` (R52); length 0 refused (U10). -/
def execTLiteral (len : BitVec 2) (x y z : Byte) (s : State) : Host.Outcome State Fault Refusal :=
  if len = 0#2 then .refused .malformedToken
  else if s.offersToken (.literal len) && s.lit.bytes len == [x, y, z].take len.toNat then
    .next (s.acceptToken (.literal len))
  else .refused .tokenNotAccepted

/-- T.NULLRUN; a count outside 2..78 refused (U10). -/
def execTNullrun (count : BitVec 7) (s : State) : Host.Outcome State Fault Refusal :=
  if isRunCount count then
    if s.offersToken (.nullRun count) then .next (s.acceptToken (.nullRun count)) else .refused .tokenNotAccepted
  else .refused .malformedToken

end Sys2Proof.Machine
end

