-- ==== Sys2Proof/Machine/Dispatch.lean ====
section
/-! DEFINITION. One arm per instruction, each one direct call of its meaning. -/

namespace Sys2Proof.Machine

def exec (i : Instr) (s : State) : Host.Outcome State Fault Refusal :=
  match i with
  | .symEof => Sys2Proof.Machine.execSymEof s
  | .symNul => Sys2Proof.Machine.execSymNul s
  | .symLit b => Sys2Proof.Machine.execSymLit b s
  | .symNulCount => Sys2Proof.Machine.execSymNulCount s
  | .symNulCut => Sys2Proof.Machine.execSymNulCut s
  | .symNulAppend => Sys2Proof.Machine.execSymNulAppend s
  | .symLitAppend b => Sys2Proof.Machine.execSymLitAppend b s
  | .symLitBacktrack b => Sys2Proof.Machine.execSymLitBacktrack b s
  | .symLitEndrun b => Sys2Proof.Machine.execSymLitEndrun b s
  | .symEofRun => Sys2Proof.Machine.execSymEofRun s
  | .symEofOne => Sys2Proof.Machine.execSymEofOne s
  | .symEofTail => Sys2Proof.Machine.execSymEofTail s
  | .symEofEnd => Sys2Proof.Machine.execSymEofEnd s
  | .tEnd => Sys2Proof.Machine.execTEnd s
  | .tLiteral len x y z => Sys2Proof.Machine.execTLiteral len x y z s
  | .tNullrun count => Sys2Proof.Machine.execTNullrun count s
  | .wQuad a b c d => Sys2Proof.Machine.execWQuad a b c d s
  | .wEsc k => Sys2Proof.Machine.execWEsc k s
  | .wPad => Sys2Proof.Machine.execWPad s
  | .wEol => Sys2Proof.Machine.execWEol s
  | .wHdr hdr => Sys2Proof.Machine.execWHdr hdr s
  | .toChar n => Sys2Proof.Machine.execToChar n s
  | .fromChar c => Sys2Proof.Machine.execFromChar c s
  | .pack x y z => Sys2Proof.Machine.execPack x y z s
  | .escape n => Sys2Proof.Machine.execEscape n s
  | .padmark => Sys2Proof.Machine.execPadmark s
  | .emit long g => Sys2Proof.Machine.execEmit long g s
  | .get3 => Sys2Proof.Machine.execGet3 s
  | .seqStart => Sys2Proof.Machine.execSeqStart s
  | .seqLiteral => Sys2Proof.Machine.execSeqLiteral s
  | .seqShortlit => Sys2Proof.Machine.execSeqShortlit s
  | .seqNullrun => Sys2Proof.Machine.execSeqNullrun s
  | .seqEnd => Sys2Proof.Machine.execSeqEnd s
  | .seqFinalize => Sys2Proof.Machine.execSeqFinalize s
  | .abort which => Sys2Proof.Machine.execAbort which s
  | .reset => Sys2Proof.Machine.execReset s

end Sys2Proof.Machine
end

