-- ==== Sys2Proof/Decode.lean ====
section
/-! DEFINITION. The decoder, total on every word of every set of wires and refusing by name, and after it the encoder
(spec/30_encoding.md R50 to R57, R66; spec/opcode_table.json). -/

namespace Sys2Proof

/-! ## The decoder -/

/-- An input symbol, in the priority order of R51: end of input, null byte, non-null byte. -/
def decodeSymbol (w : BitVec 9) : Instr :=
  if w.extractLsb' 8 1 = 1#1 then .symEof
  else if w.extractLsb' 0 8 = 0x00#8 then .symNul
  else .symLit (w.extractLsb' 0 8)

/-- A token word (R52): kind in bits 34:33, length in 32:31, count in 30:24, bytes in 23:0. The fields that are 0 for a kind,
the bytes of T.END and T.NULLRUN among them, are those of its `encoding` in spec/opcode_table.json. -/
def decodeToken (w : BitVec 35) : Except DecodeReject Instr :=
  let len := w.extractLsb' 31 2
  let count := w.extractLsb' 24 7
  let bytes := w.extractLsb' 0 24
  if w.extractLsb' 33 2 = 0#2 then
    if len = 0#2 ∧ count = 0#7 ∧ bytes = 0#24 then .ok .tEnd else .error .tokenZeroField
  else if w.extractLsb' 33 2 = 1#2 then
    if count ≠ 0#7 then .error .tokenZeroField
    else if len = 0#2 then .error .literalLength
    else .ok (.tLiteral len (w.extractLsb' 16 8) (w.extractLsb' 8 8) (w.extractLsb' 0 8))
  else if w.extractLsb' 33 2 = 2#2 then
    if len ≠ 0#2 ∨ bytes ≠ 0#24 then .error .tokenZeroField
    else if isRunCount count then .ok (.tNullrun count)
    else .error .nullRunCount
  else .error .tokenKind

/-- A packed group (R53). -/
def decodeWire32 (w : BitVec 32) : Except DecodeReject Instr :=
  let a := w.extractLsb' 24 8
  let b := w.extractLsb' 16 8
  let c := w.extractLsb' 8 8
  let d := w.extractLsb' 0 8
  if isQuadChar a && isQuadChar b && isQuadChar c && isQuadChar d then .ok (.wQuad a b c d)
  else .error .quadCharacter

/-- A 2-byte group: padding marker, escape sequence or line break (R54 to R56); `~1` and the characters outside the
alphabet are refused (R61). -/
def decodeWire16 (w : BitVec 16) : Except DecodeReject Instr :=
  if w = 0x7E30#16 then .ok .wPad
  else if w = 0x0D0A#16 then .ok .wEol
  else if w.extractLsb' 8 8 = 0x7E#8 then
    if isCountChar (w.extractLsb' 0 8) then .ok (.wEsc (w.extractLsb' 0 8)) else .error .countCharacter
  else .error .groupMarker

/-- A header line: any bytes, then the line break that ends it (R57). -/
def decodeWireVar (bytes : List Byte) : Except DecodeReject Instr :=
  if bytes.drop (bytes.length - 2) = [0x0D#8, 0x0A#8] then .ok (.wHdr (bytes.take (bytes.length - 2)))
  else .error .headerLineBreak

/-- The decoder. A row that the table selects by the state (SYM9+state, SEQSTATE) has no meaning of its own bits: see
`decodeStep` and, for the sequencer, `Machine.selectRow`. -/
def decode (p : PortWord) : Except DecodeReject Instr :=
  match p with
  | .symbol w => .ok (decodeSymbol w)
  | .symbolStep _ => .error .selectedByState
  | .token w => decodeToken w
  | .wire32 w => decodeWire32 w
  | .wire16 w => decodeWire16 w
  | .wireVar bytes => decodeWireVar bytes
  | .opToChar w => .ok (.toChar w)
  | .opFromChar w => .ok (.fromChar w)
  | .opPack w => .ok (.pack (w.extractLsb' 16 8) (w.extractLsb' 8 8) (w.extractLsb' 0 8))
  | .opEscape w => .ok (.escape w)
  | .opPadmark => .ok .padmark
  | .opEmit w => .ok (.emit (w.extractLsb' 32 1 == 1#1) (w.extractLsb' 0 32))
  | .opGet3 => .ok .get3
  | .sequencer => .error .selectedByState
  | .ioErr which => .ok (.abort which)
  | .resetLine => .ok .reset

/-- The per-symbol step that a symbol and the registers `LIT_N` and `NULLS` select, in the order of the tests of
spec/41_byte_classifier.md R82 and R94 (format SYM9+state of the table). -/
def decodeStep (w : BitVec 9) (litN : BitVec 2) (nulls : BitVec 7) : Instr :=
  match decodeSymbol w with
  | .symEof =>
    if 2 ≤ nulls.toNat then .symEofRun
    else if nulls = 1#7 then .symEofOne
    else if litN ≠ 0#2 then .symEofTail
    else .symEofEnd
  | .symLit b =>
    if 2 ≤ nulls.toNat then .symLitEndrun b
    else if nulls = 1#7 then .symLitBacktrack b
    else .symLitAppend b
  | _ =>
    if litN ≠ 0#2 then .symNulAppend
    else if nulls = 78#7 then .symNulCut
    else .symNulCount

/-! ## The encoder -/

/-- The input symbol that `InRead()` delivers for a byte (R50): `eof = 0, b`. -/
def symbolOfByte (b : Byte) : BitVec 9 := 0#1 ++ b

/-- The input symbol that `InRead()` delivers at end of input (R50): `eof = 1`. The byte field has no meaning; the
encoder leaves it 0 (entry 21). -/
def symbolOfEof : BitVec 9 := 1#1 ++ 0x00#8

/-- The token bus (R52). -/
def tokenWord (kind len : BitVec 2) (count : BitVec 7) (x y z : Byte) : BitVec 35 :=
  kind ++ len ++ count ++ x ++ y ++ z

/-- The words of a well-formed instruction. The rows that the state selects have the bits of their symbol class
(`symbolStep`) or none (`sequencer`). -/
def encode (i : Instr) : PortWord :=
  match i with
  | .symEof => .symbol symbolOfEof
  | .symNul => .symbol (symbolOfByte 0x00#8)
  | .symLit b => .symbol (symbolOfByte b)
  | .symNulCount => .symbolStep (symbolOfByte 0x00#8)
  | .symNulCut => .symbolStep (symbolOfByte 0x00#8)
  | .symNulAppend => .symbolStep (symbolOfByte 0x00#8)
  | .symLitAppend b => .symbolStep (symbolOfByte b)
  | .symLitBacktrack b => .symbolStep (symbolOfByte b)
  | .symLitEndrun b => .symbolStep (symbolOfByte b)
  | .symEofRun => .symbolStep symbolOfEof
  | .symEofOne => .symbolStep symbolOfEof
  | .symEofTail => .symbolStep symbolOfEof
  | .symEofEnd => .symbolStep symbolOfEof
  | .tEnd => .token (tokenWord 0#2 0#2 0#7 0x00#8 0x00#8 0x00#8)
  | .tLiteral len x y z => .token (tokenWord 1#2 len 0#7 x y z)
  | .tNullrun count => .token (tokenWord 2#2 0#2 count 0x00#8 0x00#8 0x00#8)
  | .wQuad a b c d => .wire32 (a ++ b ++ c ++ d)
  | .wEsc k => .wire16 (0x7E#8 ++ k)
  | .wPad => .wire16 0x7E30#16
  | .wEol => .wire16 0x0D0A#16
  | .wHdr hdr => .wireVar (hdr ++ [0x0D#8, 0x0A#8])
  | .toChar n => .opToChar n
  | .fromChar c => .opFromChar c
  | .pack x y z => .opPack (x ++ y ++ z)
  | .escape n => .opEscape n
  | .padmark => .opPadmark
  | .emit long g => .opEmit (BitVec.ofBool long ++ g)
  | .get3 => .opGet3
  | .seqStart => .sequencer
  | .seqLiteral => .sequencer
  | .seqShortlit => .sequencer
  | .seqNullrun => .sequencer
  | .seqEnd => .sequencer
  | .seqFinalize => .sequencer
  | .abort which => .ioErr which
  | .reset => .resetLine

/-- The rows that the state selects (formats SYM9+state and SEQSTATE of the table): their words name no instruction. -/
def Instr.selectedByState (i : Instr) : Bool :=
  match encode i with
  | .symbolStep _ => true
  | .sequencer => true
  | _ => false

/-! ## Words numbered as the opcode table numbers them -/

/-- The wires a word of `nbits` bits of spec/opcode_table.json stands on. The table's rows of one width share wires or
differ in their bits, but for three: 8 bits are taken as FROMCHAR's operand and 7 as TOCHAR's (ESCAPE's has the same 7
bits), and in 40 bits the word 0 is the token T.END, other words below 2^33 EMIT's operand. No width selects the rows that
have no bits (entry 13). -/
def tableWord (nbits w : Nat) : Option PortWord :=
  if nbits = 16 then
    if w < 2 ^ 9 then some (.symbol (BitVec.ofNat 9 w))
    else if w < 2 ^ 16 then some (.wire16 (BitVec.ofNat 16 w)) else none
  else if nbits = 9 then if w < 2 ^ 9 then some (.symbol (BitVec.ofNat 9 w)) else none
  else if nbits = 7 then if w < 2 ^ 7 then some (.opToChar (BitVec.ofNat 7 w)) else none
  else if nbits = 8 then if w < 2 ^ 8 then some (.opFromChar (BitVec.ofNat 8 w)) else none
  else if nbits = 24 then if w < 2 ^ 24 then some (.opPack (BitVec.ofNat 24 w)) else none
  else if nbits = 32 then if w < 2 ^ 32 then some (.wire32 (BitVec.ofNat 32 w)) else none
  else if nbits = 33 then if w < 2 ^ 33 then some (.opEmit (BitVec.ofNat 33 w)) else none
  else if nbits = 35 then if w < 2 ^ 35 then some (.token (BitVec.ofNat 35 w)) else none
  else if nbits = 40 then
    if w = 0 then some (.token 0#35)
    else if w < 2 ^ 33 then some (.opEmit (BitVec.ofNat 33 w))
    else if w < 2 ^ 35 then some (.token (BitVec.ofNat 35 w)) else none
  else none

/-- The instruction the decoder reads from a word numbered as spec/opcode_table.json numbers it. -/
def decodeTableWord (nbits w : Nat) : Option Instr :=
  match tableWord nbits w with
  | some p => (decode p).toOption
  | none => none

end Sys2Proof
end

