-- ==== Sys2Proof/Machine/Fetch.lean ====
section
/-! DEFINITION. What runs next. The block fetches no instructions (spec/10_state.md R19): the reset line, a request on the port
of a leaf function, a word on the wires of a unit, `SEQ` with the taken token, and in `Streaming` the token on the bus or the
next input symbol choose it. And the placing of a word where the next step takes it (entry 7). -/

namespace Sys2Proof.Machine

/-- What the step finds to do. -/
inductive Fetched where
  /-- A word to decode, and the state in which it is run. -/
  | word (p : PortWord) (s : State)
  /-- An action the state selects, no bits to decode. -/
  | selected (i : Instr) (s : State)
  /-- An operand outside its leaf function's contract: the function is refused, and the machine goes on in this state. -/
  | declined (s : State)
  /-- Nothing: the session is over (R144, R159). -/
  | nothing
  /-- An access that is never answered. -/
  | stuck (f : Fault)
  deriving DecidableEq, Repr

/-- The sequencer action that a taken token selects in `Streaming` (spec/45_session_sequencer.md R137 to R141). -/
def tokenRow (t : Token) : Instr :=
  match t with
  | .literal n => if n = 3#2 then .seqLiteral else .seqShortlit
  | .nullRun _ => .seqNullrun
  | .endOfInput => .seqEnd

/-- The row that `SEQ` and the taken token select (format SEQSTATE of the table); none in `Streaming` until a token has been
taken, and none in `Done` and `Abort`. -/
def selectRow (q : Seq) (c : Call) : Option Instr :=
  match q, c with
  | .start, _ => some .seqStart
  | .streaming, .accepted t => some (tokenRow t)
  | .streaming, _ => none
  | .finalizing, _ => some .seqFinalize
  | .done, _ => none
  | .abort, _ => none

/-- The word on the token bus for a returned token, its bytes those of `LIT` (spec/30_encoding.md R52). -/
def busWord (l : Lit) (t : Token) : BitVec 35 :=
  match t with
  | .literal n => tokenWord 1#2 n 0#7 l.b0 l.b1 l.b2
  | .nullRun count => tokenWord 2#2 0#2 count 0x00#8 0x00#8 0x00#8
  | .endOfInput => tokenWord 0#2 0#2 0#7 0x00#8 0x00#8 0x00#8

/-- The word that stands on the port of a leaf function (spec/30_encoding.md R66). -/
def PortRequest.word (r : PortRequest) : PortWord :=
  match r with
  | .toChar w => .opToChar w
  | .fromChar w => .opFromChar w
  | .pack w => .opPack w
  | .escape w => .opEscape w
  | .padmark => .opPadmark

/-- The operand is inside its function's contract: TOCHAR of 0..78 (R73, U6), ESCAPE of 2..78 (R121, U5); the other leaf
functions take any operand. -/
def PortRequest.inContract (r : PortRequest) : Bool :=
  match r with
  | .toChar w => (Machine.toChar w).isSome
  | .fromChar _ => true
  | .pack _ => true
  | .escape w => (escapeWord w).isSome
  | .padmark => true

/-- The word that stands on the operand wires of a unit (spec/30_encoding.md R66). -/
def UnitWord.word (u : UnitWord) : PortWord :=
  match u with
  | .emit w => .opEmit w
  | .get3 => .opGet3
  | .wire32 w => .wire32 w
  | .wire16 w => .wire16 w
  | .wireVar bytes => .wireVar bytes

/-- One `InRead()` (spec/41_byte_classifier.md R82): the symbol's 9 bits (spec/30_encoding.md R50), or the event of a failed
read (R156). -/
def fetchSymbol (s : State) : Fetched :=
  match inRead s with
  | .byte b s' => .word (.symbol (symbolOfByte b)) s'
  | .eof s' => .word (.symbol symbolOfEof) s'
  | .ioErr s' => .word (.ioErr .inp) s'
  | .unanswered => .stuck .readUnanswered

/-- The classifier before its next read: the first read of a call follows the start of the call (R81). -/
def State.enterCall (s : State) : State := if s.call = .idle then s.openCall else s

/-- What `Streaming` finds when no token is taken: the returned token on the bus, or else the next input symbol. -/
def fetchStreaming (s : State) : Fetched :=
  match s.call with
  | .returned t => .word (.token (busWord s.lit t)) s
  | _ => fetchSymbol s.enterCall

/-- What the session does next: the row that `SEQ` and the taken token select, or in `Streaming` the next token or symbol. -/
def fetchSession (s : State) : Fetched :=
  match selectRow s.seq s.call with
  | some i => .selected i s
  | none => if s.seq = .streaming then fetchStreaming s else .nothing

/-- What the block itself does next: the work of a unit whose wires are driven, or the session's own action. -/
def fetchBlock (s : State) : Fetched :=
  match s.unitWires with
  | some u => .word u.word { s with unitWires := none }
  | none => fetchSession s

/-- A leaf function presented on its port: its word, or, where the spec refuses the operation (U5, U6), only that its result
wires show no result. The refusal is the operation's alone: the host cannot pause a session (spec/00_scope.md R8,
spec/60_exceptions.md R162), so the operand is gone and the session goes on with the next step (entry 10). -/
def fetchPort (r : PortRequest) (s : State) : Fetched :=
  if r.inContract then .word r.word { s with request := none }
  else .declined { s with request := none, result := .refused }

/-- What runs next: reset before everything (R163, R175), then a leaf function presented on its port, then the block. -/
def fetch (s : State) : Fetched :=
  if s.resetLine then .word .resetLine s
  else match s.request with
    | some r => fetchPort r s
    | none => fetchBlock s

/-! ## Placing a word -/

/-- The input with a symbol put where the next `InRead()` takes it: a byte before the unread rest, or the end of input
there. -/
def placeSymbol (input : List Byte) (ipos : Nat) (w : BitVec 9) : List Byte :=
  if w.extractLsb' 8 1 = 1#1 then input.take ipos
  else input.take ipos ++ w.extractLsb' 0 8 :: input.drop ipos

/-- An oracle index that does not strike the access `n`. -/
def spare (oracle : Option Nat) (n : Nat) : Option Nat := if oracle = some n then none else oracle

/-- A session that reads its next symbol in the next step. -/
def State.inStreaming (s : State) : State :=
  { s with
    seq := .streaming
    resetLine := false
    request := none
    unitWires := none
    call := match s.call with
      | .running => .running
      | _ => .idle }

/-- The input symbol `w` placed so that the next step reads it. -/
def State.withSymbol (s : State) (w : BitVec 9) : State :=
  let s' := s.inStreaming
  { s' with
    ipos := (s.args.input.take s.ipos).length
    args := { s.args with
      input := placeSymbol s.args.input s.ipos w
      readFail := spare s.args.readFail s.reads
      readMute := spare s.args.readMute s.reads } }

/-- The token `t` placed on the bus, as if the classifier had returned it with the bytes `l`. -/
def State.onBus (s : State) (l : Lit) (t : Token) : State :=
  { s with seq := .streaming, resetLine := false, request := none, unitWires := none, lit := l, call := .returned t }

/-- The token word `w` placed so that the next step takes it; a word that is no token changes nothing. -/
def State.withToken (s : State) (w : BitVec 35) : State :=
  match decodeToken w with
  | .ok (.tLiteral len x y z) => s.onBus { b0 := x, b1 := y, b2 := z } (.literal len)
  | .ok (.tNullrun count) => s.onBus s.lit (.nullRun count)
  | .ok .tEnd => s.onBus s.lit .endOfInput
  | _ => s

/-- A request placed on its port so that the next step runs it. -/
def State.withRequest (s : State) (r : PortRequest) : State := { s with resetLine := false, request := some r }

/-- A word placed on the operand wires of a unit, as if the sequencer drove them, so that the next step runs it (entry 24). -/
def State.withUnitWord (s : State) (u : UnitWord) : State :=
  { s with resetLine := false, request := none, unitWires := some u }

/-- The word `p` placed so that the next step runs it. The last three kinds are no words of the table: the state selects the
row, and a failed access is reported by the environment alone. -/
def State.withPortWord (s : State) (p : PortWord) : State :=
  match p with
  | .symbol w => s.withSymbol w
  | .token w => s.withToken w
  | .wire32 w => s.withUnitWord (.wire32 w)
  | .wire16 w => s.withUnitWord (.wire16 w)
  | .wireVar bytes => s.withUnitWord (.wireVar bytes)
  | .opToChar w => s.withRequest (.toChar w)
  | .opFromChar w => s.withRequest (.fromChar w)
  | .opPack w => s.withRequest (.pack w)
  | .opEscape w => s.withRequest (.escape w)
  | .opPadmark => s.withRequest .padmark
  | .opEmit w => s.withUnitWord (.emit w)
  | .opGet3 => s.withUnitWord .get3
  | .resetLine => { s with resetLine := true }
  | .symbolStep _ => s
  | .sequencer => s
  | .ioErr _ => s

end Sys2Proof.Machine
end

