-- ==== Sys2Proof/Machine/Step.lean ====
section
/-! DEFINITION. One step of the machine, and the placing of an opcode-table word for it. -/

namespace Sys2Proof.Machine

/-- One step: what is found to do is decoded and run. After `Done` and `Abort` the block does nothing until reset
(spec/45_session_sequencer.md R144, spec/60_exceptions.md R159; entry 15). -/
def step (s : State) : Host.Outcome State Fault Refusal :=
  match fetch s with
  | .word p s' =>
    match decode p with
    | .ok i => exec i s'
    | .error why => .refused (.undecodable why)
  | .selected i s' => exec i s'
  | .declined s' => .next s'
  | .nothing => .next s
  | .stuck f => .fault f

/-- The word `w` of `nbits` bits, numbered as spec/opcode_table.json numbers it, placed where the next step takes it
(entry 7). A word that stands on no wires changes nothing. -/
def State.withFetchWord (s : State) (nbits w : Nat) : State :=
  match tableWord nbits w with
  | some p => s.withPortWord p
  | none => s

end Sys2Proof.Machine
end

