-- ==== Sys2Proof/Safety.lean ====
section
/-! DEFINITION. The terms the statements use: a session and its run, an environment that answers, the states a session can
be in (spec/10_state.md R21), and the spec's own closed forms of the token sequence (spec/41_byte_classifier.md R96, R97), of
the output (spec/45_session_sequencer.md R146) and of its reading back (spec/30_encoding.md R67). -/

namespace Sys2Proof

open Machine

/-! ## Sessions and runs -/

/-- The state after reset with the session's arguments bound, in an environment that answers and never fails. -/
def session (hdr input : List Byte) : State :=
  { State.reset with args := { SessionArgs.empty with hdr := hdr, input := input } }

/-- `n` steps, stopping at the first fault or refusal. -/
def runSteps (n : Nat) (s : State) : Host.Outcome State Fault Refusal :=
  match n with
  | 0 => .next s
  | n + 1 =>
    match step s with
    | .next s' => runSteps n s'
    | .fault f => .fault f
    | .refused r => .refused r

/-- The environment accepts the next `n` writes (spec/20_memory.md R33). -/
def WritesAccepted (s : State) (n : Nat) : Prop :=
  ∀ k, s.writes ≤ k → k < s.writes + n → s.args.writeFail ≠ some k ∧ s.args.writeMute ≠ some k

/-- The environment answers the next `n` reads without failure (spec/20_memory.md R31). -/
def ReadsAnswered (s : State) (n : Nat) : Prop :=
  ∀ k, s.reads ≤ k → k < s.reads + n → s.args.readFail ≠ some k ∧ s.args.readMute ≠ some k

/-- Neither reset, nor a leaf function presented, nor a word on a unit's wires: the next step is the session's own. -/
def Machine.State.undisturbed (s : State) : Prop := s.resetLine = false ∧ s.request = none ∧ s.unitWires = none

/-- The state after EMIT of a group whose writes are all accepted (spec/44_line_writer.md R125 to R127): a line break and
column 0 first, if the group would pass column 72; then the group, and the column advanced by its length. -/
def afterEmit (s : State) (g : List Byte) : State :=
  let s1 := if 72 < s.col.toNat + g.length then (s.putBytes [0x0D#8, 0x0A#8]).setCol 0#7 else s
  (s1.putBytes g).setCol (s1.col + BitVec.ofNat 7 g.length)

/-- The bytes EMIT writes for a group, in order: a line break first, if the group would pass column 72 (R126, R127). -/
def emitBytes (s : State) (g : List Byte) : List Byte :=
  (if 72 < s.col.toNat + g.length then [0x0D#8, 0x0A#8] else []) ++ g

/-- The number of writes EMIT makes for a group (R126, R127). -/
def emitWrites (s : State) (g : List Byte) : Nat :=
  (if 72 < s.col.toNat + g.length then 2 else 0) + g.length

/-- The state after `n` padding markers whose writes are all accepted (spec/45_session_sequencer.md R142). -/
def afterMarkers (n : Nat) (s : State) : State :=
  match n with
  | 0 => s
  | n + 1 => afterMarkers n (afterEmit s [0x7E#8, 0x30#8])

/-- The bytes that `n` padding markers write (spec/45_session_sequencer.md R142). -/
def markerBytes (n : Nat) (s : State) : List Byte :=
  match n with
  | 0 => []
  | n + 1 => emitBytes s [0x7E#8, 0x30#8] ++ markerBytes n (afterEmit s [0x7E#8, 0x30#8])

/-- The bytes that an instruction passes to `OutWrite`, in order, in a state in which its row has a meaning: the header line
(R136), the groups of the tokens (R138 to R140), the markers and the trailer (R142, R143), and what EMIT and the output groups
are given on the line writer's wires (R125, R56, R57; entries 12 and 24). None where it writes nothing or has no meaning. -/
def writtenBytes (i : Instr) (s : State) : Option (List Byte) :=
  match i with
  | .seqStart => if s.seq = .start then some (s.args.hdr ++ [0x0D#8, 0x0A#8]) else none
  | .seqLiteral =>
    if s.seq = .streaming ∧ s.call = .accepted (.literal 3#2) then
      some (emitBytes s (packChars s.lit.b0 s.lit.b1 s.lit.b2))
    else none
  | .seqShortlit =>
    if s.seq = .streaming ∧ s.call = .accepted (.literal 1#2) then
      some (emitBytes s (packChars s.lit.b0 0x00#8 0x00#8))
    else if s.seq = .streaming ∧ s.call = .accepted (.literal 2#2) then
      some (emitBytes s (packChars s.lit.b0 s.lit.b1 0x00#8))
    else none
  | .seqNullrun =>
    match s.seq, s.call with
    | .streaming, .accepted (.nullRun n) =>
      if isRunCount n then some (emitBytes s [0x7E#8, BitVec.ofNat 8 (n.toNat + 48)]) else none
    | _, _ => none
  | .seqFinalize => if s.seq = .finalizing then some (markerBytes s.fill.toNat s ++ [0x0D#8, 0x0A#8]) else none
  | .emit long g => if s.over then none else some (emitBytes s (busGroup long g))
  | .wQuad a b c d => if s.over || !i.wellFormed then none else some (emitBytes s [a, b, c, d])
  | .wEsc k => if s.over || !i.wellFormed then none else some (emitBytes s [0x7E#8, k])
  | .wPad => if s.over then none else some (emitBytes s [0x7E#8, 0x30#8])
  | .wEol => if s.over then none else some [0x0D#8, 0x0A#8]
  | .wHdr hdr => if s.over then none else some (hdr ++ [0x0D#8, 0x0A#8])
  | _ => none

/-- An access of the session has just been answered `IoErr`, and `t` records which stream failed: the last read or the last
write is the one the failure oracle names (spec/60_exceptions.md R156, R157; entry 9). -/
def AccessFailed (t : State) : Prop :=
  (t.err = .inp ∧ ∃ k, t.args.readFail = some k ∧ t.reads = k + 1) ∨
  (t.err = .out ∧ ∃ k, t.args.writeFail = some k ∧ t.writes = k + 1)

/-- A session about to begin: the registers as reset leaves them (spec/10_state.md R25), whatever `LIT`, `REM` and the fields
outside the session hold, in an environment that answers and never fails. -/
def SessionStart (s : State) (hdr input : List Byte) : Prop :=
  s.undisturbed ∧ s.litN = 0#2 ∧ s.nulls = 0#7 ∧ s.remValid = false ∧ s.col = 0#7 ∧ s.fill = 0#2 ∧ s.seq = .start ∧
  s.err = .none ∧ s.args = { SessionArgs.empty with hdr := hdr, input := input } ∧ s.ipos = 0 ∧ s.out = [] ∧
  s.reads = 0 ∧ s.writes = 0 ∧ s.call = .idle

/-- The condition of a per-symbol step on `LIT_N` and `NULLS` (spec/opcode_table.json; an append needs room, R86). -/
def stepCondition (i : Instr) (litN : BitVec 2) (nulls : BitVec 7) : Prop :=
  match i with
  | .symNulCount => litN = 0#2
  | .symNulCut => litN = 0#2 ∧ nulls = 78#7
  | .symNulAppend => litN = 1#2 ∨ litN = 2#2
  | .symLitAppend _ => nulls = 0#7 ∧ litN ≠ 3#2
  | .symLitBacktrack _ => nulls = 1#7
  | .symLitEndrun _ => 2 ≤ nulls.toNat
  | .symEofRun => 2 ≤ nulls.toNat
  | .symEofOne => nulls = 1#7
  | .symEofTail => nulls = 0#7 ∧ (litN = 1#2 ∨ litN = 2#2)
  | .symEofEnd => nulls = 0#7 ∧ litN = 0#2
  | _ => False

/-- The ten per-symbol steps (format SYM9+state). -/
def Instr.isPerSymbol (i : Instr) : Bool :=
  match encode i with
  | .symbolStep _ => true
  | _ => false

/-! ## The states of a session -/

/-- The legal register values that hold whatever is presented or stands on a unit's wires (spec/10_state.md R11, R12, R14, R15, R21 (c);
spec/44_line_writer.md R130), in a session that has not aborted. -/
def RegistersInRange (s : State) : Prop :=
  s.seq ≠ .abort →
    s.nulls.toNat ≤ 79 ∧ s.col.toNat ≤ 72 ∧ s.col.toNat % 2 = 0 ∧ s.fill.toNat ≤ 2 ∧
    (s.call = .running → s.litN.toNat ≤ 2 ∧ s.nulls.toNat ≤ 78)

/-- What a token, from its return until it is handled, says of the registers: a Literal carries `LIT_N`, a short one comes only at end of input; a
NullRun's count is 2..78; `End` comes with nothing pending (R52, R92, R93, R98). -/
def tokenLegal (s : State) (t : Token) : Prop :=
  match t with
  | .literal n =>
    n = s.litN ∧ n ≠ 0#2 ∧ s.nulls = 0#7 ∧ s.remValid = false ∧ (n ≠ 3#2 → s.ipos = s.args.input.length)
  | .nullRun c => 2 ≤ c.toNat ∧ c.toNat ≤ 78 ∧ s.litN = 0#2
  | .endOfInput => s.litN = 0#2 ∧ s.nulls = 0#7 ∧ s.remValid = false ∧ s.ipos = s.args.input.length

/-- The states of a session, whatever is presented or stands on a unit's wires: R21 (a) to (e), R144, and the pairing of `ERR`
with `Abort` (R17). -/
def SessionInv (s : State) : Prop :=
  (s.seq = .abort ↔ s.err ≠ .none) ∧
  RegistersInRange s ∧
  (s.seq ≠ .abort →
    s.ipos ≤ s.args.input.length ∧
    (s.nulls ≠ 0#7 → s.litN = 0#2) ∧
    (s.call = .running → s.seq = .streaming ∧ s.remValid = false) ∧
    (∀ t, s.call = .returned t ∨ s.call = .accepted t → s.seq = .streaming ∧ tokenLegal s t) ∧
    (s.fill ≠ 0#2 →
      s.ipos = s.args.input.length ∧ s.remValid = false ∧
      (s.call = .idle ∨ (s.call = .running ∧ s.litN = 0#2 ∧ s.nulls = 0#7) ∨ s.call = .returned .endOfInput ∨
        s.call = .accepted .endOfInput)) ∧
    (s.seq = .start → s.remValid = false ∧ s.fill = 0#2) ∧
    (s.seq = .finalizing ∨ s.seq = .done →
      s.call = .idle ∧ s.litN = 0#2 ∧ s.nulls = 0#7 ∧ s.remValid = false ∧ s.ipos = s.args.input.length))

/-! ## The token sequence as a function of the input -/

/-- A token with its bytes (R52). -/
inductive RefToken where
  | literal (bytes : List Byte)
  | nullRun (count : Nat)
  | endOfInput
  deriving DecidableEq, Repr

/-- `Scan(s, lit, nulls)` of R96, with `Push` written in its place: one token, and the input with the held byte put back. -/
def scan (input lit : List Byte) (nulls : Nat) : RefToken × List Byte :=
  match input with
  | [] =>
    if 2 ≤ nulls then (.nullRun nulls, [])
    else if nulls = 1 then (.literal [0x00#8], [])
    else if lit ≠ [] then (.literal lit, [])
    else (.endOfInput, [])
  | b :: r =>
    if b = 0x00#8 ∧ lit = [] then
      if 78 < nulls + 1 then (.nullRun 78, b :: r) else scan r [] (nulls + 1)
    else if b ≠ 0x00#8 ∧ 2 ≤ nulls then (.nullRun nulls, b :: r)
    else
      let lit' := if b ≠ 0x00#8 ∧ nulls = 1 then [0x00#8, b] else lit ++ [b]
      if lit'.length = 3 then (.literal lit', r) else scan r lit' 0

/-- `Tokens(s)` of R96, for at most `n` tokens. -/
def tokensUpTo (n : Nat) (input : List Byte) : List RefToken :=
  match n with
  | 0 => []
  | n + 1 =>
    match scan input [] 0 with
    | (.endOfInput, _) => [.endOfInput]
    | (t, rest) => t :: tokensUpTo n rest

/-- `Tokens(s)` of R96: every token but `End` covers at least one byte. -/
def tokens (input : List Byte) : List RefToken := tokensUpTo (input.length + 1) input

/-- The classifier as a machine with one step per symbol and no calls (R97): the tokens it emits from a state between
symbols. -/
def flatTokens (input lit : List Byte) (nulls : Nat) : List RefToken :=
  match input with
  | [] =>
    if 2 ≤ nulls then [.nullRun nulls, .endOfInput]
    else if nulls = 1 then [.literal [0x00#8], .endOfInput]
    else if lit ≠ [] then [.literal lit, .endOfInput]
    else [.endOfInput]
  | b :: r =>
    if b = 0x00#8 ∧ lit = [] then
      if 78 < nulls + 1 then .nullRun 78 :: flatTokens r [] 1 else flatTokens r [] (nulls + 1)
    else if b ≠ 0x00#8 ∧ 2 ≤ nulls then .nullRun nulls :: flatTokens r [b] 0
    else
      let lit' := if b ≠ 0x00#8 ∧ nulls = 1 then [0x00#8, b] else lit ++ [b]
      if lit'.length = 3 then .literal lit' :: flatTokens r [] 0 else flatTokens r lit' 0

/-- The input bytes a token covers (R98 (d)). -/
def RefToken.expand (t : RefToken) : List Byte :=
  match t with
  | .literal bytes => bytes
  | .nullRun n => List.replicate n 0x00#8
  | .endOfInput => []

/-- The token of the model as the token of R96, with the bytes of the literal buffer. -/
def refToken (s : State) (t : Token) : RefToken :=
  match t with
  | .literal n => .literal (s.lit.bytes n)
  | .nullRun c => .nullRun c.toNat
  | .endOfInput => .endOfInput

/-- The unread input of a session with the held byte, if there is one, put back in front (R95). -/
def remaining (s : State) : List Byte :=
  (if s.remValid then [s.remByte] else []) ++ s.args.input.drop s.ipos

/-! ## The output as a function of the input -/

/-- The group of a data token (R146). -/
def groupOf (t : RefToken) : List (List Byte) :=
  match t with
  | .literal (x :: y :: z :: _) => [packChars x y z]
  | .literal [x, y] => [packChars x y 0x00#8]
  | .literal [x] => [packChars x 0x00#8 0x00#8]
  | .literal [] => []
  | .nullRun n => [[0x7E#8, BitVec.ofNat 8 (n + 48)]]
  | .endOfInput => []

/-- `FILL` after a sequence of tokens: what the last data token gives it (R145). -/
def fillAfter (ts : List RefToken) : Nat :=
  ts.foldl (fun f t =>
    match t with
    | .literal bytes => 3 - bytes.length
    | .nullRun _ => 0
    | .endOfInput => f) 0

/-- The length of the literal tail: the bytes of the Literal tokens after the last NullRun (R147). -/
def literalTail (ts : List RefToken) : Nat :=
  ts.foldl (fun n t =>
    match t with
    | .literal bytes => n + bytes.length
    | .nullRun _ => 0
    | .endOfInput => n) 0

/-- The groups of a session: those of its tokens, then `FILL` padding markers (R146). -/
def sessionGroups (input : List Byte) : List (List Byte) :=
  (tokens input).flatMap groupOf ++ List.replicate (fillAfter (tokens input)) [0x7E#8, 0x30#8]

/-- `W(groups, col)` of R146: the groups laid out in lines. -/
def wrapGroups (groups : List (List Byte)) (col : Nat) : List Byte :=
  match groups with
  | [] => []
  | g :: rest =>
    if 72 < col + g.length then [0x0D#8, 0x0A#8] ++ g ++ wrapGroups rest g.length
    else g ++ wrapGroups rest (col + g.length)

/-- The whole output of a session (R58, R146). -/
def sessionOutput (hdr input : List Byte) : List Byte :=
  hdr ++ [0x0D#8, 0x0A#8] ++ wrapGroups (sessionGroups input) 0 ++ [0x0D#8, 0x0A#8]

/-- No line is longer than 72 characters, the line break's own bytes not counted, from column `col` on (R128). -/
def linesFit (bytes : List Byte) (col : Nat) : Bool :=
  match bytes with
  | [] => true
  | c :: rest =>
    if c = 0x0A#8 then linesFit rest 0
    else if c = 0x0D#8 then linesFit rest col
    else decide (col + 1 ≤ 72) && linesFit rest (col + 1)

/-! ## Reading the output back -/

/-- UNPACK (spec/42_packer.md R114). -/
def unpackChars (a b c d : Byte) : List Byte :=
  let a := a - 48#8
  let b := b - 48#8
  let c := c - 48#8
  let d := d - 48#8
  [(a <<< 2) ||| (b >>> 4), ((b &&& 0x0F#8) <<< 4) ||| (c >>> 2), ((c &&& 0x03#8) <<< 6) ||| d]

/-- The decoding grammar of R67 on a body without line breaks: the data bytes, and how many to trim. A padding marker `~0`
is read only at the end, where no data follows it, and refused elsewhere (R62, U1 of spec/93_implementation_defined.md;
spec/70_reset_and_hazards.md R182). What else no encoder writes is refused too, by the ranges of R53 and R54 and by R61 (a) to
(d) and (g), and so is a body that ends inside a group: how a reader treats these is left open (91_not_in_source.md N14), and
refusing them is the model's choice (DESIGN CHOICE, entry 23). -/
def readGroups (body : List Byte) : Option (List Byte × Nat) :=
  match body with
  | [] => some ([], 0)
  | [_] => none
  | a :: b :: rest =>
    if a = 0x7E#8 then
      match readGroups rest with
      | some (data, trim) =>
        if b = 0x30#8 then if data = [] ∧ trim < 2 then some ([], trim + 1) else none
        else if isCountChar b then some (List.replicate (b.toNat - 48) 0x00#8 ++ data, trim)
        else none
      | none => none
    else
      match rest with
      | c :: d :: rest' =>
        match readGroups rest' with
        | some (data, trim) =>
          if isQuadChar a && isQuadChar b && isQuadChar c && isQuadChar d then
            some (unpackChars a b c d ++ data, trim)
          else none
        | none => none
      | _ => none

/-- A body with its line breaks dropped (R67). -/
def dropBreaks (body : List Byte) : List Byte := body.filter fun c => c != 0x0D#8 && c != 0x0A#8

/-- The bytes that a body stands for (R67): line breaks dropped, groups read, the trailing pad bytes trimmed. What removing
bytes from data that has fewer of them gives, as in a body of padding markers alone, R67, R62 and R182 do not say
(91_not_in_source.md N14); such a body is refused, which is the model's choice (DESIGN CHOICE, entry 23). -/
def readBody (body : List Byte) : Option (List Byte) :=
  match readGroups (dropBreaks body) with
  | some (data, trim) => if trim ≤ data.length then some (data.take (data.length - trim)) else none
  | none => none

/-- The number of padding markers at the end of a body (R55, R67). -/
def markerCount (body : List Byte) : Option Nat := (readGroups (dropBreaks body)).map Prod.snd

/-- The body and trailer of a session's output: what follows the header line (R58), which is delimited by the length of `HDR`,
since `HDR` may contain line breaks (spec/70_reset_and_hazards.md R188). -/
def bodyOf (hdr out : List Byte) : List Byte := out.drop (hdr.length + 2)

end Sys2Proof
end

