-- ==== Sys2Proof/Certificates/Slice0/Obligations.lean ====
section
/-! DEFINITION. The statements for the provers. Where a statement rests on a choice of the model, its docstring names the
entry of notes/assumptions. -/

open Sys2Proof Sys2Proof.Machine

/-! ## Encoding -/

/-- Words written out from spec/30_encoding.md R50 to R57 and R66, one or more of each format with bits of its own. That the
pair `~1` is refused is the model's choice (entry 12): R61 says only that a reader may treat it as malformed. -/
def Obligations.SpecWordsDecodeToTheirInstructions : Prop :=
  decode (.symbol 0b100000000#9) = .ok .symEof ∧
  decode (.symbol 0b000000000#9) = .ok .symNul ∧
  decode (.symbol 0b001000001#9) = .ok (.symLit 0x41#8) ∧
  decode (.token 0b01110000000010000010000000001000010#35) = .ok (.tLiteral 3#2 0x41#8 0x00#8 0x42#8) ∧
  decode (.token 0b10001001110000000000000000000000000#35) = .ok (.tNullrun 78#7) ∧
  decode (.token 0b11000000000000000000000000000000000#35) = .error .tokenKind ∧
  decode (.wire32 0x40403132#32) = .ok (.wQuad 0x40#8 0x40#8 0x31#8 0x32#8) ∧
  decode (.wire16 0x7E33#16) = .ok (.wEsc 0x33#8) ∧
  decode (.wire16 0x7E30#16) = .ok .wPad ∧
  decode (.wire16 0x7E31#16) = .error .countCharacter ∧
  decode (.wire16 0x0D0A#16) = .ok .wEol ∧
  decode (.wireVar [0x61#8, 0x2E#8, 0x0D#8, 0x0A#8]) = .ok (.wHdr [0x61#8, 0x2E#8]) ∧
  decode .opPadmark = .ok .padmark ∧
  decode .opGet3 = .ok .get3 ∧
  decode (.opToChar 0b0010000#7) = .ok (.toChar 16#7) ∧
  decode (.opEscape 0b1001110#7) = .ok (.escape 78#7) ∧
  decode (.opFromChar 0x7E#8) = .ok (.fromChar 0x7E#8) ∧
  decode (.opPack 0x410042#24) = .ok (.pack 0x41#8 0x00#8 0x42#8) ∧
  decode (.opEmit 0b101000000010000000011000100110010#33) = .ok (.emit true 0x40403132#32) ∧
  decode (.opEmit 0b001111110001100110000000000000000#33) = .ok (.emit false 0x7E330000#32)

/-- Every well-formed instruction whose row has bits of its own is what its encoding decodes to, with every operand. -/
def Obligations.DecodeInvertsEncode : Prop :=
  ∀ i : Instr, i.wellFormed = true → i.selectedByState = false → decode (encode i) = .ok i

/-- The decoder yields well-formed instructions of rows that have bits, and drops no bit: a decoded word is the encoding of its
instruction, but for the byte field of the end-of-input symbol, which has no meaning (R50). -/
def Obligations.EncodeInvertsDecode : Prop :=
  ∀ (p : PortWord) (i : Instr), decode p = .ok i →
    i.wellFormed = true ∧ i.selectedByState = false ∧ (i ≠ .symEof → encode i = p)

/-- The three symbol classes in their priority order, with the sets of words of R51. -/
def Obligations.EverySymbolHasExactlyOneClass : Prop :=
  ∀ w : BitVec 9,
    (256 ≤ w.toNat → decode (.symbol w) = .ok .symEof) ∧
    (w.toNat = 0 → decode (.symbol w) = .ok .symNul) ∧
    (1 ≤ w.toNat → w.toNat < 256 → ∃ b : Byte, b.toNat = w.toNat ∧ decode (.symbol w) = .ok (.symLit b))

/-- A symbol together with `LIT_N` and `NULLS` under a step's condition selects that step (SYM.NUL.COUNT where the count does
not make 79, R83, R84). -/
def Obligations.StateSelectsThePerSymbolStep : Prop :=
  ∀ (i : Instr) (litN : BitVec 2) (nulls : BitVec 7), i.wellFormed = true → stepCondition i litN nulls →
    (i = .symNulCount → nulls ≠ 78#7) → ∃ w, encode i = .symbolStep w ∧ decodeStep w litN nulls = i

/-- The model's placing of an opcode-table word (entry 7): the next step takes it, and it decodes as the table word does;
TOCHAR's operand above 78, which the spec refuses (U6), is taken and declined (entry 10). -/
def Obligations.PlacedTableWordIsFetchedNext : Prop :=
  ∀ (s : State) (nbits w : Nat) (i : Instr), decodeTableWord nbits w = some i →
    ((∀ n, i = .toChar n → n.toNat ≤ 78) →
      ∃ p s', fetch (s.withFetchWord nbits w) = .word p s' ∧ decode p = .ok i) ∧
    (∀ n, i = .toChar n → 78 < n.toNat →
      fetch (s.withFetchWord nbits w) = .declined { s with resetLine := false, request := none, result := .refused })

/-! ## The step -/

/-- The step runs the instruction that the word it finds decodes to, refuses a word the decoder refuses, and runs an action the
state selects. Where it finds a leaf function's operand outside its contract it goes on in the state found (entry 10). -/
def Obligations.StepRunsTheDecodedInstruction : Prop :=
  (∀ (s s' : State) (p : PortWord) (i : Instr), fetch s = .word p s' → decode p = .ok i → step s = exec i s') ∧
  (∀ (s s' : State) (p : PortWord) (why : DecodeReject), fetch s = .word p s' → decode p = .error why →
    step s = .refused (.undecodable why)) ∧
  (∀ (s s' : State) (i : Instr), fetch s = .selected i s' → step s = exec i s') ∧
  (∀ s s' : State, fetch s = .declined s' → step s = .next s')

/-- In `Streaming`, with no token returned or taken, the step reads the next input symbol and runs its class: the byte at `IPOS` with
`IPOS` advanced, or end of input with `IPOS` unchanged (R31, R82). The start of a call comes before its first read (entry 6). -/
def Obligations.StepReadsTheNextSymbol : Prop :=
  ∀ s : State, s.undisturbed → s.seq = .streaming → (s.call = .idle ∨ s.call = .running) → ReadsAnswered s 1 →
    (∀ b, s.args.input[s.ipos]? = some b →
      step s = exec (if b = 0x00#8 then .symNul else .symLit b) s.enterCall.takeByte) ∧
    (s.args.input[s.ipos]? = none → step s = exec .symEof s.enterCall.countRead)

/-- R81 on the machine: the first symbol of a call, whatever `LIT_N` and `NULLS` held. With no remainder the symbol starts the
call's count or buffer, and end of input returns `End` (R93); a remainder 0x00 counts as one pending null, and end of input
returns it as a literal byte (R91); another remainder is the first literal byte, and end of input returns it as the literal
tail (R92). That start and first read are one step is the model's choice (entry 6), and so is that the `LIT` positions beyond
`LIT_N`, and `REM` when `REM_VALID` is cleared, keep their values (U17, entry 22). -/
def Obligations.FirstSymbolOfACallFollowsTheRemainder : Prop :=
  ∀ s : State, s.undisturbed → s.seq = .streaming → s.call = .idle → ReadsAnswered s 1 →
    (∀ b, s.args.input[s.ipos]? = some b →
      let s1 : State := { s with ipos := s.ipos + 1, reads := s.reads + 1, call := .running, remValid := false }
      (s.remValid = false → b = 0x00#8 → step s = .next { s1 with litN := 0#2, nulls := 1#7 }) ∧
      (s.remValid = false → b ≠ 0x00#8 →
        step s = .next { s1 with lit := { s.lit with b0 := b }, litN := 1#2, nulls := 0#7 }) ∧
      (s.remValid = true → s.remByte = 0x00#8 → b = 0x00#8 → step s = .next { s1 with litN := 0#2, nulls := 2#7 }) ∧
      (s.remValid = true → s.remByte = 0x00#8 → b ≠ 0x00#8 →
        step s = .next { s1 with lit := { s.lit with b0 := 0x00#8, b1 := b }, litN := 2#2, nulls := 0#7 }) ∧
      (s.remValid = true → s.remByte ≠ 0x00#8 →
        step s = .next { s1 with lit := { s.lit with b0 := s.remByte, b1 := b }, litN := 2#2, nulls := 0#7 })) ∧
    (s.args.input[s.ipos]? = none →
      let s1 : State := { s with reads := s.reads + 1, remValid := false, nulls := 0#7 }
      (s.remValid = false → step s = .next { s1 with litN := 0#2, call := .returned .endOfInput }) ∧
      (s.remValid = true → s.remByte = 0x00#8 →
        step s = .next { s1 with lit := { s.lit with b0 := 0x00#8 }, litN := 1#2, call := .returned (.literal 1#2) }) ∧
      (s.remValid = true → s.remByte ≠ 0x00#8 →
        step s = .next { s1 with lit := { s.lit with b0 := s.remByte }, litN := 1#2, call := .returned (.literal 1#2) }))

/-- `SEQ` and the taken token select the sequencer's action (R136 to R143). In `Streaming` a token that the classifier has
returned is first taken from the token bus, its bytes those of `LIT` (R52); a token outside the ranges of R52 does not decode
(U10). That taking the token is a step of its own is the model's choice (entry 11). -/
def Obligations.StepRunsTheSequencerAction : Prop :=
  ∀ s : State, s.undisturbed →
    (s.seq = .start → step s = exec .seqStart s) ∧
    (s.seq = .streaming → s.call = .accepted (.literal 3#2) → step s = exec .seqLiteral s) ∧
    (∀ n, s.seq = .streaming → s.call = .accepted (.literal n) → n ≠ 3#2 → step s = exec .seqShortlit s) ∧
    (∀ n, s.seq = .streaming → s.call = .accepted (.nullRun n) → step s = exec .seqNullrun s) ∧
    (s.seq = .streaming → s.call = .accepted .endOfInput → step s = exec .seqEnd s) ∧
    (s.seq = .finalizing → step s = exec .seqFinalize s) ∧
    (∀ n, s.seq = .streaming → s.call = .returned (.literal n) → n ≠ 0#2 →
      step s = exec (.tLiteral n s.lit.b0 s.lit.b1 s.lit.b2) s) ∧
    (∀ n, s.seq = .streaming → s.call = .returned (.nullRun n) → 2 ≤ n.toNat → n.toNat ≤ 78 →
      step s = exec (.tNullrun n) s) ∧
    (s.seq = .streaming → s.call = .returned .endOfInput → step s = exec .tEnd s) ∧
    (s.seq = .streaming → s.call = .returned (.literal 0#2) → step s = .refused (.undecodable .literalLength)) ∧
    (∀ n, s.seq = .streaming → s.call = .returned (.nullRun n) → n.toNat < 2 ∨ 78 < n.toNat →
      step s = .refused (.undecodable .nullRunCount))

/-- The model's ports of the leaf functions (entry 10): an operand presented there is decoded and run by the next step, or, where
it is outside its function's contract (R73, R121), declined by it: the port shows no result and nothing else happens. Then a
word on the operand wires of GET3 or of the line writer, which stands there in no run (entry 24), is decoded and run. -/
def Obligations.PresentedWordRunsNext : Prop :=
  (∀ (s : State) (r : PortRequest) (i : Instr), s.resetLine = false → s.request = some r →
    (∀ n, r = .toChar n → n.toNat ≤ 78) → (∀ n, r = .escape n → 2 ≤ n.toNat ∧ n.toNat ≤ 78) → decode r.word = .ok i →
    step s = exec i { s with request := none }) ∧
  (∀ (s : State) (n : BitVec 7), s.resetLine = false →
    (s.request = some (.toChar n) ∧ 78 < n.toNat) ∨ (s.request = some (.escape n) ∧ (n.toNat < 2 ∨ 78 < n.toNat)) →
    step s = .next { s with request := none, result := .refused }) ∧
  (∀ (s : State) (u : UnitWord) (i : Instr), s.resetLine = false → s.request = none → s.unitWires = some u →
    decode u.word = .ok i → step s = exec i { s with unitWires := none })

/-- `Done` and `Abort` are terminal: the block does nothing by itself, and whatever is presented, or stands on a unit's wires,
writes no byte, reads no symbol and leaves every register as it is (R144, R158): only the result wires of a port, and the count
of free values, can change (entries 5 and 10). Output on a unit's wires is refused: the model's choice (entry 14). -/
def Obligations.AfterTheSessionOnlyResetActs : Prop :=
  (∀ s : State, s.undisturbed → (s.seq = .done ∨ s.seq = .abort) → step s = .next s) ∧
  (∀ s t : State, s.resetLine = false → (s.seq = .done ∨ s.seq = .abort) → step s = .next t →
    t = { s with request := none, result := t.result, fresh := t.fresh }) ∧
  (∀ s : State, (s.seq = .done ∨ s.seq = .abort) →
    (∀ (long : Bool) (g : BitVec 32), exec (.emit long g) s = .refused .sessionOver) ∧
    (∀ a b c d : Byte, (Instr.wQuad a b c d).wellFormed = true → exec (.wQuad a b c d) s = .refused .sessionOver) ∧
    (∀ k : Byte, (Instr.wEsc k).wellFormed = true → exec (.wEsc k) s = .refused .sessionOver) ∧
    exec .wPad s = .refused .sessionOver ∧ exec .wEol s = .refused .sessionOver ∧
    (∀ hdr : List Byte, exec (.wHdr hdr) s = .refused .sessionOver))

/-! ## The mapper, the packer, the escaper -/

/-- TOCHAR gives `n + 48` for 0..78 and is refused above (R70, R73); no other field changes. That the character stands in the
field `result` is the model's choice (entry 10). -/
def Obligations.ToCharAddsTheBaseOnItsDomain : Prop :=
  ∀ (n : BitVec 7) (s : State),
    (n.toNat ≤ 78 → ∃ c : Byte, c.toNat = n.toNat + 48 ∧ exec (.toChar n) s = .next { s with result := .char c }) ∧
    (78 < n.toNat → exec (.toChar n) s = .refused .charIndexOutOfRange)

/-- FROMCHAR on 48..126 gives valid, `c - 48` and `c <= 111`; elsewhere valid is 0 and the other two results are some values,
of which nothing is said (entry 4). Where the results stand is the model's choice (entry 10). -/
def Obligations.FromCharReportsValidity : Prop :=
  ∀ (c : Byte) (s : State),
    (48 ≤ c.toNat → c.toNat ≤ 126 → ∃ n : BitVec 7, n.toNat = c.toNat - 48 ∧
      exec (.fromChar c) s = .next { s with result := .charIndex true n (decide (c.toNat ≤ 111)) }) ∧
    (c.toNat < 48 ∨ 126 < c.toNat → ∃ (n : BitVec 7) (is6 : Bool) (k : Nat),
      exec (.fromChar c) s = .next { s with result := .charIndex false n is6, fresh := k })

/-- The two laws of R72: FROMCHAR undoes TOCHAR on 0..78, TOCHAR undoes FROMCHAR on the valid characters. -/
def Obligations.FromCharAndToCharAreInverse : Prop :=
  (∀ (n : BitVec 7) (c : Byte) (s t u : State), exec (.toChar n) s = .next t → t.result = .char c →
    exec (.fromChar c) u = .next { u with result := .charIndex true n (decide (n.toNat ≤ 63)) }) ∧
  (∀ (c : Byte) (n : BitVec 7) (is6 : Bool) (s t u : State), exec (.fromChar c) s = .next t →
    t.result = .charIndex true n is6 → exec (.toChar n) u = .next { u with result := .char c })

/-- The alphabet ROM: index `n` in 0..78 holds `n + 48`, and there is no other index; TOCHAR is a read of it. -/
def Obligations.AlphabetRomHoldsEveryCharacter : Prop :=
  (∀ i : Nat, i ≤ 78 → romRead i = some (BitVec.ofNat 8 (i + 48))) ∧
  (∀ i : Nat, 78 < i → romRead i = none) ∧
  (∀ n : BitVec 7, Machine.toChar n = romRead n.toNat)

/-- PACK's four characters are 48 more than the four 6-bit slices of the 24-bit word `x : y : z`, most significant first; no
other field changes; and the list of characters that the sequencer writes for a triple (packChars) is these four, the first
character the most significant. That the word stands in the field `result` is the model's choice (entry 10). -/
def Obligations.PackSlicesTheTriple : Prop :=
  ∀ (x y z : Byte) (s : State), ∃ w : BitVec 32,
    exec (.pack x y z) s = .next { s with result := .quad w } ∧
    (w.extractLsb' 24 8).toNat = ((x ++ y ++ z).extractLsb' 18 6).toNat + 48 ∧
    (w.extractLsb' 16 8).toNat = ((x ++ y ++ z).extractLsb' 12 6).toNat + 48 ∧
    (w.extractLsb' 8 8).toNat = ((x ++ y ++ z).extractLsb' 6 6).toNat + 48 ∧
    (w.extractLsb' 0 8).toNat = ((x ++ y ++ z).extractLsb' 0 6).toNat + 48 ∧
    packChars x y z = [w.extractLsb' 24 8, w.extractLsb' 16 8, w.extractLsb' 8 8, w.extractLsb' 0 8]

/-- PACK's result is always a well-formed packed group, each character in 0x30..0x6F, and unpacks to the three bytes. -/
def Obligations.PackedQuadUnpacksToItsTriple : Prop :=
  ∀ (x y z : Byte) (s t : State) (w : BitVec 32), exec (.pack x y z) s = .next t → t.result = .quad w →
    ∃ a b c d : Byte, decode (.wire32 w) = .ok (.wQuad a b c d) ∧ unpackChars a b c d = [x, y, z]

/-- ESCAPE gives `~` and the character `count + 48` for 2..78 and is refused elsewhere; PADMARK gives `~0`; no other field
changes. That the pair stands in the field `result` is the model's choice (entry 10). -/
def Obligations.EscapeAndPadMarkGiveTheirPairs : Prop :=
  ∀ (n : BitVec 7) (s : State),
    (2 ≤ n.toNat → n.toNat ≤ 78 → ∃ k : Byte, k.toNat = n.toNat + 48 ∧
      exec (.escape n) s = .next { s with result := .pair (0x7E#8 ++ k) } ∧
      decode (.wire16 (0x7E#8 ++ k)) = .ok (.wEsc k)) ∧
    (n.toNat < 2 ∨ 78 < n.toNat → exec (.escape n) s = .refused .runCountOutOfRange) ∧
    exec .padmark s = .next { s with result := .pair 0x7E30#16 }

/-! ## The line writer and the output groups -/

/-- EMIT: a line break and column 0 first where the group would pass column 72, then the group's characters in order, then
the column advanced by its length (afterEmit; R125 to R127); nothing else changes. The group is the bus's four characters, or
its two most significant ones, as R66 lays the bus out (the spec's own decision D26). -/
def Obligations.EmitWrapsThenWritesTheGroup : Prop :=
  ∀ (g : BitVec 32) (s : State), s.seq ≠ .done → s.seq ≠ .abort →
    let a := g.extractLsb' 24 8
    let b := g.extractLsb' 16 8
    let c := g.extractLsb' 8 8
    let d := g.extractLsb' 0 8
    (WritesAccepted s (emitWrites s [a, b, c, d]) → exec (.emit true g) s = .next (afterEmit s [a, b, c, d])) ∧
    (WritesAccepted s (emitWrites s [a, b]) → exec (.emit false g) s = .next (afterEmit s [a, b]))

/-- The model's meaning of the output groups as operations (entry 12): W.QUAD, W.ESC, W.PAD are EMIT of their characters; W.EOL
and W.HDR append their bytes, and nothing but `OUT` and the count of writes changes, `COL` neither. Malformed groups are
refused (R61). -/
def Obligations.OutputGroupsAreWrittenOrRefused : Prop :=
  (∀ s : State, s.seq ≠ .done → s.seq ≠ .abort →
    (∀ a b c d : Byte, (Instr.wQuad a b c d).wellFormed = true → WritesAccepted s (emitWrites s [a, b, c, d]) →
      exec (.wQuad a b c d) s = .next (afterEmit s [a, b, c, d])) ∧
    (∀ k : Byte, (Instr.wEsc k).wellFormed = true → WritesAccepted s (emitWrites s [0x7E#8, k]) →
      exec (.wEsc k) s = .next (afterEmit s [0x7E#8, k])) ∧
    (WritesAccepted s (emitWrites s [0x7E#8, 0x30#8]) → exec .wPad s = .next (afterEmit s [0x7E#8, 0x30#8])) ∧
    (WritesAccepted s 2 →
      exec .wEol s = .next { s with out := s.out ++ [0x0D#8, 0x0A#8], writes := s.writes + 2 }) ∧
    (∀ hdr : List Byte, WritesAccepted s (hdr.length + 2) →
      exec (.wHdr hdr) s =
        .next { s with out := s.out ++ hdr ++ [0x0D#8, 0x0A#8], writes := s.writes + (hdr.length + 2) })) ∧
  (∀ (s : State) (a b c d : Byte), (Instr.wQuad a b c d).wellFormed = false →
    exec (.wQuad a b c d) s = .refused .malformedGroup) ∧
  (∀ (s : State) (k : Byte), (Instr.wEsc k).wellFormed = false → exec (.wEsc k) s = .refused .malformedGroup)

/-! ## The classifier, symbol by symbol -/

/-- R83 and R84: a null with nothing pending is counted; the 79th is kept as the remainder and cuts the run at 78. The class
SYM.NUL does the same there. That `LIT`, none of it pending, and a `REM` not valid keep their values is
the model's choice (U17, entry 22). -/
def Obligations.NullIsCountedAndTheSeventyNinthCutsTheRun : Prop :=
  ∀ s : State, s.call = .running → s.litN = 0#2 →
    (s.nulls.toNat < 78 →
      exec .symNulCount s = .next { s with nulls := s.nulls + 1#7 } ∧
      exec .symNul s = .next { s with nulls := s.nulls + 1#7 }) ∧
    (s.nulls = 78#7 →
      let t : State := { s with nulls := 79#7, remByte := 0x00#8, remValid := true, call := .returned (.nullRun 78#7) }
      exec .symNulCount s = .next t ∧ exec .symNulCut s = .next t ∧ exec .symNul s = .next t)

/-- R85 with R89: a null while one or two literal bytes are pending is a literal byte; the third returns the triple. The
class SYM.NUL does the same there. That the `LIT` position beyond the new `LIT_N`, and a `REM` not valid, keep their values is
the model's choice (U17, entry 22). -/
def Obligations.NullCompletesThePendingTriple : Prop :=
  ∀ s : State, s.call = .running →
    (s.litN = 1#2 →
      let t : State := { s with lit := { s.lit with b1 := 0x00#8 }, litN := 2#2 }
      exec .symNulAppend s = .next t ∧ exec .symNul s = .next t) ∧
    (s.litN = 2#2 →
      let t : State := { s with lit := { s.lit with b2 := 0x00#8 }, litN := 3#2, call := .returned (.literal 3#2) }
      exec .symNulAppend s = .next t ∧ exec .symNul s = .next t)

/-- R86 with R89: a non-null byte with no null pending is appended; the third returns the triple. The class SYM.LIT does the
same there. That the `LIT` positions beyond the new `LIT_N`, and a `REM` not valid, keep their values is
the model's choice (U17, entry 22). -/
def Obligations.LiteralByteIsAppended : Prop :=
  ∀ (b : Byte) (s : State), s.call = .running → s.nulls = 0#7 →
    (s.litN = 0#2 →
      let t : State := { s with lit := { s.lit with b0 := b }, litN := 1#2 }
      exec (.symLitAppend b) s = .next t ∧ exec (.symLit b) s = .next t) ∧
    (s.litN = 1#2 →
      let t : State := { s with lit := { s.lit with b1 := b }, litN := 2#2 }
      exec (.symLitAppend b) s = .next t ∧ exec (.symLit b) s = .next t) ∧
    (s.litN = 2#2 →
      let t : State := { s with lit := { s.lit with b2 := b }, litN := 3#2, call := .returned (.literal 3#2) }
      exec (.symLitAppend b) s = .next t ∧ exec (.symLit b) s = .next t)

/-- R87: one pending null is converted back into a literal byte, and the triggering byte appended. The class SYM.LIT does the
same there. That `LIT[2]`, beyond `LIT_N`, and a `REM` not valid keep their values is the model's choice (U17, entry 22). -/
def Obligations.IsolatedNullIsBacktracked : Prop :=
  ∀ (b : Byte) (s : State), s.call = .running → s.nulls = 1#7 →
    let t : State := { s with lit := { s.lit with b0 := 0x00#8, b1 := b }, litN := 2#2, nulls := 0#7 }
    exec (.symLitBacktrack b) s = .next t ∧ exec (.symLit b) s = .next t

/-- R88: a non-null byte ends a run of two or more and is held as the remainder. The class SYM.LIT does the same there. That
`LIT`, none of it pending during a run, keeps its values is the model's choice (U17, entry 22). -/
def Obligations.NonNullByteEndsTheRun : Prop :=
  ∀ (b : Byte) (s : State), s.call = .running → 2 ≤ s.nulls.toNat →
    let t : State := { s with remByte := b, remValid := true, call := .returned (.nullRun s.nulls) }
    exec (.symLitEndrun b) s = .next t ∧ exec (.symLit b) s = .next t

/-- R90: end of input after a run of two or more returns the run. The class SYM.EOF does the same there. That `LIT`, none of it
pending during a run, and a `REM` not valid keep their values is the model's choice (U17, entry 22). -/
def Obligations.EndOfInputReturnsTheRun : Prop :=
  ∀ s : State, s.call = .running → 2 ≤ s.nulls.toNat →
    exec .symEofRun s = .next { s with call := .returned (.nullRun s.nulls) } ∧
    exec .symEof s = .next { s with call := .returned (.nullRun s.nulls) }

/-- R91: end of input after exactly one null returns it as a single literal byte. The class SYM.EOF does the same there. That
`LIT[1]` and `LIT[2]`, beyond `LIT_N`, and a `REM` not valid keep their values is the model's choice (U17, entry 22). -/
def Obligations.EndOfInputReturnsOneNullAsLiteral : Prop :=
  ∀ s : State, s.call = .running → s.nulls = 1#7 →
    let t : State :=
      { s with lit := { s.lit with b0 := 0x00#8 }, litN := 1#2, nulls := 0#7, call := .returned (.literal 1#2) }
    exec .symEofOne s = .next t ∧ exec .symEof s = .next t

/-- R92: end of input with one or two literal bytes pending returns them. The class SYM.EOF does the same there. That the `LIT`
positions beyond `LIT_N`, and a `REM` not valid, keep their values is the model's choice (U17, entry 22). -/
def Obligations.EndOfInputReturnsTheLiteralTail : Prop :=
  ∀ s : State, s.call = .running → s.nulls = 0#7 → (s.litN = 1#2 ∨ s.litN = 2#2) →
    exec .symEofTail s = .next { s with call := .returned (.literal s.litN) } ∧
    exec .symEof s = .next { s with call := .returned (.literal s.litN) }

/-- R93: end of input with nothing pending returns `End`; no register changes. The class SYM.EOF does the same there. -/
def Obligations.EndOfInputWithNothingPendingReturnsEnd : Prop :=
  ∀ s : State, s.call = .running → s.nulls = 0#7 → s.litN = 0#2 →
    exec .symEofEnd s = .next { s with call := .returned .endOfInput } ∧
    exec .symEof s = .next { s with call := .returned .endOfInput }

/-- A per-symbol step runs in a running call under its condition in the opcode table, and only there. Elsewhere it is refused:
the model's choice (entry 14). -/
def Obligations.PerSymbolStepRunsExactlyUnderItsCondition : Prop :=
  ∀ (i : Instr) (s : State), i.isPerSymbol = true →
    ((∃ t, exec i s = .next t) ↔ s.call = .running ∧ stepCondition i s.litN s.nulls)

/-- GET3 is one call: from any state of `Streaming` between calls, with reads that are answered, it returns the token that the
spec's functional classifier (R96) finds at the front of the remaining input, leaves the rest of it, and changes only the
classifier's registers and the input position. -/
def Obligations.Get3ReturnsTheTokenOfTheRemainingInput : Prop :=
  ∀ s : State, s.seq = .streaming → s.call = .idle → ReadsAnswered s (s.unread + 1) →
    ∃ (t : State) (tok : Token), exec .get3 s = .next t ∧ t.call = .returned tok ∧
      (refToken t tok, remaining t) = scan (remaining s) [] 0 ∧
      t = { s with lit := t.lit, litN := t.litN, nulls := t.nulls, remByte := t.remByte, remValid := t.remValid,
                   ipos := t.ipos, reads := t.reads, call := t.call }

/-- The call of R80 as one operation and the session's steps, one per symbol, agree on every outcome, the failures included:
some number of steps, at most one for each unread byte and one for the end of input, ends as GET3 does. That the model has the
call in both forms, GET3 as one step and the session's steps one symbol each, is its choice (entry 16). -/
def Obligations.SteppingTheSymbolsIsTheCall : Prop :=
  ∀ s : State, s.undisturbed → s.seq = .streaming → s.call = .idle →
    ∃ n, n ≤ s.unread + 1 ∧ runSteps n s = exec .get3 s

/-! ## Tokens on the bus -/

/-- The model's meaning of a token word (entry 11): the sequencer, in `Streaming`, takes the token that the classifier has
returned, a Literal with its bytes `LIT[0..n-1]` (R52), and no register changes. A malformed token is refused (U10), and so is
any other token than the one on the bus: none can be forced on the sequencer from outside (R150). -/
def Obligations.DeliveredTokenWaitsForTheSequencer : Prop :=
  ∀ s : State,
    (s.seq = .streaming →
      (s.call = .returned .endOfInput → exec .tEnd s = .next { s with call := .accepted .endOfInput }) ∧
      (∀ (len : BitVec 2) (x y z : Byte), len ≠ 0#2 → s.call = .returned (.literal len) →
        (s.lit.bytes len = [x, y, z].take len.toNat →
          exec (.tLiteral len x y z) s = .next { s with call := .accepted (.literal len) }) ∧
        (s.lit.bytes len ≠ [x, y, z].take len.toNat →
          exec (.tLiteral len x y z) s = .refused .tokenNotAccepted)) ∧
      (∀ n : BitVec 7, 2 ≤ n.toNat → n.toNat ≤ 78 → s.call = .returned (.nullRun n) →
        exec (.tNullrun n) s = .next { s with call := .accepted (.nullRun n) })) ∧
    (s.seq ≠ .streaming ∨ s.call ≠ .returned .endOfInput → exec .tEnd s = .refused .tokenNotAccepted) ∧
    (∀ (len : BitVec 2) (x y z : Byte), len ≠ 0#2 → s.seq ≠ .streaming ∨ s.call ≠ .returned (.literal len) →
      exec (.tLiteral len x y z) s = .refused .tokenNotAccepted) ∧
    (∀ n : BitVec 7, 2 ≤ n.toNat → n.toNat ≤ 78 → s.seq ≠ .streaming ∨ s.call ≠ .returned (.nullRun n) →
      exec (.tNullrun n) s = .refused .tokenNotAccepted) ∧
    (∀ x y z : Byte, exec (.tLiteral 0#2 x y z) s = .refused .malformedToken) ∧
    (∀ n : BitVec 7, n.toNat < 2 ∨ 78 < n.toNat → exec (.tNullrun n) s = .refused .malformedToken)

/-! ## The sequencer -/

/-- R136: the header bytes unchanged, the line break, then `Streaming`; `COL` and everything else as it was. -/
def Obligations.StartWritesTheHeaderLine : Prop :=
  ∀ s : State, s.seq = .start → WritesAccepted s (s.args.hdr.length + 2) →
    exec .seqStart s =
      .next { s with out := s.out ++ s.args.hdr ++ [0x0D#8, 0x0A#8], writes := s.writes + (s.args.hdr.length + 2),
                     seq := .streaming }

/-- R138: `FILL` 0, and the quad of the three literal bytes through EMIT. -/
def Obligations.FullLiteralIsPackedAndEmitted : Prop :=
  ∀ s : State, s.seq = .streaming → s.call = .accepted (.literal 3#2) →
    let g := packChars s.lit.b0 s.lit.b1 s.lit.b2
    WritesAccepted s (emitWrites s g) →
    exec .seqLiteral s = .next (afterEmit { s with fill := 0#2, call := .idle } g)

/-- R139: the unfilled positions are written 0x00, `FILL` is 3 less the length, and the quad goes through EMIT. -/
def Obligations.ShortLiteralIsPaddedAndEmitted : Prop :=
  ∀ s : State, s.seq = .streaming →
    (s.call = .accepted (.literal 1#2) →
      let g := packChars s.lit.b0 0x00#8 0x00#8
      WritesAccepted s (emitWrites s g) →
      exec .seqShortlit s =
        .next (afterEmit
          { s with lit := { s.lit with b1 := 0x00#8, b2 := 0x00#8 }, fill := 2#2, call := .idle } g)) ∧
    (s.call = .accepted (.literal 2#2) →
      let g := packChars s.lit.b0 s.lit.b1 0x00#8
      WritesAccepted s (emitWrites s g) →
      exec .seqShortlit s =
        .next (afterEmit { s with lit := { s.lit with b2 := 0x00#8 }, fill := 1#2, call := .idle } g))

/-- R140: `FILL` 0, and the escape sequence of the count through EMIT; `LIT` is not touched. -/
def Obligations.NullRunIsEscapedAndEmitted : Prop :=
  ∀ (s : State) (n : BitVec 7), s.seq = .streaming → s.call = .accepted (.nullRun n) → 2 ≤ n.toNat → n.toNat ≤ 78 →
    let g : List Byte := [0x7E#8, BitVec.ofNat 8 (n.toNat + 48)]
    WritesAccepted s (emitWrites s g) →
    exec .seqNullrun s = .next (afterEmit { s with fill := 0#2, call := .idle } g)

/-- R141: `Finalizing`; nothing is written and `FILL` keeps its value. -/
def Obligations.EndTokenStartsFinalizing : Prop :=
  ∀ s : State, s.seq = .streaming → s.call = .accepted .endOfInput →
    exec .seqEnd s = .next { s with seq := .finalizing, call := .idle }

/-- R142 and R143: `FILL` markers `~0`, each a group of its own through EMIT, then the trailer, which does not change `COL`,
then `Done`. -/
def Obligations.FinalizeWritesMarkersThenTheTrailer : Prop :=
  ∀ s : State, s.seq = .finalizing → WritesAccepted s (4 * s.fill.toNat + 2) →
    let t := afterMarkers s.fill.toNat s
    exec .seqFinalize s =
      .next { t with out := t.out ++ [0x0D#8, 0x0A#8], writes := t.writes + 2, seq := .done }

/-- The sequencer's actions run only in the `SEQ` state and on the token that the opcode table states, and ABORT only where an
access of its stream can be made; elsewhere they are refused: the model's choice (entry 14). -/
def Obligations.SequencerActionsAreRefusedElsewhere : Prop :=
  ∀ s : State,
    (s.seq ≠ .start → exec .seqStart s = .refused .conditionFails) ∧
    (s.seq ≠ .streaming ∨ s.call ≠ .accepted (.literal 3#2) → exec .seqLiteral s = .refused .conditionFails) ∧
    (s.seq ≠ .streaming ∨ (s.call ≠ .accepted (.literal 1#2) ∧ s.call ≠ .accepted (.literal 2#2)) →
      exec .seqShortlit s = .refused .conditionFails) ∧
    (s.seq ≠ .streaming ∨ (∀ n, s.call ≠ .accepted (.nullRun n)) → exec .seqNullrun s = .refused .conditionFails) ∧
    (s.seq ≠ .streaming ∨ s.call ≠ .accepted .endOfInput → exec .seqEnd s = .refused .conditionFails) ∧
    (s.seq ≠ .finalizing → exec .seqFinalize s = .refused .conditionFails) ∧
    (s.seq ≠ .streaming ∨ s.call ≠ .running → exec (.abort .inp) s = .refused .noAccessToFail) ∧
    (s.seq = .done ∨ s.seq = .abort → exec (.abort .out) s = .refused .noAccessToFail)

/-! ## Abort and reset -/

/-- R158: `SEQ` becomes `Abort` and `ERR` 1 or 2; what was written stays; nothing more is read or written. A read can fail only
inside a call (R156); that `SEQ` alone decides where a write can fail is the model's choice (entry 14). -/
def Obligations.AbortRecordsTheFailingStream : Prop :=
  ∀ (which : Stream) (s : State),
    (which = .inp → s.seq = .streaming ∧ s.call = .running) →
    (which = .out → s.seq = .start ∨ s.seq = .streaming ∨ s.seq = .finalizing) →
    ∃ t, exec (.abort which) s = .next t ∧ t.seq = .abort ∧ t.statusSeq = 4#3 ∧
      (which = .inp → t.statusErr = 1#2 ∧ t.out = s.out) ∧
      (which = .out → t.statusErr = 2#2 ∧ t.ipos = s.ipos) ∧
      s.out <+: t.out ∧ t.args = s.args ∧ t.reads = s.reads ∧ t.writes = s.writes ∧ t.offered = s.offered ∧
      t.resetLine = s.resetLine ∧ t.request = s.request ∧ t.unitWires = s.unitWires ∧
      t.result = s.result

/-- R157: a write that fails ends the operation with `Abort` and `ERR` 2; the bytes before it are in `OUT`, and no write is
made after it. Said of every instruction that writes: the header line, the groups of the three data tokens, the markers and the
trailer, EMIT and the output groups (writtenBytes). -/
def Obligations.FailedWriteCutsTheOutputThere : Prop :=
  ∀ (i : Instr) (s : State) (bytes : List Byte) (k : Nat), writtenBytes i s = some bytes →
    s.args.writeFail = some (s.writes + k) → k < bytes.length →
    (∀ j, j ≤ k → s.args.writeMute ≠ some (s.writes + j)) →
    ∃ t, exec i s = .next t ∧ t.seq = .abort ∧ t.statusErr = 2#2 ∧ t.writes = s.writes + k + 1 ∧
      s.out ++ bytes.take k <+: t.out ∧ t.args = s.args ∧ t.ipos = s.ipos ∧ t.reads = s.reads

/-- R156: a read that fails in `Streaming` aborts the session with `ERR` 1; nothing is written, no token is returned. -/
def Obligations.FailedReadAbortsTheSession : Prop :=
  ∀ s : State, s.undisturbed → s.seq = .streaming → (s.call = .idle ∨ s.call = .running) →
    s.args.readFail = some s.reads → s.args.readMute ≠ some s.reads →
    ∃ t, step s = .next t ∧ t.seq = .abort ∧ t.statusErr = 1#2 ∧ t.out = s.out ∧ t.writes = s.writes ∧
      (∀ tok, t.call ≠ .returned tok)

/-- The model's two stops (entry 9): an access that the environment never answers leaves the block waiting (U12), a read in
`Streaming`, or a write of any instruction that writes (writtenBytes). -/
def Obligations.UnansweredAccessStopsTheMachine : Prop :=
  (∀ s : State, s.undisturbed → s.seq = .streaming → (s.call = .idle ∨ s.call = .running) →
    s.args.readMute = some s.reads → step s = .fault .readUnanswered) ∧
  (∀ (i : Instr) (s : State) (bytes : List Byte) (k : Nat), writtenBytes i s = some bytes →
    s.args.writeMute = some (s.writes + k) → k < bytes.length →
    (∀ j, j < k → s.args.writeFail ≠ some (s.writes + j)) → exec i s = .fault .writeUnanswered)

/-- R175: reset puts the registers at the values of R25, binds the session's arguments and empties `OUT`, in any state, and has
priority over everything; `LIT` and `REM` are unspecified and nothing is said of them. That reset is a bit which one step
executes and clears, that the arguments come from the field `offered` (entry 8), and that the accesses are counted from 0
again (entry 9), are the model's choices. -/
def Obligations.ResetBeginsANewSession : Prop :=
  (∀ s : State, ∃ t, exec .reset s = .next t ∧
    t.litN = 0#2 ∧ t.nulls = 0#7 ∧ t.remValid = false ∧ t.col = 0#7 ∧ t.fill = 0#2 ∧ t.seq = .start ∧ t.err = .none ∧
    t.ipos = 0 ∧ t.out = [] ∧ t.args = s.offered ∧ t.resetLine = false ∧ t.call = .idle ∧ t.reads = 0 ∧ t.writes = 0) ∧
  (∀ s : State, s.resetLine = true → step s = exec .reset s)

/-- R25: the values the spec gives for the state after reset. `LIT` and `REM`, for which it gives none, are left out. -/
def Obligations.ResetStateHasTheSpecifiedValues : Prop :=
  State.reset.litN = 0#2 ∧ State.reset.nulls = 0#7 ∧ State.reset.remValid = false ∧ State.reset.col = 0#7 ∧
  State.reset.fill = 0#2 ∧ State.reset.statusSeq = 0#3 ∧ State.reset.statusErr = 0#2 ∧ State.reset.ipos = 0 ∧
  State.reset.out = []

/-- R177: nothing of a session survives reset: whatever the state, the session that follows is one that begins with the
offered arguments, and two states that were offered the same begin it alike but for `LIT` and `REM`. What the host holds ready
and the ports of the leaf functions are outside the session and stay (the model's choice, entries 8 and 10). -/
def Obligations.NothingOfASessionSurvivesReset : Prop :=
  (∀ (s t : State) (hdr input : List Byte), s.request = none →
    s.offered = { SessionArgs.empty with hdr := hdr, input := input } → exec .reset s = .next t →
    SessionStart t hdr input) ∧
  (∀ s s' t t' : State, s.offered = s'.offered → exec .reset s = .next t → exec .reset s' = .next t' →
    t' = { t with lit := t'.lit, remByte := t'.remByte, request := t'.request, result := t'.result, fresh := t'.fresh }) ∧
  (∀ s t : State, exec .reset s = .next t → t.offered = s.offered ∧ t.request = s.request ∧ t.result = s.result)

/-! ## Rules of the whole machine -/

/-- The legal values of the registers are kept by every step, whatever is presented or stands on a unit's wires (R21 (c), R130). -/
def Obligations.EveryStepKeepsTheRegistersInRange : Prop :=
  ∀ s t : State, RegistersInRange s → step s = .next t → RegistersInRange t

/-- The invariants of R21 (a) to (e), with the pairing of `ERR` and `Abort` and the register values of `Finalizing` and
`Done` (R17, R144), are kept by every step, whatever is presented or stands on a unit's wires. -/
def Obligations.EveryStepKeepsTheSessionInvariant : Prop :=
  ∀ s t : State, SessionInv s → step s = .next t → SessionInv t

/-- Both invariants hold at reset. -/
def Obligations.InvariantsHoldAtReset : Prop :=
  RegistersInRange State.reset ∧ SessionInv State.reset

/-- The transitions of `SEQ` in R150's table: there are no others, and none can be forced from outside except reset. Every
transition but reset's and `Abort`'s is the session's own, `Finalizing` only on an `End` that the sequencer has taken; and
`Abort` is entered only where an access has just failed (AccessFailed), never by what is presented. -/
def Obligations.SequencerStateFollowsTheTransitionTable : Prop :=
  ∀ s t : State, step s = .next t →
    (s.resetLine = true → t.seq = .start) ∧
    (s.resetLine = false →
      t.seq = s.seq ∨ (s.undisturbed ∧ s.seq = .start ∧ t.seq = .streaming) ∨
      (s.undisturbed ∧ s.seq = .streaming ∧ s.call = .accepted .endOfInput ∧ t.seq = .finalizing) ∨
      (s.undisturbed ∧ s.seq = .finalizing ∧ t.seq = .done) ∨
      (s.request = none ∧ (s.seq = .start ∨ s.seq = .streaming ∨ s.seq = .finalizing) ∧ t.seq = .abort ∧
        AccessFailed t))

/-- Output is only appended, the session's arguments do not change under it, and `IPOS` never decreases (R33, R44, R46),
between resets; after a failed read `IPOS` is unspecified (R31) and nothing is said of it. -/
def Obligations.OutputGrowsAndInputIsImmutable : Prop :=
  ∀ s t : State, step s = .next t → s.resetLine = false →
    s.out <+: t.out ∧ t.args = s.args ∧ t.offered = s.offered ∧
    ((t.seq = s.seq ∨ t.err ≠ .inp) → s.ipos ≤ t.ipos)

/-! ## Sessions -/

/-- R96 and R97 agree on every input. -/
def Obligations.FlattenedClassifierEmitsTheSameTokens : Prop :=
  ∀ input : List Byte, tokens input = flatTokens input [] 0

/-- R98 (a) to (d): counts, lengths, exactly one `End`, and the bytes of the input covered in order. -/
def Obligations.TokensCoverTheInput : Prop :=
  ∀ input : List Byte, ∃ ts : List RefToken, tokens input = ts ++ [.endOfInput] ∧
    (∀ n, .nullRun n ∈ ts → 2 ≤ n ∧ n ≤ 78) ∧
    (∀ l, .literal l ∈ ts → 1 ≤ l.length ∧ l.length ≤ 3) ∧
    (∀ l, .literal l ∈ ts.dropLast → l.length = 3) ∧
    .endOfInput ∉ ts ∧
    ts.flatMap RefToken.expand = input

/-- R146 and R192: every session in an environment that answers and never fails ends in `Done` with the output in closed
form, after one read for each byte and one or two at end of input. -/
def Obligations.EverySessionWritesTheClosedForm : Prop :=
  ∀ (s : State) (hdr input : List Byte), SessionStart s hdr input →
    ∃ n t, runSteps n s = .next t ∧ t.seq = .done ∧ t.err = .none ∧ t.out = sessionOutput hdr input ∧
      t.ipos = input.length ∧ t.fill.toNat = fillAfter (tokens input) ∧ t.writes = t.out.length ∧
      (t.reads = input.length + 1 ∨ t.reads = input.length + 2)

/-- R148: reading the finished output back, with the decoding grammar of R67, gives the input, and nothing is refused; in
particular the padding marker stands only at the end (R62, R182). What else the reader refuses is the model's choice
(entry 23). -/
def Obligations.FinishedOutputReadsBackAsTheInput : Prop :=
  ∀ (s : State) (hdr input : List Byte), SessionStart s hdr input →
    ∃ n t, runSteps n s = .next t ∧ t.seq = .done ∧ hdr ++ [0x0D#8, 0x0A#8] <+: t.out ∧
      readBody (bodyOf hdr t.out) = some input

/-- R128: no line of the finished output but the header is longer than 72 characters. -/
def Obligations.NoBodyLineExceedsTheWidth : Prop :=
  ∀ (s : State) (hdr input : List Byte), SessionStart s hdr input →
    ∃ n t, runSteps n s = .next t ∧ t.seq = .done ∧ linesFit (bodyOf hdr t.out) 0 = true

/-- R147: the number of padding markers, from the length of the literal tail: the register `FILL` at `Done`, and the number of
`~0` groups that end the body of the output. -/
def Obligations.PaddingCountComesFromTheLiteralTail : Prop :=
  ∀ (s : State) (hdr input : List Byte), SessionStart s hdr input →
    ∃ n t, runSteps n s = .next t ∧ t.seq = .done ∧
      t.fill.toNat = (3 - literalTail (tokens input) % 3) % 3 ∧
      markerCount (bodyOf hdr t.out) = some ((3 - literalTail (tokens input) % 3) % 3)

/-! ## The outside -/

/-- R8 and R162 on the machine: the ports, the wires and the fields that show results are the model's own (entries 10 and 24).
Whatever is presented from outside, in any state of a session and outside its function's contract too, the machine goes on: the
operand is gone after one step, and nothing else has changed but the result wires of its port and the count of free values
(entry 5), so that the session is neither altered nor halted. And no word comes to stand on a unit's wires between two steps,
so that in a run from reset nothing but reset and the answers to reads and writes alters a session. -/
def Obligations.NothingPresentedAltersTheSession : Prop :=
  (∀ (s : State) (r : PortRequest), s.resetLine = false → s.request = some r →
    ∃ t, step s = .next t ∧ t = { s with request := none, result := t.result, fresh := t.fresh }) ∧
  (∀ s t : State, s.unitWires = none → step s = .next t → t.unitWires = none) ∧
  State.reset.unitWires = none
end

