-- ==== Sys2Proof/Laws/Bits.lean ====
section
/-! SUPPORT. The words of the encodings as numbers, and a field of a word as a quotient and remainder: with these a field of an
encoded word is found by linear arithmetic. -/

namespace Sys2Proof

/-- Concatenation: the left word in the more significant position (spec/00_scope.md R6). -/
theorem toNat_concat {m n : Nat} (x : BitVec m) (y : BitVec n) :
    (x ++ y).toNat = x.toNat * 2 ^ n + y.toNat := by
  rw [BitVec.toNat_append, ← Nat.shiftLeft_add_eq_or_of_lt y.isLt, Nat.shiftLeft_eq]

/-- A field `v[lo + n - 1 : lo]` (R6). -/
theorem toNat_field {w : Nat} (v : BitVec w) (lo n : Nat) :
    (v.extractLsb' lo n).toNat = v.toNat / 2 ^ lo % 2 ^ n := by
  rw [BitVec.extractLsb'_toNat, Nat.shiftRight_eq_div_pow]

theorem symbolOfByte_toNat (b : Byte) : (symbolOfByte b).toNat = b.toNat := by
  change BitVec.toNat (w := 1 + 8) (0#1 ++ b) = _
  rw [toNat_concat]
  simp

theorem tokenWord_toNat (k l : BitVec 2) (c : BitVec 7) (x y z : Byte) :
    (tokenWord k l c x y z).toNat =
      ((((k.toNat * 4 + l.toNat) * 128 + c.toNat) * 256 + x.toNat) * 256 + y.toNat) * 256 + z.toNat := by
  change BitVec.toNat (w := 2 + 2 + 7 + 8 + 8 + 8) (k ++ l ++ c ++ x ++ y ++ z) = _
  simp only [toNat_concat]
  norm_num

theorem pairWord_toNat (a b : Byte) : BitVec.toNat (w := 16) (a ++ b) = a.toNat * 256 + b.toNat := by
  change BitVec.toNat (w := 8 + 8) (a ++ b) = _
  simp only [toNat_concat]
  norm_num

theorem tripleWord_toNat (a b c : Byte) :
    BitVec.toNat (w := 24) (a ++ b ++ c) = (a.toNat * 256 + b.toNat) * 256 + c.toNat := by
  change BitVec.toNat (w := 8 + 8 + 8) (a ++ b ++ c) = _
  simp only [toNat_concat]
  norm_num

theorem quadWord_toNat (a b c d : Byte) :
    BitVec.toNat (w := 32) (a ++ b ++ c ++ d) =
      ((a.toNat * 256 + b.toNat) * 256 + c.toNat) * 256 + d.toNat := by
  change BitVec.toNat (w := 8 + 8 + 8 + 8) (a ++ b ++ c ++ d) = _
  simp only [toNat_concat]
  norm_num

theorem emitWord_toNat (l : Bool) (g : BitVec 32) :
    BitVec.toNat (w := 33) (BitVec.ofBool l ++ g) = (if l then 4294967296 else 0) + g.toNat := by
  change BitVec.toNat (w := 1 + 32) (BitVec.ofBool l ++ g) = _
  rw [toNat_concat]
  cases l <;> simp

/-- The word of a byte's symbol: its byte field and its `eof` bit (spec/30_encoding.md R50). -/
theorem symbolOfByte_fields (b : Byte) :
    (symbolOfByte b).extractLsb' 0 8 = b ∧ (symbolOfByte b).extractLsb' 8 1 = 0#1 := by
  have hb := b.isLt
  constructor <;> apply BitVec.eq_of_toNat_eq <;> rw [toNat_field, symbolOfByte_toNat]
  · simpa using hb
  · simp only [Nat.reducePow] at hb ⊢
    simp
    omega

namespace Machine

/-- The adder of TOCHAR as a number (spec/40_alphabet_mapper.md R70): the sum never carries out of 8 bits. -/
theorem mapChar_toNat (n : BitVec 7) : (mapChar n).toNat = n.toNat + 48 := by
  have h := n.isLt
  simp only [mapChar, Config.charBase, BitVec.toNat_add, BitVec.zeroExtend, BitVec.toNat_setWidth,
    BitVec.toNat_ofNat]
  omega

theorem mapField_toNat (v : BitVec 6) : (mapField v).toNat = v.toNat + 48 := by
  have h := v.isLt
  rw [mapField, mapChar_toNat, BitVec.zeroExtend, BitVec.toNat_setWidth]
  omega

end Machine

end Sys2Proof
end

