-- ==== Sys2Proof/Laws/Flags.lean ====
section
/-! SUPPORT. The predicates of spec/10_state.md R20 as propositions on the registers. -/

namespace Sys2Proof.Machine

@[simp] theorem isNull_iff (b : Byte) : isNull b = true ↔ b = 0x00#8 := by simp [isNull]

@[simp] theorem isNull_false_iff (b : Byte) : isNull b = false ↔ b ≠ 0x00#8 := by simp [isNull]

@[simp] theorem State.litPending_iff (s : State) : s.litPending = true ↔ s.litN ≠ 0#2 := by simp [State.litPending]

@[simp] theorem State.litPending_false_iff (s : State) : s.litPending = false ↔ s.litN = 0#2 := by
  simp [State.litPending]

@[simp] theorem State.runPending_iff (s : State) : s.runPending = true ↔ s.nulls ≠ 0#7 := by simp [State.runPending]

@[simp] theorem State.runPending_false_iff (s : State) : s.runPending = false ↔ s.nulls = 0#7 := by
  simp [State.runPending]

@[simp] theorem State.runEscapable_iff (s : State) : s.runEscapable = true ↔ 2 ≤ s.nulls.toNat := by
  rw [State.runEscapable, decide_eq_true_iff, Config.minNullRun]

@[simp] theorem State.runEscapable_false_iff (s : State) : s.runEscapable = false ↔ s.nulls.toNat < 2 := by
  rw [State.runEscapable, decide_eq_false_iff_not, Config.minNullRun, Nat.not_le]

@[simp] theorem State.runOverflow_iff (s : State) : s.runOverflow = true ↔ 78 ≤ s.nulls.toNat := by
  rw [State.runOverflow, decide_eq_true_iff, Config.maxNullRun, Nat.lt_succ_iff]

@[simp] theorem State.runOverflow_false_iff (s : State) : s.runOverflow = false ↔ s.nulls.toNat < 78 := by
  rw [State.runOverflow, decide_eq_false_iff_not, Config.maxNullRun, Nat.lt_succ_iff, Nat.not_le]

@[simp] theorem State.litFull_iff (s : State) : s.litFull = true ↔ s.litN = 3#2 := by simp [State.litFull]

@[simp] theorem State.litFull_false_iff (s : State) : s.litFull = false ↔ s.litN ≠ 3#2 := by simp [State.litFull]

@[simp] theorem State.wrapNeeded_iff (s : State) (n : Nat) : s.wrapNeeded n = true ↔ 72 < s.col.toNat + n := by
  rw [State.wrapNeeded, decide_eq_true_iff, Config.maxLineWidth]

@[simp] theorem State.wrapNeeded_false_iff (s : State) (n : Nat) :
    s.wrapNeeded n = false ↔ s.col.toNat + n ≤ 72 := by
  rw [State.wrapNeeded, decide_eq_false_iff_not, Config.maxLineWidth, Nat.not_lt]

@[simp] theorem State.padPending_iff (s : State) : s.padPending = true ↔ s.fill ≠ 0#2 := by simp [State.padPending]

@[simp] theorem State.over_iff (s : State) : s.over = true ↔ s.seq = .done ∨ s.seq = .abort := by
  cases h : s.seq <;> simp [State.over, h]

@[simp] theorem State.over_false_iff (s : State) : s.over = false ↔ s.seq ≠ .done ∧ s.seq ≠ .abort := by
  cases h : s.seq <;> simp [State.over, h]

end Sys2Proof.Machine
end

