-- ==== Sys2Proof/Laws/State.lean ====
section
/-! SUPPORT. One lemma per field per update of the state, each true by unfolding the update once: a later proof cites these and
unfolds no record update. Fields that an update leaves free (spec/60_exceptions.md R158, spec/70_reset_and_hazards.md R175)
have no lemma. -/

namespace Sys2Proof.Machine

section
variable (s : State)

/-! `State.putByte` -/

@[simp] theorem State.putByte_lit (c : Byte) : (s.putByte c).lit = s.lit := rfl
@[simp] theorem State.putByte_litN (c : Byte) : (s.putByte c).litN = s.litN := rfl
@[simp] theorem State.putByte_nulls (c : Byte) : (s.putByte c).nulls = s.nulls := rfl
@[simp] theorem State.putByte_remByte (c : Byte) : (s.putByte c).remByte = s.remByte := rfl
@[simp] theorem State.putByte_remValid (c : Byte) : (s.putByte c).remValid = s.remValid := rfl
@[simp] theorem State.putByte_col (c : Byte) : (s.putByte c).col = s.col := rfl
@[simp] theorem State.putByte_fill (c : Byte) : (s.putByte c).fill = s.fill := rfl
@[simp] theorem State.putByte_seq (c : Byte) : (s.putByte c).seq = s.seq := rfl
@[simp] theorem State.putByte_err (c : Byte) : (s.putByte c).err = s.err := rfl
@[simp] theorem State.putByte_args (c : Byte) : (s.putByte c).args = s.args := rfl
@[simp] theorem State.putByte_ipos (c : Byte) : (s.putByte c).ipos = s.ipos := rfl
@[simp] theorem State.putByte_out (c : Byte) : (s.putByte c).out = s.out ++ [c] := rfl
@[simp] theorem State.putByte_reads (c : Byte) : (s.putByte c).reads = s.reads := rfl
@[simp] theorem State.putByte_writes (c : Byte) : (s.putByte c).writes = s.writes + 1 := rfl
@[simp] theorem State.putByte_call (c : Byte) : (s.putByte c).call = s.call := rfl
@[simp] theorem State.putByte_offered (c : Byte) : (s.putByte c).offered = s.offered := rfl
@[simp] theorem State.putByte_resetLine (c : Byte) : (s.putByte c).resetLine = s.resetLine := rfl
@[simp] theorem State.putByte_request (c : Byte) : (s.putByte c).request = s.request := rfl
@[simp] theorem State.putByte_unitWires (c : Byte) : (s.putByte c).unitWires = s.unitWires := rfl
@[simp] theorem State.putByte_result (c : Byte) : (s.putByte c).result = s.result := rfl
@[simp] theorem State.putByte_fresh (c : Byte) : (s.putByte c).fresh = s.fresh := rfl

/-! `State.putBytes` -/

@[simp] theorem State.putBytes_lit (bytes : List Byte) : (s.putBytes bytes).lit = s.lit := rfl
@[simp] theorem State.putBytes_litN (bytes : List Byte) : (s.putBytes bytes).litN = s.litN := rfl
@[simp] theorem State.putBytes_nulls (bytes : List Byte) : (s.putBytes bytes).nulls = s.nulls := rfl
@[simp] theorem State.putBytes_remByte (bytes : List Byte) : (s.putBytes bytes).remByte = s.remByte := rfl
@[simp] theorem State.putBytes_remValid (bytes : List Byte) : (s.putBytes bytes).remValid = s.remValid := rfl
@[simp] theorem State.putBytes_col (bytes : List Byte) : (s.putBytes bytes).col = s.col := rfl
@[simp] theorem State.putBytes_fill (bytes : List Byte) : (s.putBytes bytes).fill = s.fill := rfl
@[simp] theorem State.putBytes_seq (bytes : List Byte) : (s.putBytes bytes).seq = s.seq := rfl
@[simp] theorem State.putBytes_err (bytes : List Byte) : (s.putBytes bytes).err = s.err := rfl
@[simp] theorem State.putBytes_args (bytes : List Byte) : (s.putBytes bytes).args = s.args := rfl
@[simp] theorem State.putBytes_ipos (bytes : List Byte) : (s.putBytes bytes).ipos = s.ipos := rfl
@[simp] theorem State.putBytes_out (bytes : List Byte) : (s.putBytes bytes).out = s.out ++ bytes := rfl
@[simp] theorem State.putBytes_reads (bytes : List Byte) : (s.putBytes bytes).reads = s.reads := rfl
@[simp] theorem State.putBytes_writes (bytes : List Byte) : (s.putBytes bytes).writes = s.writes + bytes.length := rfl
@[simp] theorem State.putBytes_call (bytes : List Byte) : (s.putBytes bytes).call = s.call := rfl
@[simp] theorem State.putBytes_offered (bytes : List Byte) : (s.putBytes bytes).offered = s.offered := rfl
@[simp] theorem State.putBytes_resetLine (bytes : List Byte) : (s.putBytes bytes).resetLine = s.resetLine := rfl
@[simp] theorem State.putBytes_request (bytes : List Byte) : (s.putBytes bytes).request = s.request := rfl
@[simp] theorem State.putBytes_unitWires (bytes : List Byte) : (s.putBytes bytes).unitWires = s.unitWires := rfl
@[simp] theorem State.putBytes_result (bytes : List Byte) : (s.putBytes bytes).result = s.result := rfl
@[simp] theorem State.putBytes_fresh (bytes : List Byte) : (s.putBytes bytes).fresh = s.fresh := rfl

/-! `State.setCol` -/

@[simp] theorem State.setCol_lit (v : BitVec 7) : (s.setCol v).lit = s.lit := rfl
@[simp] theorem State.setCol_litN (v : BitVec 7) : (s.setCol v).litN = s.litN := rfl
@[simp] theorem State.setCol_nulls (v : BitVec 7) : (s.setCol v).nulls = s.nulls := rfl
@[simp] theorem State.setCol_remByte (v : BitVec 7) : (s.setCol v).remByte = s.remByte := rfl
@[simp] theorem State.setCol_remValid (v : BitVec 7) : (s.setCol v).remValid = s.remValid := rfl
@[simp] theorem State.setCol_col (v : BitVec 7) : (s.setCol v).col = v := rfl
@[simp] theorem State.setCol_fill (v : BitVec 7) : (s.setCol v).fill = s.fill := rfl
@[simp] theorem State.setCol_seq (v : BitVec 7) : (s.setCol v).seq = s.seq := rfl
@[simp] theorem State.setCol_err (v : BitVec 7) : (s.setCol v).err = s.err := rfl
@[simp] theorem State.setCol_args (v : BitVec 7) : (s.setCol v).args = s.args := rfl
@[simp] theorem State.setCol_ipos (v : BitVec 7) : (s.setCol v).ipos = s.ipos := rfl
@[simp] theorem State.setCol_out (v : BitVec 7) : (s.setCol v).out = s.out := rfl
@[simp] theorem State.setCol_reads (v : BitVec 7) : (s.setCol v).reads = s.reads := rfl
@[simp] theorem State.setCol_writes (v : BitVec 7) : (s.setCol v).writes = s.writes := rfl
@[simp] theorem State.setCol_call (v : BitVec 7) : (s.setCol v).call = s.call := rfl
@[simp] theorem State.setCol_offered (v : BitVec 7) : (s.setCol v).offered = s.offered := rfl
@[simp] theorem State.setCol_resetLine (v : BitVec 7) : (s.setCol v).resetLine = s.resetLine := rfl
@[simp] theorem State.setCol_request (v : BitVec 7) : (s.setCol v).request = s.request := rfl
@[simp] theorem State.setCol_unitWires (v : BitVec 7) : (s.setCol v).unitWires = s.unitWires := rfl
@[simp] theorem State.setCol_result (v : BitVec 7) : (s.setCol v).result = s.result := rfl
@[simp] theorem State.setCol_fresh (v : BitVec 7) : (s.setCol v).fresh = s.fresh := rfl

/-! `State.takeByte` -/

@[simp] theorem State.takeByte_lit : (s.takeByte).lit = s.lit := rfl
@[simp] theorem State.takeByte_litN : (s.takeByte).litN = s.litN := rfl
@[simp] theorem State.takeByte_nulls : (s.takeByte).nulls = s.nulls := rfl
@[simp] theorem State.takeByte_remByte : (s.takeByte).remByte = s.remByte := rfl
@[simp] theorem State.takeByte_remValid : (s.takeByte).remValid = s.remValid := rfl
@[simp] theorem State.takeByte_col : (s.takeByte).col = s.col := rfl
@[simp] theorem State.takeByte_fill : (s.takeByte).fill = s.fill := rfl
@[simp] theorem State.takeByte_seq : (s.takeByte).seq = s.seq := rfl
@[simp] theorem State.takeByte_err : (s.takeByte).err = s.err := rfl
@[simp] theorem State.takeByte_args : (s.takeByte).args = s.args := rfl
@[simp] theorem State.takeByte_ipos : (s.takeByte).ipos = s.ipos + 1 := rfl
@[simp] theorem State.takeByte_out : (s.takeByte).out = s.out := rfl
@[simp] theorem State.takeByte_reads : (s.takeByte).reads = s.reads + 1 := rfl
@[simp] theorem State.takeByte_writes : (s.takeByte).writes = s.writes := rfl
@[simp] theorem State.takeByte_call : (s.takeByte).call = s.call := rfl
@[simp] theorem State.takeByte_offered : (s.takeByte).offered = s.offered := rfl
@[simp] theorem State.takeByte_resetLine : (s.takeByte).resetLine = s.resetLine := rfl
@[simp] theorem State.takeByte_request : (s.takeByte).request = s.request := rfl
@[simp] theorem State.takeByte_unitWires : (s.takeByte).unitWires = s.unitWires := rfl
@[simp] theorem State.takeByte_result : (s.takeByte).result = s.result := rfl
@[simp] theorem State.takeByte_fresh : (s.takeByte).fresh = s.fresh := rfl

/-! `State.countRead` -/

@[simp] theorem State.countRead_lit : (s.countRead).lit = s.lit := rfl
@[simp] theorem State.countRead_litN : (s.countRead).litN = s.litN := rfl
@[simp] theorem State.countRead_nulls : (s.countRead).nulls = s.nulls := rfl
@[simp] theorem State.countRead_remByte : (s.countRead).remByte = s.remByte := rfl
@[simp] theorem State.countRead_remValid : (s.countRead).remValid = s.remValid := rfl
@[simp] theorem State.countRead_col : (s.countRead).col = s.col := rfl
@[simp] theorem State.countRead_fill : (s.countRead).fill = s.fill := rfl
@[simp] theorem State.countRead_seq : (s.countRead).seq = s.seq := rfl
@[simp] theorem State.countRead_err : (s.countRead).err = s.err := rfl
@[simp] theorem State.countRead_args : (s.countRead).args = s.args := rfl
@[simp] theorem State.countRead_ipos : (s.countRead).ipos = s.ipos := rfl
@[simp] theorem State.countRead_out : (s.countRead).out = s.out := rfl
@[simp] theorem State.countRead_reads : (s.countRead).reads = s.reads + 1 := rfl
@[simp] theorem State.countRead_writes : (s.countRead).writes = s.writes := rfl
@[simp] theorem State.countRead_call : (s.countRead).call = s.call := rfl
@[simp] theorem State.countRead_offered : (s.countRead).offered = s.offered := rfl
@[simp] theorem State.countRead_resetLine : (s.countRead).resetLine = s.resetLine := rfl
@[simp] theorem State.countRead_request : (s.countRead).request = s.request := rfl
@[simp] theorem State.countRead_unitWires : (s.countRead).unitWires = s.unitWires := rfl
@[simp] theorem State.countRead_result : (s.countRead).result = s.result := rfl
@[simp] theorem State.countRead_fresh : (s.countRead).fresh = s.fresh := rfl

/-! `State.appendLit` -/

@[simp] theorem State.appendLit_lit (b : Byte) : (s.appendLit b).lit = s.lit.set s.litN b := rfl
@[simp] theorem State.appendLit_litN (b : Byte) : (s.appendLit b).litN = s.litN + 1#2 := rfl
@[simp] theorem State.appendLit_nulls (b : Byte) : (s.appendLit b).nulls = s.nulls := rfl
@[simp] theorem State.appendLit_remByte (b : Byte) : (s.appendLit b).remByte = s.remByte := rfl
@[simp] theorem State.appendLit_remValid (b : Byte) : (s.appendLit b).remValid = s.remValid := rfl
@[simp] theorem State.appendLit_col (b : Byte) : (s.appendLit b).col = s.col := rfl
@[simp] theorem State.appendLit_fill (b : Byte) : (s.appendLit b).fill = s.fill := rfl
@[simp] theorem State.appendLit_seq (b : Byte) : (s.appendLit b).seq = s.seq := rfl
@[simp] theorem State.appendLit_err (b : Byte) : (s.appendLit b).err = s.err := rfl
@[simp] theorem State.appendLit_args (b : Byte) : (s.appendLit b).args = s.args := rfl
@[simp] theorem State.appendLit_ipos (b : Byte) : (s.appendLit b).ipos = s.ipos := rfl
@[simp] theorem State.appendLit_out (b : Byte) : (s.appendLit b).out = s.out := rfl
@[simp] theorem State.appendLit_reads (b : Byte) : (s.appendLit b).reads = s.reads := rfl
@[simp] theorem State.appendLit_writes (b : Byte) : (s.appendLit b).writes = s.writes := rfl
@[simp] theorem State.appendLit_call (b : Byte) : (s.appendLit b).call = s.call := rfl
@[simp] theorem State.appendLit_offered (b : Byte) : (s.appendLit b).offered = s.offered := rfl
@[simp] theorem State.appendLit_resetLine (b : Byte) : (s.appendLit b).resetLine = s.resetLine := rfl
@[simp] theorem State.appendLit_request (b : Byte) : (s.appendLit b).request = s.request := rfl
@[simp] theorem State.appendLit_unitWires (b : Byte) : (s.appendLit b).unitWires = s.unitWires := rfl
@[simp] theorem State.appendLit_result (b : Byte) : (s.appendLit b).result = s.result := rfl
@[simp] theorem State.appendLit_fresh (b : Byte) : (s.appendLit b).fresh = s.fresh := rfl

/-! `State.countNull` -/

@[simp] theorem State.countNull_lit : (s.countNull).lit = s.lit := rfl
@[simp] theorem State.countNull_litN : (s.countNull).litN = s.litN := rfl
@[simp] theorem State.countNull_nulls : (s.countNull).nulls = s.nulls + 1#7 := rfl
@[simp] theorem State.countNull_remByte : (s.countNull).remByte = s.remByte := rfl
@[simp] theorem State.countNull_remValid : (s.countNull).remValid = s.remValid := rfl
@[simp] theorem State.countNull_col : (s.countNull).col = s.col := rfl
@[simp] theorem State.countNull_fill : (s.countNull).fill = s.fill := rfl
@[simp] theorem State.countNull_seq : (s.countNull).seq = s.seq := rfl
@[simp] theorem State.countNull_err : (s.countNull).err = s.err := rfl
@[simp] theorem State.countNull_args : (s.countNull).args = s.args := rfl
@[simp] theorem State.countNull_ipos : (s.countNull).ipos = s.ipos := rfl
@[simp] theorem State.countNull_out : (s.countNull).out = s.out := rfl
@[simp] theorem State.countNull_reads : (s.countNull).reads = s.reads := rfl
@[simp] theorem State.countNull_writes : (s.countNull).writes = s.writes := rfl
@[simp] theorem State.countNull_call : (s.countNull).call = s.call := rfl
@[simp] theorem State.countNull_offered : (s.countNull).offered = s.offered := rfl
@[simp] theorem State.countNull_resetLine : (s.countNull).resetLine = s.resetLine := rfl
@[simp] theorem State.countNull_request : (s.countNull).request = s.request := rfl
@[simp] theorem State.countNull_unitWires : (s.countNull).unitWires = s.unitWires := rfl
@[simp] theorem State.countNull_result : (s.countNull).result = s.result := rfl
@[simp] theorem State.countNull_fresh : (s.countNull).fresh = s.fresh := rfl

/-! `State.holdByte` -/

@[simp] theorem State.holdByte_lit (b : Byte) : (s.holdByte b).lit = s.lit := rfl
@[simp] theorem State.holdByte_litN (b : Byte) : (s.holdByte b).litN = s.litN := rfl
@[simp] theorem State.holdByte_nulls (b : Byte) : (s.holdByte b).nulls = s.nulls := rfl
@[simp] theorem State.holdByte_remByte (b : Byte) : (s.holdByte b).remByte = b := rfl
@[simp] theorem State.holdByte_remValid (b : Byte) : (s.holdByte b).remValid = true := rfl
@[simp] theorem State.holdByte_col (b : Byte) : (s.holdByte b).col = s.col := rfl
@[simp] theorem State.holdByte_fill (b : Byte) : (s.holdByte b).fill = s.fill := rfl
@[simp] theorem State.holdByte_seq (b : Byte) : (s.holdByte b).seq = s.seq := rfl
@[simp] theorem State.holdByte_err (b : Byte) : (s.holdByte b).err = s.err := rfl
@[simp] theorem State.holdByte_args (b : Byte) : (s.holdByte b).args = s.args := rfl
@[simp] theorem State.holdByte_ipos (b : Byte) : (s.holdByte b).ipos = s.ipos := rfl
@[simp] theorem State.holdByte_out (b : Byte) : (s.holdByte b).out = s.out := rfl
@[simp] theorem State.holdByte_reads (b : Byte) : (s.holdByte b).reads = s.reads := rfl
@[simp] theorem State.holdByte_writes (b : Byte) : (s.holdByte b).writes = s.writes := rfl
@[simp] theorem State.holdByte_call (b : Byte) : (s.holdByte b).call = s.call := rfl
@[simp] theorem State.holdByte_offered (b : Byte) : (s.holdByte b).offered = s.offered := rfl
@[simp] theorem State.holdByte_resetLine (b : Byte) : (s.holdByte b).resetLine = s.resetLine := rfl
@[simp] theorem State.holdByte_request (b : Byte) : (s.holdByte b).request = s.request := rfl
@[simp] theorem State.holdByte_unitWires (b : Byte) : (s.holdByte b).unitWires = s.unitWires := rfl
@[simp] theorem State.holdByte_result (b : Byte) : (s.holdByte b).result = s.result := rfl
@[simp] theorem State.holdByte_fresh (b : Byte) : (s.holdByte b).fresh = s.fresh := rfl

/-! `State.nullToLit` -/

@[simp] theorem State.nullToLit_lit : (s.nullToLit).lit = s.lit.set 0#2 0x00#8 := rfl
@[simp] theorem State.nullToLit_litN : (s.nullToLit).litN = 1#2 := rfl
@[simp] theorem State.nullToLit_nulls : (s.nullToLit).nulls = 0#7 := rfl
@[simp] theorem State.nullToLit_remByte : (s.nullToLit).remByte = s.remByte := rfl
@[simp] theorem State.nullToLit_remValid : (s.nullToLit).remValid = s.remValid := rfl
@[simp] theorem State.nullToLit_col : (s.nullToLit).col = s.col := rfl
@[simp] theorem State.nullToLit_fill : (s.nullToLit).fill = s.fill := rfl
@[simp] theorem State.nullToLit_seq : (s.nullToLit).seq = s.seq := rfl
@[simp] theorem State.nullToLit_err : (s.nullToLit).err = s.err := rfl
@[simp] theorem State.nullToLit_args : (s.nullToLit).args = s.args := rfl
@[simp] theorem State.nullToLit_ipos : (s.nullToLit).ipos = s.ipos := rfl
@[simp] theorem State.nullToLit_out : (s.nullToLit).out = s.out := rfl
@[simp] theorem State.nullToLit_reads : (s.nullToLit).reads = s.reads := rfl
@[simp] theorem State.nullToLit_writes : (s.nullToLit).writes = s.writes := rfl
@[simp] theorem State.nullToLit_call : (s.nullToLit).call = s.call := rfl
@[simp] theorem State.nullToLit_offered : (s.nullToLit).offered = s.offered := rfl
@[simp] theorem State.nullToLit_resetLine : (s.nullToLit).resetLine = s.resetLine := rfl
@[simp] theorem State.nullToLit_request : (s.nullToLit).request = s.request := rfl
@[simp] theorem State.nullToLit_unitWires : (s.nullToLit).unitWires = s.unitWires := rfl
@[simp] theorem State.nullToLit_result : (s.nullToLit).result = s.result := rfl
@[simp] theorem State.nullToLit_fresh : (s.nullToLit).fresh = s.fresh := rfl

/-! `State.returnToken` -/

@[simp] theorem State.returnToken_lit (t : Token) : (s.returnToken t).lit = s.lit := rfl
@[simp] theorem State.returnToken_litN (t : Token) : (s.returnToken t).litN = s.litN := rfl
@[simp] theorem State.returnToken_nulls (t : Token) : (s.returnToken t).nulls = s.nulls := rfl
@[simp] theorem State.returnToken_remByte (t : Token) : (s.returnToken t).remByte = s.remByte := rfl
@[simp] theorem State.returnToken_remValid (t : Token) : (s.returnToken t).remValid = s.remValid := rfl
@[simp] theorem State.returnToken_col (t : Token) : (s.returnToken t).col = s.col := rfl
@[simp] theorem State.returnToken_fill (t : Token) : (s.returnToken t).fill = s.fill := rfl
@[simp] theorem State.returnToken_seq (t : Token) : (s.returnToken t).seq = s.seq := rfl
@[simp] theorem State.returnToken_err (t : Token) : (s.returnToken t).err = s.err := rfl
@[simp] theorem State.returnToken_args (t : Token) : (s.returnToken t).args = s.args := rfl
@[simp] theorem State.returnToken_ipos (t : Token) : (s.returnToken t).ipos = s.ipos := rfl
@[simp] theorem State.returnToken_out (t : Token) : (s.returnToken t).out = s.out := rfl
@[simp] theorem State.returnToken_reads (t : Token) : (s.returnToken t).reads = s.reads := rfl
@[simp] theorem State.returnToken_writes (t : Token) : (s.returnToken t).writes = s.writes := rfl
@[simp] theorem State.returnToken_call (t : Token) : (s.returnToken t).call = .returned t := rfl
@[simp] theorem State.returnToken_offered (t : Token) : (s.returnToken t).offered = s.offered := rfl
@[simp] theorem State.returnToken_resetLine (t : Token) : (s.returnToken t).resetLine = s.resetLine := rfl
@[simp] theorem State.returnToken_request (t : Token) : (s.returnToken t).request = s.request := rfl
@[simp] theorem State.returnToken_unitWires (t : Token) : (s.returnToken t).unitWires = s.unitWires := rfl
@[simp] theorem State.returnToken_result (t : Token) : (s.returnToken t).result = s.result := rfl
@[simp] theorem State.returnToken_fresh (t : Token) : (s.returnToken t).fresh = s.fresh := rfl

/-! `State.takeToken` -/

@[simp] theorem State.takeToken_lit (v : BitVec 2) : (s.takeToken v).lit = s.lit := rfl
@[simp] theorem State.takeToken_litN (v : BitVec 2) : (s.takeToken v).litN = s.litN := rfl
@[simp] theorem State.takeToken_nulls (v : BitVec 2) : (s.takeToken v).nulls = s.nulls := rfl
@[simp] theorem State.takeToken_remByte (v : BitVec 2) : (s.takeToken v).remByte = s.remByte := rfl
@[simp] theorem State.takeToken_remValid (v : BitVec 2) : (s.takeToken v).remValid = s.remValid := rfl
@[simp] theorem State.takeToken_col (v : BitVec 2) : (s.takeToken v).col = s.col := rfl
@[simp] theorem State.takeToken_fill (v : BitVec 2) : (s.takeToken v).fill = v := rfl
@[simp] theorem State.takeToken_seq (v : BitVec 2) : (s.takeToken v).seq = s.seq := rfl
@[simp] theorem State.takeToken_err (v : BitVec 2) : (s.takeToken v).err = s.err := rfl
@[simp] theorem State.takeToken_args (v : BitVec 2) : (s.takeToken v).args = s.args := rfl
@[simp] theorem State.takeToken_ipos (v : BitVec 2) : (s.takeToken v).ipos = s.ipos := rfl
@[simp] theorem State.takeToken_out (v : BitVec 2) : (s.takeToken v).out = s.out := rfl
@[simp] theorem State.takeToken_reads (v : BitVec 2) : (s.takeToken v).reads = s.reads := rfl
@[simp] theorem State.takeToken_writes (v : BitVec 2) : (s.takeToken v).writes = s.writes := rfl
@[simp] theorem State.takeToken_call (v : BitVec 2) : (s.takeToken v).call = .idle := rfl
@[simp] theorem State.takeToken_offered (v : BitVec 2) : (s.takeToken v).offered = s.offered := rfl
@[simp] theorem State.takeToken_resetLine (v : BitVec 2) : (s.takeToken v).resetLine = s.resetLine := rfl
@[simp] theorem State.takeToken_request (v : BitVec 2) : (s.takeToken v).request = s.request := rfl
@[simp] theorem State.takeToken_unitWires (v : BitVec 2) : (s.takeToken v).unitWires = s.unitWires := rfl
@[simp] theorem State.takeToken_result (v : BitVec 2) : (s.takeToken v).result = s.result := rfl
@[simp] theorem State.takeToken_fresh (v : BitVec 2) : (s.takeToken v).fresh = s.fresh := rfl

/-! `State.setSeq` -/

@[simp] theorem State.setSeq_lit (q : Seq) : (s.setSeq q).lit = s.lit := rfl
@[simp] theorem State.setSeq_litN (q : Seq) : (s.setSeq q).litN = s.litN := rfl
@[simp] theorem State.setSeq_nulls (q : Seq) : (s.setSeq q).nulls = s.nulls := rfl
@[simp] theorem State.setSeq_remByte (q : Seq) : (s.setSeq q).remByte = s.remByte := rfl
@[simp] theorem State.setSeq_remValid (q : Seq) : (s.setSeq q).remValid = s.remValid := rfl
@[simp] theorem State.setSeq_col (q : Seq) : (s.setSeq q).col = s.col := rfl
@[simp] theorem State.setSeq_fill (q : Seq) : (s.setSeq q).fill = s.fill := rfl
@[simp] theorem State.setSeq_seq (q : Seq) : (s.setSeq q).seq = q := rfl
@[simp] theorem State.setSeq_err (q : Seq) : (s.setSeq q).err = s.err := rfl
@[simp] theorem State.setSeq_args (q : Seq) : (s.setSeq q).args = s.args := rfl
@[simp] theorem State.setSeq_ipos (q : Seq) : (s.setSeq q).ipos = s.ipos := rfl
@[simp] theorem State.setSeq_out (q : Seq) : (s.setSeq q).out = s.out := rfl
@[simp] theorem State.setSeq_reads (q : Seq) : (s.setSeq q).reads = s.reads := rfl
@[simp] theorem State.setSeq_writes (q : Seq) : (s.setSeq q).writes = s.writes := rfl
@[simp] theorem State.setSeq_call (q : Seq) : (s.setSeq q).call = s.call := rfl
@[simp] theorem State.setSeq_offered (q : Seq) : (s.setSeq q).offered = s.offered := rfl
@[simp] theorem State.setSeq_resetLine (q : Seq) : (s.setSeq q).resetLine = s.resetLine := rfl
@[simp] theorem State.setSeq_request (q : Seq) : (s.setSeq q).request = s.request := rfl
@[simp] theorem State.setSeq_unitWires (q : Seq) : (s.setSeq q).unitWires = s.unitWires := rfl
@[simp] theorem State.setSeq_result (q : Seq) : (s.setSeq q).result = s.result := rfl
@[simp] theorem State.setSeq_fresh (q : Seq) : (s.setSeq q).fresh = s.fresh := rfl

/-! `State.showResult` -/

@[simp] theorem State.showResult_lit (r : PortResult) : (s.showResult r).lit = s.lit := rfl
@[simp] theorem State.showResult_litN (r : PortResult) : (s.showResult r).litN = s.litN := rfl
@[simp] theorem State.showResult_nulls (r : PortResult) : (s.showResult r).nulls = s.nulls := rfl
@[simp] theorem State.showResult_remByte (r : PortResult) : (s.showResult r).remByte = s.remByte := rfl
@[simp] theorem State.showResult_remValid (r : PortResult) : (s.showResult r).remValid = s.remValid := rfl
@[simp] theorem State.showResult_col (r : PortResult) : (s.showResult r).col = s.col := rfl
@[simp] theorem State.showResult_fill (r : PortResult) : (s.showResult r).fill = s.fill := rfl
@[simp] theorem State.showResult_seq (r : PortResult) : (s.showResult r).seq = s.seq := rfl
@[simp] theorem State.showResult_err (r : PortResult) : (s.showResult r).err = s.err := rfl
@[simp] theorem State.showResult_args (r : PortResult) : (s.showResult r).args = s.args := rfl
@[simp] theorem State.showResult_ipos (r : PortResult) : (s.showResult r).ipos = s.ipos := rfl
@[simp] theorem State.showResult_out (r : PortResult) : (s.showResult r).out = s.out := rfl
@[simp] theorem State.showResult_reads (r : PortResult) : (s.showResult r).reads = s.reads := rfl
@[simp] theorem State.showResult_writes (r : PortResult) : (s.showResult r).writes = s.writes := rfl
@[simp] theorem State.showResult_call (r : PortResult) : (s.showResult r).call = s.call := rfl
@[simp] theorem State.showResult_offered (r : PortResult) : (s.showResult r).offered = s.offered := rfl
@[simp] theorem State.showResult_resetLine (r : PortResult) : (s.showResult r).resetLine = s.resetLine := rfl
@[simp] theorem State.showResult_request (r : PortResult) : (s.showResult r).request = s.request := rfl
@[simp] theorem State.showResult_unitWires (r : PortResult) : (s.showResult r).unitWires = s.unitWires := rfl
@[simp] theorem State.showResult_result (r : PortResult) : (s.showResult r).result = r := rfl
@[simp] theorem State.showResult_fresh (r : PortResult) : (s.showResult r).fresh = s.fresh := rfl

/-! `State.acceptToken` -/

@[simp] theorem State.acceptToken_lit (t : Token) : (s.acceptToken t).lit = s.lit := rfl
@[simp] theorem State.acceptToken_litN (t : Token) : (s.acceptToken t).litN = s.litN := rfl
@[simp] theorem State.acceptToken_nulls (t : Token) : (s.acceptToken t).nulls = s.nulls := rfl
@[simp] theorem State.acceptToken_remByte (t : Token) : (s.acceptToken t).remByte = s.remByte := rfl
@[simp] theorem State.acceptToken_remValid (t : Token) : (s.acceptToken t).remValid = s.remValid := rfl
@[simp] theorem State.acceptToken_col (t : Token) : (s.acceptToken t).col = s.col := rfl
@[simp] theorem State.acceptToken_fill (t : Token) : (s.acceptToken t).fill = s.fill := rfl
@[simp] theorem State.acceptToken_seq (t : Token) : (s.acceptToken t).seq = s.seq := rfl
@[simp] theorem State.acceptToken_err (t : Token) : (s.acceptToken t).err = s.err := rfl
@[simp] theorem State.acceptToken_args (t : Token) : (s.acceptToken t).args = s.args := rfl
@[simp] theorem State.acceptToken_ipos (t : Token) : (s.acceptToken t).ipos = s.ipos := rfl
@[simp] theorem State.acceptToken_out (t : Token) : (s.acceptToken t).out = s.out := rfl
@[simp] theorem State.acceptToken_reads (t : Token) : (s.acceptToken t).reads = s.reads := rfl
@[simp] theorem State.acceptToken_writes (t : Token) : (s.acceptToken t).writes = s.writes := rfl
@[simp] theorem State.acceptToken_call (t : Token) : (s.acceptToken t).call = .accepted t := rfl
@[simp] theorem State.acceptToken_offered (t : Token) : (s.acceptToken t).offered = s.offered := rfl
@[simp] theorem State.acceptToken_resetLine (t : Token) : (s.acceptToken t).resetLine = s.resetLine := rfl
@[simp] theorem State.acceptToken_request (t : Token) : (s.acceptToken t).request = s.request := rfl
@[simp] theorem State.acceptToken_unitWires (t : Token) : (s.acceptToken t).unitWires = s.unitWires := rfl
@[simp] theorem State.acceptToken_result (t : Token) : (s.acceptToken t).result = s.result := rfl
@[simp] theorem State.acceptToken_fresh (t : Token) : (s.acceptToken t).fresh = s.fresh := rfl

/-! `State.padLit` -/

@[simp] theorem State.padLit_lit (n : BitVec 2) : (s.padLit n).lit = s.lit.padFrom n := rfl
@[simp] theorem State.padLit_litN (n : BitVec 2) : (s.padLit n).litN = s.litN := rfl
@[simp] theorem State.padLit_nulls (n : BitVec 2) : (s.padLit n).nulls = s.nulls := rfl
@[simp] theorem State.padLit_remByte (n : BitVec 2) : (s.padLit n).remByte = s.remByte := rfl
@[simp] theorem State.padLit_remValid (n : BitVec 2) : (s.padLit n).remValid = s.remValid := rfl
@[simp] theorem State.padLit_col (n : BitVec 2) : (s.padLit n).col = s.col := rfl
@[simp] theorem State.padLit_fill (n : BitVec 2) : (s.padLit n).fill = s.fill := rfl
@[simp] theorem State.padLit_seq (n : BitVec 2) : (s.padLit n).seq = s.seq := rfl
@[simp] theorem State.padLit_err (n : BitVec 2) : (s.padLit n).err = s.err := rfl
@[simp] theorem State.padLit_args (n : BitVec 2) : (s.padLit n).args = s.args := rfl
@[simp] theorem State.padLit_ipos (n : BitVec 2) : (s.padLit n).ipos = s.ipos := rfl
@[simp] theorem State.padLit_out (n : BitVec 2) : (s.padLit n).out = s.out := rfl
@[simp] theorem State.padLit_reads (n : BitVec 2) : (s.padLit n).reads = s.reads := rfl
@[simp] theorem State.padLit_writes (n : BitVec 2) : (s.padLit n).writes = s.writes := rfl
@[simp] theorem State.padLit_call (n : BitVec 2) : (s.padLit n).call = s.call := rfl
@[simp] theorem State.padLit_offered (n : BitVec 2) : (s.padLit n).offered = s.offered := rfl
@[simp] theorem State.padLit_resetLine (n : BitVec 2) : (s.padLit n).resetLine = s.resetLine := rfl
@[simp] theorem State.padLit_request (n : BitVec 2) : (s.padLit n).request = s.request := rfl
@[simp] theorem State.padLit_unitWires (n : BitVec 2) : (s.padLit n).unitWires = s.unitWires := rfl
@[simp] theorem State.padLit_result (n : BitVec 2) : (s.padLit n).result = s.result := rfl
@[simp] theorem State.padLit_fresh (n : BitVec 2) : (s.padLit n).fresh = s.fresh := rfl

/-! `State.raiseIOError` -/

@[simp] theorem State.raiseIOError_seq (w : Stream) : (s.raiseIOError w).seq = .abort := rfl
@[simp] theorem State.raiseIOError_err (w : Stream) : (s.raiseIOError w).err = errOf w := rfl
@[simp] theorem State.raiseIOError_args (w : Stream) : (s.raiseIOError w).args = s.args := rfl
@[simp] theorem State.raiseIOError_reads (w : Stream) : (s.raiseIOError w).reads = s.reads := rfl
@[simp] theorem State.raiseIOError_writes (w : Stream) : (s.raiseIOError w).writes = s.writes := rfl
@[simp] theorem State.raiseIOError_call (w : Stream) : (s.raiseIOError w).call = .idle := rfl
@[simp] theorem State.raiseIOError_offered (w : Stream) : (s.raiseIOError w).offered = s.offered := rfl
@[simp] theorem State.raiseIOError_resetLine (w : Stream) : (s.raiseIOError w).resetLine = s.resetLine := rfl
@[simp] theorem State.raiseIOError_request (w : Stream) : (s.raiseIOError w).request = s.request := rfl
@[simp] theorem State.raiseIOError_unitWires (w : Stream) : (s.raiseIOError w).unitWires = s.unitWires := rfl
@[simp] theorem State.raiseIOError_result (w : Stream) : (s.raiseIOError w).result = s.result := rfl
@[simp] theorem State.raiseIOError_fresh (w : Stream) : (s.raiseIOError w).fresh = s.fresh + 1 := rfl

/-! `State.resetSession` -/

@[simp] theorem State.resetSession_litN : (s.resetSession).litN = 0#2 := rfl
@[simp] theorem State.resetSession_nulls : (s.resetSession).nulls = 0#7 := rfl
@[simp] theorem State.resetSession_remValid : (s.resetSession).remValid = false := rfl
@[simp] theorem State.resetSession_col : (s.resetSession).col = 0#7 := rfl
@[simp] theorem State.resetSession_fill : (s.resetSession).fill = 0#2 := rfl
@[simp] theorem State.resetSession_seq : (s.resetSession).seq = .start := rfl
@[simp] theorem State.resetSession_err : (s.resetSession).err = .none := rfl
@[simp] theorem State.resetSession_args : (s.resetSession).args = s.offered := rfl
@[simp] theorem State.resetSession_ipos : (s.resetSession).ipos = 0 := rfl
@[simp] theorem State.resetSession_out : (s.resetSession).out = [] := rfl
@[simp] theorem State.resetSession_reads : (s.resetSession).reads = 0 := rfl
@[simp] theorem State.resetSession_writes : (s.resetSession).writes = 0 := rfl
@[simp] theorem State.resetSession_call : (s.resetSession).call = .idle := rfl
@[simp] theorem State.resetSession_offered : (s.resetSession).offered = s.offered := rfl
@[simp] theorem State.resetSession_resetLine : (s.resetSession).resetLine = false := rfl
@[simp] theorem State.resetSession_request : (s.resetSession).request = s.request := rfl
@[simp] theorem State.resetSession_unitWires : (s.resetSession).unitWires = none := rfl
@[simp] theorem State.resetSession_result : (s.resetSession).result = s.result := rfl
@[simp] theorem State.resetSession_fresh : (s.resetSession).fresh = s.fresh + 1 := rfl

end

/-! `State.raiseIOError`: what it leaves determinate of the streams. -/

@[simp] theorem State.raiseIOError_inp_out (s : State) : (s.raiseIOError .inp).out = s.out := rfl

@[simp] theorem State.raiseIOError_out_ipos (s : State) : (s.raiseIOError .out).ipos = s.ipos := rfl

theorem State.raiseIOError_out_prefix (s : State) (w : Stream) : s.out <+: (s.raiseIOError w).out := by
  cases w
  · exact List.prefix_rfl
  · exact List.prefix_append _ _

/-! `State.openCall`: its three cases (R81), and the fields it leaves alone. -/

theorem State.openCall_empty {s : State} (h : s.remValid = false) :
    s.openCall = { s with litN := 0#2, nulls := 0#7, call := .running } := by
  simp [State.openCall, h]

theorem State.openCall_null {s : State} (h : s.remValid = true) (hb : s.remByte = 0x00#8) :
    s.openCall = { s with litN := 0#2, nulls := 1#7, remValid := false, call := .running } := by
  simp [State.openCall, h, hb, isNull, State.countNull]

theorem State.openCall_literal {s : State} (h : s.remValid = true) (hb : s.remByte ≠ 0x00#8) :
    s.openCall =
      { s with lit := s.lit.set 0#2 s.remByte, litN := 1#2, nulls := 0#7, remValid := false, call := .running } := by
  simp [State.openCall, h, hb, isNull, State.appendLit]

/-- Everything a call's start can do. -/
theorem State.openCall_cases (s : State) :
    (s.remValid = false ∧ s.openCall = { s with litN := 0#2, nulls := 0#7, call := .running }) ∨
    (s.remValid = true ∧ s.remByte = 0x00#8 ∧
      s.openCall = { s with litN := 0#2, nulls := 1#7, remValid := false, call := .running }) ∨
    (s.remValid = true ∧ s.remByte ≠ 0x00#8 ∧ s.openCall =
      { s with lit := s.lit.set 0#2 s.remByte, litN := 1#2, nulls := 0#7, remValid := false, call := .running }) := by
  by_cases h : s.remValid = true
  · by_cases hb : s.remByte = 0x00#8
    · exact .inr (.inl ⟨h, hb, State.openCall_null h hb⟩)
    · exact .inr (.inr ⟨h, hb, State.openCall_literal h hb⟩)
  · simp only [Bool.not_eq_true] at h
    exact .inl ⟨h, State.openCall_empty h⟩

section
variable (s : State)

@[simp] theorem State.openCall_remByte : s.openCall.remByte = s.remByte := by
  obtain ⟨_, h⟩ | ⟨_, _, h⟩ | ⟨_, _, h⟩ := s.openCall_cases <;> simp [h]
@[simp] theorem State.openCall_col : s.openCall.col = s.col := by
  obtain ⟨_, h⟩ | ⟨_, _, h⟩ | ⟨_, _, h⟩ := s.openCall_cases <;> simp [h]
@[simp] theorem State.openCall_fill : s.openCall.fill = s.fill := by
  obtain ⟨_, h⟩ | ⟨_, _, h⟩ | ⟨_, _, h⟩ := s.openCall_cases <;> simp [h]
@[simp] theorem State.openCall_seq : s.openCall.seq = s.seq := by
  obtain ⟨_, h⟩ | ⟨_, _, h⟩ | ⟨_, _, h⟩ := s.openCall_cases <;> simp [h]
@[simp] theorem State.openCall_err : s.openCall.err = s.err := by
  obtain ⟨_, h⟩ | ⟨_, _, h⟩ | ⟨_, _, h⟩ := s.openCall_cases <;> simp [h]
@[simp] theorem State.openCall_args : s.openCall.args = s.args := by
  obtain ⟨_, h⟩ | ⟨_, _, h⟩ | ⟨_, _, h⟩ := s.openCall_cases <;> simp [h]
@[simp] theorem State.openCall_ipos : s.openCall.ipos = s.ipos := by
  obtain ⟨_, h⟩ | ⟨_, _, h⟩ | ⟨_, _, h⟩ := s.openCall_cases <;> simp [h]
@[simp] theorem State.openCall_out : s.openCall.out = s.out := by
  obtain ⟨_, h⟩ | ⟨_, _, h⟩ | ⟨_, _, h⟩ := s.openCall_cases <;> simp [h]
@[simp] theorem State.openCall_reads : s.openCall.reads = s.reads := by
  obtain ⟨_, h⟩ | ⟨_, _, h⟩ | ⟨_, _, h⟩ := s.openCall_cases <;> simp [h]
@[simp] theorem State.openCall_writes : s.openCall.writes = s.writes := by
  obtain ⟨_, h⟩ | ⟨_, _, h⟩ | ⟨_, _, h⟩ := s.openCall_cases <;> simp [h]
@[simp] theorem State.openCall_call : s.openCall.call = .running := by
  obtain ⟨_, h⟩ | ⟨_, _, h⟩ | ⟨_, _, h⟩ := s.openCall_cases <;> simp [h]
@[simp] theorem State.openCall_offered : s.openCall.offered = s.offered := by
  obtain ⟨_, h⟩ | ⟨_, _, h⟩ | ⟨_, _, h⟩ := s.openCall_cases <;> simp [h]
@[simp] theorem State.openCall_resetLine : s.openCall.resetLine = s.resetLine := by
  obtain ⟨_, h⟩ | ⟨_, _, h⟩ | ⟨_, _, h⟩ := s.openCall_cases <;> simp [h]
@[simp] theorem State.openCall_request : s.openCall.request = s.request := by
  obtain ⟨_, h⟩ | ⟨_, _, h⟩ | ⟨_, _, h⟩ := s.openCall_cases <;> simp [h]
@[simp] theorem State.openCall_unitWires : s.openCall.unitWires = s.unitWires := by
  obtain ⟨_, h⟩ | ⟨_, _, h⟩ | ⟨_, _, h⟩ := s.openCall_cases <;> simp [h]
@[simp] theorem State.openCall_result : s.openCall.result = s.result := by
  obtain ⟨_, h⟩ | ⟨_, _, h⟩ | ⟨_, _, h⟩ := s.openCall_cases <;> simp [h]
@[simp] theorem State.openCall_fresh : s.openCall.fresh = s.fresh := by
  obtain ⟨_, h⟩ | ⟨_, _, h⟩ | ⟨_, _, h⟩ := s.openCall_cases <;> simp [h]
@[simp] theorem State.openCall_remValid : s.openCall.remValid = false := by
  obtain ⟨hv, h⟩ | ⟨_, _, h⟩ | ⟨_, _, h⟩ := s.openCall_cases <;> simp [h]
  exact hv

/-! `State.closeTriple`: the fields it leaves alone. -/

theorem State.closeTriple_cases :
    (s.litN = 3#2 ∧ s.closeTriple = s.returnToken (.literal 3#2)) ∨ (s.litN ≠ 3#2 ∧ s.closeTriple = s) := by
  by_cases h : s.litN = 3#2 <;> simp [State.closeTriple, State.litFull, h]

@[simp] theorem State.closeTriple_lit : s.closeTriple.lit = s.lit := by
  obtain ⟨_, h⟩ | ⟨_, h⟩ := s.closeTriple_cases <;> simp [h]
@[simp] theorem State.closeTriple_litN : s.closeTriple.litN = s.litN := by
  obtain ⟨_, h⟩ | ⟨_, h⟩ := s.closeTriple_cases <;> simp [h]
@[simp] theorem State.closeTriple_nulls : s.closeTriple.nulls = s.nulls := by
  obtain ⟨_, h⟩ | ⟨_, h⟩ := s.closeTriple_cases <;> simp [h]
@[simp] theorem State.closeTriple_remByte : s.closeTriple.remByte = s.remByte := by
  obtain ⟨_, h⟩ | ⟨_, h⟩ := s.closeTriple_cases <;> simp [h]
@[simp] theorem State.closeTriple_remValid : s.closeTriple.remValid = s.remValid := by
  obtain ⟨_, h⟩ | ⟨_, h⟩ := s.closeTriple_cases <;> simp [h]
@[simp] theorem State.closeTriple_col : s.closeTriple.col = s.col := by
  obtain ⟨_, h⟩ | ⟨_, h⟩ := s.closeTriple_cases <;> simp [h]
@[simp] theorem State.closeTriple_fill : s.closeTriple.fill = s.fill := by
  obtain ⟨_, h⟩ | ⟨_, h⟩ := s.closeTriple_cases <;> simp [h]
@[simp] theorem State.closeTriple_seq : s.closeTriple.seq = s.seq := by
  obtain ⟨_, h⟩ | ⟨_, h⟩ := s.closeTriple_cases <;> simp [h]
@[simp] theorem State.closeTriple_err : s.closeTriple.err = s.err := by
  obtain ⟨_, h⟩ | ⟨_, h⟩ := s.closeTriple_cases <;> simp [h]
@[simp] theorem State.closeTriple_args : s.closeTriple.args = s.args := by
  obtain ⟨_, h⟩ | ⟨_, h⟩ := s.closeTriple_cases <;> simp [h]
@[simp] theorem State.closeTriple_ipos : s.closeTriple.ipos = s.ipos := by
  obtain ⟨_, h⟩ | ⟨_, h⟩ := s.closeTriple_cases <;> simp [h]
@[simp] theorem State.closeTriple_out : s.closeTriple.out = s.out := by
  obtain ⟨_, h⟩ | ⟨_, h⟩ := s.closeTriple_cases <;> simp [h]
@[simp] theorem State.closeTriple_reads : s.closeTriple.reads = s.reads := by
  obtain ⟨_, h⟩ | ⟨_, h⟩ := s.closeTriple_cases <;> simp [h]
@[simp] theorem State.closeTriple_writes : s.closeTriple.writes = s.writes := by
  obtain ⟨_, h⟩ | ⟨_, h⟩ := s.closeTriple_cases <;> simp [h]
@[simp] theorem State.closeTriple_offered : s.closeTriple.offered = s.offered := by
  obtain ⟨_, h⟩ | ⟨_, h⟩ := s.closeTriple_cases <;> simp [h]
@[simp] theorem State.closeTriple_resetLine : s.closeTriple.resetLine = s.resetLine := by
  obtain ⟨_, h⟩ | ⟨_, h⟩ := s.closeTriple_cases <;> simp [h]
@[simp] theorem State.closeTriple_request : s.closeTriple.request = s.request := by
  obtain ⟨_, h⟩ | ⟨_, h⟩ := s.closeTriple_cases <;> simp [h]
@[simp] theorem State.closeTriple_unitWires : s.closeTriple.unitWires = s.unitWires := by
  obtain ⟨_, h⟩ | ⟨_, h⟩ := s.closeTriple_cases <;> simp [h]
@[simp] theorem State.closeTriple_result : s.closeTriple.result = s.result := by
  obtain ⟨_, h⟩ | ⟨_, h⟩ := s.closeTriple_cases <;> simp [h]
@[simp] theorem State.closeTriple_fresh : s.closeTriple.fresh = s.fresh := by
  obtain ⟨_, h⟩ | ⟨_, h⟩ := s.closeTriple_cases <;> simp [h]

end

end Sys2Proof.Machine
end

