-- ==== Sys2Proof/Laws/Ops.lean ====
section
/-! SUPPORT. For each shared operation, once, everything it can do: the accesses, EMIT and what is built on it, the reads, the
appends. A proof about an instruction cites these and does not unfold the operation. -/

namespace Sys2Proof

open Machine

/-! ## An environment that answers -/

theorem WritesAccepted.mono {s : State} {m n : Nat} (h : WritesAccepted s n) (hmn : m ≤ n) : WritesAccepted s m :=
  fun k hk hkm => h k hk (by omega)

/-- The writes that follow the first `n` accepted ones, in a state that differs only by them. -/
theorem WritesAccepted.after {s t : State} {m n : Nat} (h : WritesAccepted s (m + n)) (ha : t.args = s.args)
    (hw : t.writes = s.writes + m) : WritesAccepted t n := by
  intro k hk hkn
  rw [ha]
  exact h k (by omega) (by omega)

theorem ReadsAnswered.now {s : State} {n : Nat} (h : ReadsAnswered s (n + 1)) :
    s.args.readFail ≠ some s.reads ∧ s.args.readMute ≠ some s.reads := h s.reads (Nat.le_refl _) (by omega)

end Sys2Proof

namespace Sys2Proof.Machine

/-! ## Ends of operations -/

@[simp] theorem Run.andThen_ok (s : State) (f : State → Run) : (Run.ok s).andThen f = f s := rfl

@[simp] theorem Run.andThen_aborted (s : State) (f : State → Run) : (Run.aborted s).andThen f = .aborted s := rfl

@[simp] theorem Run.andThen_stuck (r : Fault) (f : State → Run) : (Run.stuck r).andThen f = .stuck r := rfl

@[simp] theorem Run.andThen_refused (r : Refusal) (f : State → Run) : (Run.refused r).andThen f = .refused r := rfl

theorem Run.andThen_assoc (m : Run) (f g : State → Run) :
    (m.andThen f).andThen g = m.andThen fun s => (f s).andThen g := by
  cases m <;> rfl

theorem Run.andThen_eq_ok {m : Run} {f : State → Run} {t : State} :
    m.andThen f = .ok t ↔ ∃ s, m = .ok s ∧ f s = .ok t := by
  cases m <;> simp [Run.andThen]

theorem Run.andThen_eq_aborted {m : Run} {f : State → Run} {t : State} :
    m.andThen f = .aborted t ↔ m = .aborted t ∨ ∃ s, m = .ok s ∧ f s = .aborted t := by
  cases m <;> simp [Run.andThen]

@[simp] theorem Run.outcome_ok (s : State) : (Run.ok s).outcome = .next s := rfl

@[simp] theorem Run.outcome_aborted (s : State) : (Run.aborted s).outcome = .next s := rfl

theorem Run.outcome_eq_next {m : Run} {t : State} : m.outcome = .next t ↔ m = .ok t ∨ m = .aborted t := by
  cases m <;> simp [Run.outcome]

/-! ## What writing leaves alone -/

/-- `t` is `s` after some more output: only `OUT`, the write count and `COL` differ, and `OUT` has grown at its end. -/
def WroteMore (s t : State) : Prop :=
  t = { s with out := t.out, writes := t.writes, col := t.col } ∧ s.out <+: t.out

theorem WroteMore.refl (s : State) : WroteMore s s := ⟨rfl, List.prefix_rfl⟩

theorem WroteMore.trans {s t u : State} (h : WroteMore s t) (k : WroteMore t u) : WroteMore s u := by
  refine ⟨?_, h.2.trans k.2⟩
  have hu := k.1
  rw [h.1] at hu
  exact hu

theorem WroteMore.setCol {s t : State} (h : WroteMore s t) (v : BitVec 7) : WroteMore s (t.setCol v) :=
  h.trans ⟨rfl, List.prefix_rfl⟩

theorem WroteMore.putBytes (s : State) (bytes : List Byte) : WroteMore s (s.putBytes bytes) :=
  ⟨rfl, List.prefix_append _ _⟩

/-- An operation that only writes: where it goes on, only output has been made; where it is aborted, the exception was taken
after only output was made. -/
def Run.OnlyWrites (s : State) (m : Run) : Prop :=
  (∀ t, m = .ok t → WroteMore s t) ∧ (∀ t, m = .aborted t → ∃ u, WroteMore s u ∧ t = u.raiseIOError .out)

theorem Run.OnlyWrites.andThen {s : State} {m : Run} {f : State → Run} (hm : m.OnlyWrites s)
    (hf : ∀ t, m = .ok t → (f t).OnlyWrites t) : (m.andThen f).OnlyWrites s := by
  refine ⟨fun t ht => ?_, fun t ht => ?_⟩
  · obtain ⟨u, hu, hft⟩ := Run.andThen_eq_ok.1 ht
    exact (hm.1 u hu).trans ((hf u hu).1 t hft)
  · obtain h | ⟨u, hu, hft⟩ := Run.andThen_eq_aborted.1 ht
    · exact hm.2 t h
    · obtain ⟨w, hw, rfl⟩ := (hf u hu).2 t hft
      exact ⟨w, (hm.1 u hu).trans hw, rfl⟩

theorem Run.OnlyWrites.ok {s t : State} (h : WroteMore s t) : (Run.ok t).OnlyWrites s :=
  ⟨fun _ e => Run.ok.inj e ▸ h, fun _ e => (nomatch e)⟩

theorem Run.OnlyWrites.aborted {s u : State} (h : WroteMore s u) : (Run.aborted (u.raiseIOError .out)).OnlyWrites s :=
  ⟨fun _ e => (nomatch e), fun _ e => ⟨u, h, (Run.aborted.inj e).symm⟩⟩

theorem Run.OnlyWrites.stuck (s : State) (f : Fault) : (Run.stuck f).OnlyWrites s :=
  ⟨fun _ e => (nomatch e), fun _ e => (nomatch e)⟩

theorem Run.OnlyWrites.refused (s : State) (r : Refusal) : (Run.refused r).OnlyWrites s :=
  ⟨fun _ e => (nomatch e), fun _ e => (nomatch e)⟩

/-! ## The output stream -/

/-- Everything `OutWrite(c)` can do. -/
theorem outWrite_cases (s : State) (c : Byte) :
    (s.args.writeFail ≠ some s.writes ∧ s.args.writeMute ≠ some s.writes ∧ outWrite s c = .ok (s.putByte c)) ∨
    (s.args.writeFail = some s.writes ∧
      outWrite s c = .aborted (State.raiseIOError { s with writes := s.writes + 1 } .out)) ∨
    (s.args.writeMute = some s.writes ∧ outWrite s c = .stuck .writeUnanswered) := by
  unfold outWrite
  by_cases hm : s.args.writeMute = some s.writes
  · simp [hm]
  · by_cases hf : s.args.writeFail = some s.writes <;> simp [hm, hf]

theorem outWrite_onlyWrites (s : State) (c : Byte) : (outWrite s c).OnlyWrites s := by
  obtain ⟨_, _, h⟩ | ⟨_, h⟩ | ⟨_, h⟩ := outWrite_cases s c <;> rw [h]
  · exact .ok ⟨rfl, List.prefix_append _ _⟩
  · exact .aborted (u := { s with writes := s.writes + 1 }) ⟨rfl, List.prefix_rfl⟩
  · exact .stuck _ _

theorem putByte_putBytes (s : State) (c : Byte) (rest : List Byte) :
    (s.putByte c).putBytes rest = s.putBytes (c :: rest) := by
  simp [State.putByte, State.putBytes, Nat.add_assoc, Nat.add_comm 1]

@[simp] theorem putBytes_nil (s : State) : s.putBytes [] = s := by simp [State.putBytes]

theorem putBytes_append (s : State) (a b : List Byte) : (s.putBytes a).putBytes b = s.putBytes (a ++ b) := by
  simp [State.putBytes, Nat.add_assoc]

/-- Accepted writes append their bytes. -/
theorem writeAll_accepted {bytes : List Byte} {s : State} (h : WritesAccepted s bytes.length) :
    writeAll bytes s = .ok (s.putBytes bytes) := by
  induction bytes generalizing s with
  | nil => simp [writeAll]
  | cons c rest ih =>
    have h0 := h s.writes (Nat.le_refl _) (by simp)
    obtain ⟨_, _, hw⟩ | ⟨hf, _⟩ | ⟨hm, _⟩ := outWrite_cases s c
    · rw [writeAll, hw, Run.andThen_ok, ih, putByte_putBytes]
      exact WritesAccepted.after (s := s) (m := 1) (by simpa [Nat.add_comm] using h) rfl rfl
    · exact absurd hf h0.1
    · exact absurd hm h0.2

/-- Everything consecutive writes can do: all bytes appended; or the exception taken at the write after the first `k`, which
are in `OUT`; or one of them never answered. -/
theorem writeAll_cases (bytes : List Byte) (s : State) :
    writeAll bytes s = .ok (s.putBytes bytes) ∨
    (∃ k, k < bytes.length ∧ s.args.writeFail = some (s.writes + k) ∧
      writeAll bytes s =
        .aborted (State.raiseIOError { s.putBytes (bytes.take k) with writes := s.writes + k + 1 } .out)) ∨
    (∃ k, k < bytes.length ∧ s.args.writeMute = some (s.writes + k) ∧
      writeAll bytes s = .stuck .writeUnanswered) := by
  induction bytes generalizing s with
  | nil => simp [writeAll]
  | cons c rest ih =>
    obtain ⟨_, _, hw⟩ | ⟨hf, hw⟩ | ⟨hm, hw⟩ := outWrite_cases s c
    · obtain h | ⟨k, hk, hf, h⟩ | ⟨k, hk, hf, h⟩ := ih (s.putByte c)
      · left
        rw [writeAll, hw, Run.andThen_ok, h, putByte_putBytes]
      · refine .inr (.inl ⟨k + 1, by simpa using hk, ?_, ?_⟩)
        · simpa [Nat.add_assoc, Nat.add_comm 1] using hf
        · rw [writeAll, hw, Run.andThen_ok, h]
          simp [State.putBytes, State.putByte, Nat.add_assoc, Nat.add_comm 1]
      · refine .inr (.inr ⟨k + 1, by simpa using hk, ?_, ?_⟩)
        · simpa [Nat.add_assoc, Nat.add_comm 1] using hf
        · rw [writeAll, hw, Run.andThen_ok, h]
    · exact .inr (.inl ⟨0, by simp, by simpa using hf, by rw [writeAll, hw]; simp⟩)
    · exact .inr (.inr ⟨0, by simp, by simpa using hm, by rw [writeAll, hw]; simp⟩)

theorem writeAll_ok {bytes : List Byte} {s t : State} (h : writeAll bytes s = .ok t) : t = s.putBytes bytes := by
  obtain e | ⟨_, _, _, e⟩ | ⟨_, _, _, e⟩ := writeAll_cases bytes s <;> rw [e] at h <;> cases h
  rfl

theorem writeAll_onlyWrites (bytes : List Byte) (s : State) : (writeAll bytes s).OnlyWrites s := by
  induction bytes generalizing s with
  | nil => exact .ok (WroteMore.refl s)
  | cons c rest ih => exact (outWrite_onlyWrites s c).andThen fun t _ => ih t

theorem outEol_accepted {s : State} (h : WritesAccepted s 2) : outEol s = .ok (s.putBytes [0x0D#8, 0x0A#8]) :=
  writeAll_accepted h

theorem outEol_ok {s t : State} (h : outEol s = .ok t) : t = s.putBytes [0x0D#8, 0x0A#8] := writeAll_ok h

theorem outEol_onlyWrites (s : State) : (outEol s).OnlyWrites s := writeAll_onlyWrites _ s

theorem writeHeaderLine_accepted {hdr : List Byte} {s : State} (h : WritesAccepted s (hdr.length + 2)) :
    writeHeaderLine hdr s = .ok (s.putBytes (hdr ++ [0x0D#8, 0x0A#8])) := by
  rw [writeHeaderLine, writeAll_accepted (h.mono (by omega)), Run.andThen_ok, outEol_accepted, putBytes_append]
  exact h.after rfl rfl

theorem writeHeaderLine_ok {hdr : List Byte} {s t : State} (h : writeHeaderLine hdr s = .ok t) :
    t = s.putBytes (hdr ++ [0x0D#8, 0x0A#8]) := by
  obtain ⟨u, hu, ht⟩ := Run.andThen_eq_ok.1 h
  rw [outEol_ok ht, writeAll_ok hu, putBytes_append]

theorem writeHeaderLine_onlyWrites (hdr : List Byte) (s : State) : (writeHeaderLine hdr s).OnlyWrites s :=
  (writeAll_onlyWrites hdr s).andThen fun t _ => outEol_onlyWrites t

/-! ## The line writer -/

theorem wrapLine_onlyWrites (n : Nat) (s : State) : (wrapLine n s).OnlyWrites s := by
  unfold wrapLine
  split
  · exact (outEol_onlyWrites s).andThen fun t _ => .ok ((WroteMore.refl t).setCol _)
  · exact .ok (WroteMore.refl s)

/-- The group lengths of the line writer (R125). -/
def groupLengthOk (g : List Byte) : Prop := g.length = 2 ∨ g.length = 4

theorem emitGroup_accepted {g : List Byte} {s : State} (hg : groupLengthOk g) (h : WritesAccepted s (emitWrites s g)) :
    emitGroup g s = .ok (afterEmit s g) := by
  have hlen : g.length = Config.escLen ∨ g.length = Config.quadLen := hg
  unfold emitGroup afterEmit wrapLine
  unfold emitWrites at h
  rw [if_pos hlen]
  by_cases hw : 72 < s.col.toNat + g.length
  · rw [if_pos ((State.wrapNeeded_iff s _).2 hw), if_pos hw]
    rw [if_pos hw] at h
    rw [outEol_accepted (h.mono (by omega)), Run.andThen_ok, Run.andThen_ok, writeAll_accepted, Run.andThen_ok]
    · rfl
    · exact h.after (m := 2) rfl rfl
  · rw [if_neg (mt (State.wrapNeeded_iff s _).1 hw), if_neg hw]
    rw [if_neg hw] at h
    rw [Run.andThen_ok, writeAll_accepted (by simpa using h), Run.andThen_ok]
    rfl

/-- Where EMIT goes on, its group had a legal length and the state is the one the rules give. -/
theorem emitGroup_ok {g : List Byte} {s t : State} (h : emitGroup g s = .ok t) :
    groupLengthOk g ∧ t = afterEmit s g := by
  unfold emitGroup at h
  split at h
  · rename_i hlen
    refine ⟨hlen, ?_⟩
    obtain ⟨u, hu, ht⟩ := Run.andThen_eq_ok.1 h
    obtain ⟨v, hv, hcol⟩ := Run.andThen_eq_ok.1 ht
    cases hcol
    rw [writeAll_ok hv]
    unfold wrapLine at hu
    unfold afterEmit
    by_cases hw : 72 < s.col.toNat + g.length
    · rw [if_pos ((State.wrapNeeded_iff s _).2 hw)] at hu
      obtain ⟨w, hw', e⟩ := Run.andThen_eq_ok.1 hu
      cases e
      rw [if_pos hw, outEol_ok hw']
      rfl
    · rw [if_neg (mt (State.wrapNeeded_iff s _).1 hw)] at hu
      cases hu
      rw [if_neg hw]
      rfl
  · cases h

theorem emitGroup_refused {g : List Byte} (s : State) (hg : ¬ groupLengthOk g) :
    emitGroup g s = .refused .groupLength := by
  unfold emitGroup
  exact if_neg hg

theorem emitGroup_onlyWrites (g : List Byte) (s : State) : (emitGroup g s).OnlyWrites s := by
  unfold emitGroup
  split
  · exact (wrapLine_onlyWrites _ s).andThen fun t _ =>
      (writeAll_onlyWrites g t).andThen fun u _ => .ok ((WroteMore.refl u).setCol _)
  · exact .refused _ _

/-- EMIT keeps the column even and within the line (spec/44_line_writer.md R130). -/
theorem afterEmit_col {g : List Byte} {s : State} (hg : groupLengthOk g) (h : s.col.toNat ≤ 72)
    (he : s.col.toNat % 2 = 0) : (afterEmit s g).col.toNat ≤ 72 ∧ (afterEmit s g).col.toNat % 2 = 0 := by
  unfold afterEmit
  by_cases hw : 72 < s.col.toNat + g.length
  · rw [if_pos hw]
    obtain h2 | h2 := hg <;> simp [h2]
  · rw [if_neg hw]
    obtain h2 | h2 := hg <;> rw [h2] at hw <;> simp [h2] <;> omega

theorem padChars_eq : padChars = [0x7E#8, 0x30#8] := by decide

theorem writeMarkers_ok {n : Nat} {s t : State} (h : writeMarkers n s = .ok t) : t = afterMarkers n s := by
  induction n generalizing s with
  | zero => cases h; rfl
  | succ n ih =>
    obtain ⟨u, hu, ht⟩ := Run.andThen_eq_ok.1 h
    rw [ih ht, (emitGroup_ok hu).2, padChars_eq]
    rfl

theorem writeMarkers_onlyWrites (n : Nat) (s : State) : (writeMarkers n s).OnlyWrites s := by
  induction n generalizing s with
  | zero => exact .ok (WroteMore.refl s)
  | succ n ih => exact (emitGroup_onlyWrites _ s).andThen fun t _ => ih t

/-- A group on the line writer's operand wires, whose writes are all accepted. -/
theorem presentGroup_accepted {g : List Byte} {s : State} (ho : s.over = false) (hg : groupLengthOk g)
    (h : WritesAccepted s (emitWrites s g)) : presentGroup g s = .next (afterEmit s g) := by
  simp [presentGroup, ho, emitGroup_accepted hg h]

theorem presentGroup_next {g : List Byte} {s t : State} (h : presentGroup g s = .next t) :
    s.over = false ∧ (emitGroup g s = .ok t ∨ emitGroup g s = .aborted t) := by
  unfold presentGroup at h
  split at h
  · cases h
  · rename_i ho
    exact ⟨by simpa using ho, Run.outcome_eq_next.1 h⟩

/-! ## Where a failing write leaves an operation -/

/-- `m`, run from `s`, passes `bytes` to `OutWrite` in order: it ends with all of them in `OUT` where every write is accepted;
at a failing write the exception is taken with the bytes before it in `OUT`; at one that is never answered it waits. -/
structure Run.Passes (s : State) (bytes : List Byte) (m : Run) : Prop where
  accepted : WritesAccepted s bytes.length →
    ∃ t, m = .ok t ∧ WroteMore s t ∧ t.out = s.out ++ bytes ∧ t.writes = s.writes + bytes.length
  failed : ∀ k, s.args.writeFail = some (s.writes + k) → k < bytes.length →
    (∀ j, j ≤ k → s.args.writeMute ≠ some (s.writes + j)) →
    ∃ u, m = .aborted (u.raiseIOError .out) ∧ WroteMore s u ∧ u.out = s.out ++ bytes.take k ∧ u.writes = s.writes + k + 1
  unanswered : ∀ k, s.args.writeMute = some (s.writes + k) → k < bytes.length →
    (∀ j, j < k → s.args.writeFail ≠ some (s.writes + j)) → m = .stuck .writeUnanswered

/-- Nothing is passed where the operation makes no write. -/
theorem Run.Passes.nothing {s t : State} (h : WroteMore s t) (ho : t.out = s.out) (hw : t.writes = s.writes) :
    (Run.ok t).Passes s [] :=
  ⟨fun _ => ⟨t, rfl, h, by simpa using ho, by simpa using hw⟩, fun _ _ hk => (nomatch hk), fun _ _ hk => (nomatch hk)⟩

/-- Two operations in a row pass the bytes of both. -/
theorem Run.Passes.andThen {s : State} {a b : List Byte} {m : Run} {f : State → Run} (hm : m.Passes s a)
    (hf : ∀ t, m = .ok t → (f t).Passes t b) : (m.andThen f).Passes s (a ++ b) := by
  have reach : WritesAccepted s a.length →
      ∃ t, m = .ok t ∧ WroteMore s t ∧ t.args = s.args ∧ t.out = s.out ++ a ∧ t.writes = s.writes + a.length := by
    intro h
    obtain ⟨t, ht, hw, ho, hn⟩ := hm.accepted h
    exact ⟨t, ht, hw, by rw [hw.1], ho, hn⟩
  refine ⟨fun h => ?_, fun k hk hlt hj => ?_, fun k hk hlt hj => ?_⟩
  · rw [List.length_append] at h
    obtain ⟨t, ht, hw, ha, ho, hn⟩ := reach (h.mono (by omega))
    obtain ⟨u, hu, hw', ho', hn'⟩ := (hf t ht).accepted (h.after ha hn)
    exact ⟨u, by rw [ht]; exact hu, hw.trans hw', by simp [ho', ho], by simp [hn', hn, Nat.add_assoc]⟩
  · rw [List.length_append] at hlt
    by_cases hka : k < a.length
    · obtain ⟨u, hu, hw, ho, hn⟩ := hm.failed k hk hka hj
      exact ⟨u, by rw [hu]; rfl, hw, by rw [ho, List.take_append_of_le_length (by omega)], hn⟩
    · obtain ⟨t, ht, hw, ha, ho, hn⟩ := reach fun i hi hia => ⟨by rw [hk]; intro e; injection e; omega,
        by have := hj (i - s.writes) (by omega); rwa [show s.writes + (i - s.writes) = i by omega] at this⟩
      obtain ⟨u, hu, hw', ho', hn'⟩ := (hf t ht).failed (k - a.length) (by rw [ha, hk, hn]; congr 1; omega) (by omega)
        fun j hjk => by
          have := hj (a.length + j) (by omega)
          rwa [ha, hn, Nat.add_assoc]
      refine ⟨u, by rw [ht]; exact hu, hw.trans hw', ?_, by omega⟩
      rw [ho', ho, List.append_assoc, List.take_append, List.take_of_length_le (l := a) (by omega)]
  · rw [List.length_append] at hlt
    by_cases hka : k < a.length
    · rw [hm.unanswered k hk hka hj]
      rfl
    · obtain ⟨t, ht, hw, ha, ho, hn⟩ := reach fun i hi hia =>
        ⟨by have := hj (i - s.writes) (by omega); rwa [show s.writes + (i - s.writes) = i by omega] at this,
          by rw [hk]; intro e; injection e; omega⟩
      rw [ht]
      refine (hf t ht).unanswered (k - a.length) (by rw [ha, hk, hn]; congr 1; omega) (by omega) fun j hjk => ?_
      have := hj (a.length + j) (by omega)
      rwa [ha, hn, Nat.add_assoc]

theorem outWrite_passes (s : State) (c : Byte) : (outWrite s c).Passes s [c] := by
  refine ⟨fun h => ?_, fun k hk hlt hj => ?_, fun k hk hlt hj => ?_⟩
  · obtain ⟨hf, hm⟩ := h s.writes (Nat.le_refl _) (by simp)
    exact ⟨s.putByte c, by simp [outWrite, hf, hm], ⟨rfl, List.prefix_append _ _⟩, rfl, rfl⟩
  · obtain rfl : k = 0 := by simpa using hlt
    refine ⟨{ s with writes := s.writes + 1 }, ?_, ⟨rfl, List.prefix_rfl⟩, by simp, rfl⟩
    have hm := hj 0 (Nat.le_refl _)
    rw [Nat.add_zero] at hk hm
    unfold outWrite
    rw [if_neg hm, if_pos hk]
  · obtain rfl : k = 0 := by simpa using hlt
    simp [outWrite, show s.args.writeMute = some s.writes from hk]

theorem writeAll_passes (bytes : List Byte) (s : State) : (writeAll bytes s).Passes s bytes := by
  induction bytes generalizing s with
  | nil => exact .nothing (WroteMore.refl s) rfl rfl
  | cons c rest ih => exact (outWrite_passes s c).andThen fun t _ => ih t

theorem outEol_passes (s : State) : (outEol s).Passes s [0x0D#8, 0x0A#8] := writeAll_passes _ s

theorem writeHeaderLine_passes (hdr : List Byte) (s : State) :
    (writeHeaderLine hdr s).Passes s (hdr ++ [0x0D#8, 0x0A#8]) :=
  (writeAll_passes hdr s).andThen fun t _ => outEol_passes t

theorem wrapLine_passes (n : Nat) (s : State) :
    (wrapLine n s).Passes s (if 72 < s.col.toNat + n then [0x0D#8, 0x0A#8] else []) := by
  unfold wrapLine
  by_cases hw : 72 < s.col.toNat + n
  · rw [if_pos ((State.wrapNeeded_iff s _).2 hw), if_pos hw]
    exact (outEol_passes s).andThen (b := []) fun t _ => .nothing ((WroteMore.refl t).setCol _) rfl rfl
  · rw [if_neg (mt (State.wrapNeeded_iff s _).1 hw), if_neg hw]
    exact .nothing (WroteMore.refl s) rfl rfl

theorem emitGroup_passes {g : List Byte} (s : State) (hg : groupLengthOk g) :
    (emitGroup g s).Passes s (emitBytes s g) := by
  unfold emitGroup emitBytes
  rw [if_pos (show g.length = Config.escLen ∨ g.length = Config.quadLen from hg)]
  refine (wrapLine_passes _ s).andThen fun t _ => ?_
  have h := (writeAll_passes g t).andThen (b := [])
    (f := fun u => .ok (u.setCol (u.col + BitVec.ofNat 7 g.length)))
    fun u _ => .nothing ((WroteMore.refl u).setCol _) rfl rfl
  rwa [List.append_nil] at h

theorem writeMarkers_passes (n : Nat) (s : State) : (writeMarkers n s).Passes s (markerBytes n s) := by
  induction n generalizing s with
  | zero => exact .nothing (WroteMore.refl s) rfl rfl
  | succ n ih =>
    rw [writeMarkers, padChars_eq]
    refine (emitGroup_passes s (.inl rfl)).andThen fun t ht => ?_
    rw [(emitGroup_ok ht).2]
    exact ih _

/-! ## The input stream -/

/-- Everything `InRead()` can answer. -/
theorem inRead_cases (s : State) :
    (∃ b, s.args.input[s.ipos]? = some b ∧ inRead s = .byte b s.takeByte) ∨
    (s.args.input[s.ipos]? = none ∧ inRead s = .eof s.countRead) ∨
    (s.args.readFail = some s.reads ∧ inRead s = .ioErr s.countRead) ∨
    (s.args.readMute = some s.reads ∧ inRead s = .unanswered) := by
  unfold inRead
  by_cases hm : s.args.readMute = some s.reads
  · simp [hm]
  · by_cases hf : s.args.readFail = some s.reads
    · simp [hm, hf]
    · cases h : s.args.input[s.ipos]? <;> simp [hm, hf]

theorem inRead_byte {s : State} {b : Byte} (hr : ReadsAnswered s 1) (h : s.args.input[s.ipos]? = some b) :
    inRead s = .byte b s.takeByte := by
  simp [inRead, hr.now.1, hr.now.2, h]

theorem inRead_eof {s : State} (hr : ReadsAnswered s 1) (h : s.args.input[s.ipos]? = none) :
    inRead s = .eof s.countRead := by
  simp [inRead, hr.now.1, hr.now.2, h]

/-! ## The classifier -/

/-- A per-symbol step that answers a next state was inside a call and under its condition. -/
theorem inCall_next {s t : State} {c : Bool} {e : Host.Outcome State Fault Refusal} (h : inCall s c e = .next t) :
    s.call = .running ∧ c = true ∧ e = .next t := by
  unfold inCall at h
  split at h
  · split at h
    · exact ⟨by assumption, by assumption, h⟩
    · cases h
  · cases h

theorem inCall_running {s : State} {c : Bool} {e : Host.Outcome State Fault Refusal} (hr : s.call = .running)
    (hc : c = true) : inCall s c e = e := by
  simp [inCall, hr, hc]

/-- An append that answers a next state. -/
theorem appendLiteral_next {s t : State} {b : Byte} (h : appendLiteral s b = .next t) :
    s.litN ≠ 3#2 ∧ t = (s.appendLit b).closeTriple := by
  unfold appendLiteral at h
  split at h
  · cases h
  · rename_i hf
    cases h
    exact ⟨by simpa using hf, rfl⟩

theorem appendLiteral_room {s : State} {b : Byte} (h : s.litN ≠ 3#2) :
    appendLiteral s b = .next (s.appendLit b).closeTriple := by
  simp [appendLiteral, h]

/-- The loop of a call, one symbol at a time. -/
theorem callLoop_succ (n : Nat) (s : State) :
    callLoop (n + 1) s =
      match readSymbol s with
      | .next s' => if s'.call = .running then callLoop n s' else .next s'
      | .fault f => .fault f
      | .refused r => .refused r := rfl

/-! ## The alphabet ROM -/

/-- The ROM's cells are in canonical form; no operation writes them. -/
theorem alphabetRom_wf : Memory.wf Config.alphabetRom = true := by decide

end Sys2Proof.Machine
end

