-- ==== Sys2Proof/Laws/Step.lean ====
section
/-! SUPPORT. What the step finds to do, once and for all: the cases of fetch, and the symbols that reads deliver. -/

namespace Sys2Proof.Machine

/-- The word of a byte's symbol decodes to the class of the byte (spec/30_encoding.md R50, R51). -/
theorem decodeSymbol_byte (b : Byte) :
    decodeSymbol (symbolOfByte b) = if b = 0x00#8 then .symNul else .symLit b := by
  obtain ⟨hb, he⟩ := symbolOfByte_fields b
  simp [decodeSymbol, hb, he]

theorem decodeSymbol_eof : decodeSymbol symbolOfEof = .symEof := by decide

theorem State.enterCall_idle {s : State} (h : s.call = .idle) : s.enterCall = s.openCall := if_pos h

theorem State.enterCall_running {s : State} (h : s.call = .running) : s.enterCall = s :=
  if_neg (by rw [h]; exact fun e => nomatch e)

theorem fetch_reset {s : State} (h : s.resetLine = true) : fetch s = .word .resetLine s := by simp [fetch, h]

theorem fetch_request {s : State} {r : PortRequest} (h : s.resetLine = false) (hr : s.request = some r)
    (hc : r.inContract = true) : fetch s = .word r.word { s with request := none } := by simp [fetch, fetchPort, h, hr, hc]

theorem fetch_declined {s : State} {r : PortRequest} (h : s.resetLine = false) (hr : s.request = some r)
    (hc : r.inContract = false) : fetch s = .declined { s with request := none, result := .refused } := by
  simp [fetch, fetchPort, h, hr, hc]

/-- What is presented on a port takes one step, which always has a next state: an operand in its contract does. -/
theorem exec_inContract {r : PortRequest} {i : Instr} (hc : r.inContract = true) (hd : decode r.word = .ok i) (s : State) :
    ∃ res n, exec i s = .next { s with result := res, fresh := n } := by
  cases r with
  | toChar w =>
    cases hd
    obtain ⟨c, hw⟩ := Option.isSome_iff_exists.1 hc
    exact ⟨.char c, s.fresh, by simp [exec, execToChar, hw, State.showResult]⟩
  | fromChar w =>
    cases hd
    simp only [exec, execFromChar]
    split
    · exact ⟨_, s.fresh, rfl⟩
    · exact ⟨_, _, rfl⟩
  | pack w =>
    cases hd
    exact ⟨_, s.fresh, rfl⟩
  | escape w =>
    cases hd
    obtain ⟨c, hw⟩ := Option.isSome_iff_exists.1 hc
    exact ⟨.pair c, s.fresh, by simp [exec, execEscape, hw, State.showResult]⟩
  | padmark =>
    cases hd
    exact ⟨_, s.fresh, rfl⟩

/-- With neither reset nor a leaf function presented, the block goes on. -/
theorem fetch_block {s : State} (h : s.resetLine = false) (hr : s.request = none) : fetch s = fetchBlock s := by
  simp [fetch, h, hr]

theorem fetch_unit {s : State} {u : UnitWord} (h : s.resetLine = false) (hr : s.request = none)
    (hu : s.unitWires = some u) : fetch s = .word u.word { s with unitWires := none } := by
  simp [fetch_block h hr, fetchBlock, hu]

/-- With nothing on a unit's wires either, the session goes on. -/
theorem fetch_undisturbed {s : State} (h : s.undisturbed) : fetch s = fetchSession s := by
  simp [fetch_block h.1 h.2.1, fetchBlock, h.2.2]

theorem fetch_selected {s : State} {i : Instr} (h : s.undisturbed) (hi : selectRow s.seq s.call = some i) :
    fetch s = .selected i s := by simp [fetch_undisturbed h, fetchSession, hi]

theorem fetch_over {s : State} (h : s.undisturbed) (ho : s.over = true) : fetch s = .nothing := by
  obtain hq | hq := (State.over_iff s).1 ho <;> simp [fetch_undisturbed h, fetchSession, hq, selectRow]

/-- A token that the classifier has returned is the word on the token bus. -/
theorem fetch_token {s : State} {t : Token} (h : s.undisturbed) (hq : s.seq = .streaming) (hc : s.call = .returned t) :
    fetch s = .word (.token (busWord s.lit t)) s := by
  simp [fetch_undisturbed h, fetchSession, fetchStreaming, hq, hc, selectRow]

/-- In `Streaming`, with no token returned or taken, the next symbol is read. -/
theorem fetch_streaming {s : State} (h : s.undisturbed) (hq : s.seq = .streaming)
    (hc : s.call = .idle ∨ s.call = .running) : fetch s = fetchSymbol s.enterCall := by
  obtain hc | hc := hc <;> simp [fetch_undisturbed h, fetchSession, fetchStreaming, hq, hc, selectRow]

/-- Everything fetch can answer, in the order of its tests. -/
theorem fetch_cases (s : State) :
    (s.resetLine = true ∧ fetch s = .word .resetLine s) ∨
    (s.resetLine = false ∧ ∃ r, s.request = some r ∧ r.inContract = true ∧
      fetch s = .word r.word { s with request := none }) ∨
    (s.resetLine = false ∧ ∃ r, s.request = some r ∧ r.inContract = false ∧
      fetch s = .declined { s with request := none, result := .refused }) ∨
    (s.resetLine = false ∧ s.request = none ∧ ∃ u, s.unitWires = some u ∧
      fetch s = .word u.word { s with unitWires := none }) ∨
    (s.undisturbed ∧ ∃ i, selectRow s.seq s.call = some i ∧ fetch s = .selected i s) ∨
    (s.undisturbed ∧ s.seq = .streaming ∧ ∃ t, s.call = .returned t ∧ fetch s = .word (.token (busWord s.lit t)) s) ∨
    (s.undisturbed ∧ s.seq = .streaming ∧ (s.call = .idle ∨ s.call = .running) ∧ fetch s = fetchSymbol s.enterCall) ∨
    (s.undisturbed ∧ s.over = true ∧ fetch s = .nothing) := by
  by_cases hr : s.resetLine = true
  · exact .inl ⟨hr, fetch_reset hr⟩
  · simp only [Bool.not_eq_true] at hr
    right
    cases hp : s.request with
    | some p =>
      cases hc : p.inContract with
      | true => exact .inl ⟨hr, p, rfl, hc, fetch_request hr hp hc⟩
      | false => exact .inr (.inl ⟨hr, p, rfl, hc, fetch_declined hr hp hc⟩)
    | none =>
      right
      right
      cases hw : s.unitWires with
      | some u => exact .inl ⟨hr, rfl, u, rfl, by simp [fetch_unit hr hp hw, hp]⟩
      | none =>
        right
        have hu : s.undisturbed := ⟨hr, hp, hw⟩
        cases hi : selectRow s.seq s.call with
        | some i => exact .inl ⟨hu, i, rfl, fetch_selected hu hi⟩
        | none =>
          right
          cases hq : s.seq <;> simp only [hq, selectRow] at hi
          · cases hi
          · cases hc : s.call with
            | accepted t => simp only [hc] at hi; cases hi
            | returned t => exact .inl ⟨hu, rfl, t, rfl, fetch_token hu hq hc⟩
            | idle => exact .inr (.inl ⟨hu, rfl, .inl rfl, fetch_streaming hu hq (.inl hc)⟩)
            | running => exact .inr (.inl ⟨hu, rfl, .inr rfl, fetch_streaming hu hq (.inr hc)⟩)
          · cases hi
          · exact .inr (.inr ⟨hu, by simp [hq], fetch_over hu (by simp [hq])⟩)
          · exact .inr (.inr ⟨hu, by simp [hq], fetch_over hu (by simp [hq])⟩)

end Sys2Proof.Machine
end

