-- ==== Sys2Proof/Laws/Exec.lean ====
section
/-! SUPPORT. For each meaning, once, what it can do: if it answers a next state, then under which conditions and which state.
Proofs over all instructions cite these and unfold no meaning. -/

namespace Sys2Proof.Machine

/-! ## Writers -/

/-- How an operation that only writes ends, from where it goes on: in the state its rules give, or with the exception taken
after some output. -/
def WritesTo (s t : State) (full : State) : Prop :=
  t = full ∨ ∃ u, WroteMore s u ∧ t = u.raiseIOError .out

theorem presentGroup_writesTo {g : List Byte} {s t : State} (h : presentGroup g s = .next t) :
    s.over = false ∧ groupLengthOk g ∧ WritesTo s t (afterEmit s g) := by
  obtain ⟨ho, hk | ha⟩ := presentGroup_next h
  · exact ⟨ho, (emitGroup_ok hk).1, .inl (emitGroup_ok hk).2⟩
  · refine ⟨ho, ?_, .inr ((emitGroup_onlyWrites g s).2 t ha)⟩
    by_contra hg
    rw [emitGroup_refused s hg] at ha
    cases ha

theorem emitGroup_writesTo {g : List Byte} {s t : State} (h : (emitGroup g s).outcome = .next t) :
    groupLengthOk g ∧ WritesTo s t (afterEmit s g) := by
  obtain hk | ha := Run.outcome_eq_next.1 h
  · exact ⟨(emitGroup_ok hk).1, .inl (emitGroup_ok hk).2⟩
  · refine ⟨?_, .inr ((emitGroup_onlyWrites g s).2 t ha)⟩
    by_contra hg
    rw [emitGroup_refused s hg] at ha
    cases ha

theorem execEmit_next {l : Bool} {g : BitVec 32} {s t : State} (h : execEmit l g s = .next t) :
    s.over = false ∧ WritesTo s t (afterEmit s (busGroup l g)) :=
  ⟨(presentGroup_writesTo h).1, (presentGroup_writesTo h).2.2⟩

theorem execWQuad_next {a b c d : Byte} {s t : State} (h : execWQuad a b c d s = .next t) :
    s.over = false ∧ WritesTo s t (afterEmit s [a, b, c, d]) := by
  unfold execWQuad at h
  split at h
  · exact ⟨(presentGroup_writesTo h).1, (presentGroup_writesTo h).2.2⟩
  · cases h

theorem execWEsc_next {k : Byte} {s t : State} (h : execWEsc k s = .next t) :
    s.over = false ∧ WritesTo s t (afterEmit s [0x7E#8, k]) := by
  unfold execWEsc at h
  split at h
  · exact ⟨(presentGroup_writesTo h).1, (presentGroup_writesTo h).2.2⟩
  · cases h

theorem execWPad_next {s t : State} (h : execWPad s = .next t) :
    s.over = false ∧ WritesTo s t (afterEmit s padChars) :=
  ⟨(presentGroup_writesTo h).1, (presentGroup_writesTo h).2.2⟩

theorem execWEol_next {s t : State} (h : execWEol s = .next t) :
    s.over = false ∧ WritesTo s t (s.putBytes [0x0D#8, 0x0A#8]) := by
  unfold execWEol at h
  split at h
  · cases h
  · rename_i ho
    refine ⟨by simpa using ho, ?_⟩
    obtain hk | ha := Run.outcome_eq_next.1 h
    · exact .inl (outEol_ok hk)
    · exact .inr ((outEol_onlyWrites s).2 t ha)

theorem execWHdr_next {hdr : List Byte} {s t : State} (h : execWHdr hdr s = .next t) :
    s.over = false ∧ WritesTo s t (s.putBytes (hdr ++ [0x0D#8, 0x0A#8])) := by
  unfold execWHdr at h
  split at h
  · cases h
  · rename_i ho
    refine ⟨by simpa using ho, ?_⟩
    obtain hk | ha := Run.outcome_eq_next.1 h
    · exact .inl (writeHeaderLine_ok hk)
    · exact .inr ((writeHeaderLine_onlyWrites hdr s).2 t ha)

/-! ## The sequencer -/

theorem execSeqStart_next {s t : State} (h : execSeqStart s = .next t) :
    s.seq = .start ∧ WritesTo s t ((s.putBytes (s.args.hdr ++ [0x0D#8, 0x0A#8])).setSeq .streaming) := by
  unfold execSeqStart at h
  split at h
  · rename_i hq
    refine ⟨hq, ?_⟩
    obtain hk | ha := Run.outcome_eq_next.1 h
    · obtain ⟨u, hu, e⟩ := Run.andThen_eq_ok.1 hk
      cases e
      exact .inl (by rw [writeHeaderLine_ok hu])
    · obtain ha | ⟨u, _, e⟩ := Run.andThen_eq_aborted.1 ha
      · exact .inr ((writeHeaderLine_onlyWrites _ s).2 t ha)
      · cases e
  · cases h

theorem execSeqLiteral_next {s t : State} (h : execSeqLiteral s = .next t) :
    s.seq = .streaming ∧ s.call = .accepted (.literal 3#2) ∧
      WritesTo (s.takeToken 0#2) t (afterEmit (s.takeToken 0#2) s.lit.pack) := by
  unfold execSeqLiteral at h
  split at h
  · rename_i hc
    exact ⟨hc.1, hc.2, (emitGroup_writesTo h).2⟩
  · cases h

theorem execSeqShortlit_next {s t : State} (h : execSeqShortlit s = .next t) :
    s.seq = .streaming ∧ ∃ n, (n = 1#2 ∨ n = 2#2) ∧ s.call = .accepted (.literal n) ∧
      WritesTo ((s.padLit n).takeToken (3#2 - n)) t
        (afterEmit ((s.padLit n).takeToken (3#2 - n)) (s.padLit n).lit.pack) := by
  unfold execSeqShortlit at h
  split at h
  · rename_i n hq hc
    split at h
    · rename_i hn
      exact ⟨hq, n, hn, hc, (emitGroup_writesTo h).2⟩
    · cases h
  · cases h

theorem execSeqNullrun_next {s t : State} (h : execSeqNullrun s = .next t) :
    s.seq = .streaming ∧ ∃ n, isRunCount n = true ∧ s.call = .accepted (.nullRun n) ∧
      WritesTo (s.takeToken 0#2) t (afterEmit (s.takeToken 0#2) [0x7E#8, mapChar n]) := by
  unfold execSeqNullrun at h
  split at h
  · rename_i n hq hc
    unfold escapeChars at h
    split at h
    · rename_i g hg
      split at hg
      · rename_i hn
        cases hg
        exact ⟨hq, n, hn, hc, (emitGroup_writesTo h).2⟩
      · cases hg
    · cases h
  · cases h

theorem execSeqEnd_next {s t : State} (h : execSeqEnd s = .next t) :
    s.seq = .streaming ∧ s.call = .accepted .endOfInput ∧ t = (s.takeToken s.fill).setSeq .finalizing := by
  unfold execSeqEnd at h
  split at h
  · rename_i hc
    cases h
    exact ⟨hc.1, hc.2, rfl⟩
  · cases h

theorem execSeqFinalize_next {s t : State} (h : execSeqFinalize s = .next t) :
    s.seq = .finalizing ∧
      WritesTo s t (((afterMarkers s.fill.toNat s).putBytes [0x0D#8, 0x0A#8]).setSeq .done) := by
  unfold execSeqFinalize at h
  split at h
  · rename_i hq
    refine ⟨hq, ?_⟩
    obtain hk | ha := Run.outcome_eq_next.1 h
    · obtain ⟨u, hu, e⟩ := Run.andThen_eq_ok.1 hk
      obtain ⟨v, hv, e⟩ := Run.andThen_eq_ok.1 e
      cases e
      exact .inl (by rw [outEol_ok hv, writeMarkers_ok hu])
    · refine .inr ?_
      obtain ha | ⟨u, hu, e⟩ := Run.andThen_eq_aborted.1 ha
      · exact (writeMarkers_onlyWrites _ s).2 t ha
      · obtain ha | ⟨v, _, e⟩ := Run.andThen_eq_aborted.1 e
        · obtain ⟨w, hw, rfl⟩ := (outEol_onlyWrites u).2 t ha
          exact ⟨w, ((writeMarkers_onlyWrites _ s).1 u hu).trans hw, rfl⟩
        · cases e
  · cases h

/-- EMIT's result differs from its start only in the output, the write count and the column. -/
theorem afterEmit_wroteMore (s : State) (g : List Byte) : WroteMore s (afterEmit s g) := by
  unfold afterEmit
  split
  · exact (((WroteMore.putBytes s _).setCol _).trans (WroteMore.putBytes _ g)).setCol _
  · exact (WroteMore.putBytes s g).setCol _

theorem afterMarkers_wroteMore (n : Nat) (s : State) : WroteMore s (afterMarkers n s) := by
  induction n generalizing s with
  | zero => exact WroteMore.refl s
  | succ n ih => exact (afterEmit_wroteMore s _).trans (ih _)

theorem afterMarkers_col {s : State} (n : Nat) (h : s.col.toNat ≤ 72) (he : s.col.toNat % 2 = 0) :
    (afterMarkers n s).col.toNat ≤ 72 ∧ (afterMarkers n s).col.toNat % 2 = 0 := by
  induction n generalizing s with
  | zero => exact ⟨h, he⟩
  | succ n ih =>
    have hc := afterEmit_col (g := [0x7E#8, 0x30#8]) (s := s) (.inl rfl) h he
    exact ih hc.1 hc.2

/-! ## The classifier -/

theorem execSymNulCount_next {s t : State} (h : execSymNulCount s = .next t) :
    s.call = .running ∧ s.litN = 0#2 ∧
      ((s.nulls.toNat < 78 ∧ t = s.countNull) ∨
       (78 ≤ s.nulls.toNat ∧ t = (s.countNull.holdByte 0x00#8).returnToken (.nullRun 78#7))) := by
  obtain ⟨hr, hc, he⟩ := inCall_next h
  refine ⟨hr, by simpa using hc, ?_⟩
  split at he
  · rename_i ho
    cases he
    exact .inr ⟨(State.runOverflow_iff s).1 ho, rfl⟩
  · rename_i ho
    cases he
    exact .inl ⟨(State.runOverflow_false_iff s).1 (by simpa using ho), rfl⟩

theorem execSymNulCut_next {s t : State} (h : execSymNulCut s = .next t) :
    s.call = .running ∧ s.litN = 0#2 ∧ s.nulls = 78#7 ∧
      t = (s.countNull.holdByte 0x00#8).returnToken (.nullRun 78#7) := by
  obtain ⟨hr, hc, he⟩ := inCall_next h
  cases he
  simp at hc
  exact ⟨hr, hc.1, hc.2, rfl⟩

theorem execSymNulAppend_next {s t : State} (h : execSymNulAppend s = .next t) :
    s.call = .running ∧ s.litN ≠ 0#2 ∧ s.litN ≠ 3#2 ∧ t = (s.appendLit 0x00#8).closeTriple := by
  obtain ⟨hr, hc, he⟩ := inCall_next h
  obtain ⟨h3, ht⟩ := appendLiteral_next he
  exact ⟨hr, by simpa using hc, h3, ht⟩

theorem execSymLitAppend_next {b : Byte} {s t : State} (h : execSymLitAppend b s = .next t) :
    s.call = .running ∧ s.nulls = 0#7 ∧ s.litN ≠ 3#2 ∧ t = (s.appendLit b).closeTriple := by
  obtain ⟨hr, hc, he⟩ := inCall_next h
  obtain ⟨h3, ht⟩ := appendLiteral_next he
  exact ⟨hr, by simpa using hc, h3, ht⟩

theorem execSymLitBacktrack_next {b : Byte} {s t : State} (h : execSymLitBacktrack b s = .next t) :
    s.call = .running ∧ s.nulls = 1#7 ∧ t = s.nullToLit.appendLit b := by
  obtain ⟨hr, hc, he⟩ := inCall_next h
  cases he
  exact ⟨hr, by simpa using hc, rfl⟩

theorem execSymLitEndrun_next {b : Byte} {s t : State} (h : execSymLitEndrun b s = .next t) :
    s.call = .running ∧ 2 ≤ s.nulls.toNat ∧ t = (s.holdByte b).returnToken (.nullRun s.nulls) := by
  obtain ⟨hr, hc, he⟩ := inCall_next h
  cases he
  exact ⟨hr, (State.runEscapable_iff s).1 hc, rfl⟩

theorem execSymEofRun_next {s t : State} (h : execSymEofRun s = .next t) :
    s.call = .running ∧ 2 ≤ s.nulls.toNat ∧ t = s.returnToken (.nullRun s.nulls) := by
  obtain ⟨hr, hc, he⟩ := inCall_next h
  cases he
  exact ⟨hr, (State.runEscapable_iff s).1 hc, rfl⟩

theorem execSymEofOne_next {s t : State} (h : execSymEofOne s = .next t) :
    s.call = .running ∧ s.nulls = 1#7 ∧ t = s.nullToLit.returnToken (.literal 1#2) := by
  obtain ⟨hr, hc, he⟩ := inCall_next h
  cases he
  exact ⟨hr, by simpa using hc, rfl⟩

theorem execSymEofTail_next {s t : State} (h : execSymEofTail s = .next t) :
    s.call = .running ∧ s.nulls = 0#7 ∧ s.litN ≠ 0#2 ∧ s.litN ≠ 3#2 ∧ t = s.returnToken (.literal s.litN) := by
  obtain ⟨hr, hc, he⟩ := inCall_next h
  cases he
  simp at hc
  exact ⟨hr, hc.1.1, hc.1.2, hc.2, rfl⟩

theorem execSymEofEnd_next {s t : State} (h : execSymEofEnd s = .next t) :
    s.call = .running ∧ s.nulls = 0#7 ∧ s.litN = 0#2 ∧ t = s.returnToken .endOfInput := by
  obtain ⟨hr, hc, he⟩ := inCall_next h
  cases he
  simp at hc
  exact ⟨hr, hc.1, hc.2, rfl⟩

/-- The rule a symbol follows is one of its class's steps. -/
theorem execSymNul_cases (s : State) : execSymNul s = execSymNulAppend s ∨ execSymNul s = execSymNulCount s := by
  unfold execSymNul
  split
  · exact .inl rfl
  · exact .inr rfl

theorem execSymLit_cases (b : Byte) (s : State) :
    execSymLit b s = execSymLitEndrun b s ∨ execSymLit b s = execSymLitBacktrack b s ∨
      execSymLit b s = execSymLitAppend b s := by
  unfold execSymLit
  split
  · exact .inl rfl
  · split
    · exact .inr (.inl rfl)
    · exact .inr (.inr rfl)

theorem execSymEof_cases (s : State) :
    execSymEof s = execSymEofRun s ∨ execSymEof s = execSymEofOne s ∨ execSymEof s = execSymEofTail s ∨
      execSymEof s = execSymEofEnd s := by
  unfold execSymEof
  split
  · exact .inl rfl
  · split
    · exact .inr (.inl rfl)
    · split
      · exact .inr (.inr (.inl rfl))
      · exact .inr (.inr (.inr rfl))

/-- What a per-symbol step may change: the classifier's registers and the call (spec/10_state.md R27). -/
def ClassifierFrame (s t : State) : Prop :=
  t = { s with lit := t.lit, litN := t.litN, nulls := t.nulls, remByte := t.remByte, remValid := t.remValid,
               call := t.call }

theorem execSymNul_frame {s t : State} (h : execSymNul s = .next t) : ClassifierFrame s t := by
  obtain e | e := execSymNul_cases s <;> rw [e] at h
  · obtain ⟨_, _, _, rfl⟩ := execSymNulAppend_next h
    obtain ⟨_, hc⟩ | ⟨_, hc⟩ := (s.appendLit 0x00#8).closeTriple_cases <;> rw [hc] <;> rfl
  · obtain ⟨_, _, ⟨_, rfl⟩ | ⟨_, rfl⟩⟩ := execSymNulCount_next h <;> rfl

theorem execSymLit_frame {b : Byte} {s t : State} (h : execSymLit b s = .next t) : ClassifierFrame s t := by
  obtain e | e | e := execSymLit_cases b s <;> rw [e] at h
  · obtain ⟨_, _, rfl⟩ := execSymLitEndrun_next h
    rfl
  · obtain ⟨_, _, rfl⟩ := execSymLitBacktrack_next h
    rfl
  · obtain ⟨_, _, _, rfl⟩ := execSymLitAppend_next h
    obtain ⟨_, hc⟩ | ⟨_, hc⟩ := (s.appendLit b).closeTriple_cases <;> rw [hc] <;> rfl

theorem execSymEof_frame {s t : State} (h : execSymEof s = .next t) : ClassifierFrame s t := by
  obtain e | e | e | e := execSymEof_cases s <;> rw [e] at h
  · obtain ⟨_, _, rfl⟩ := execSymEofRun_next h
    rfl
  · obtain ⟨_, _, rfl⟩ := execSymEofOne_next h
    rfl
  · obtain ⟨_, _, _, _, rfl⟩ := execSymEofTail_next h
    rfl
  · obtain ⟨_, _, _, rfl⟩ := execSymEofEnd_next h
    rfl

/-- Everything one symbol of a call can do. -/
theorem readSymbol_next {s t : State} (h : readSymbol s = .next t) :
    (∃ b, s.args.input[s.ipos]? = some b ∧
      ((b = 0x00#8 ∧ execSymNul s.takeByte = .next t) ∨ (b ≠ 0x00#8 ∧ execSymLit b s.takeByte = .next t))) ∨
    (s.args.input[s.ipos]? = none ∧ execSymEof s.countRead = .next t) ∨
    t = s.countRead.raiseIOError .inp := by
  unfold readSymbol at h
  obtain ⟨b, hb, e⟩ | ⟨hb, e⟩ | ⟨_, e⟩ | ⟨_, e⟩ := inRead_cases s <;> simp only [e] at h
  · refine .inl ⟨b, hb, ?_⟩
    split at h
    · rename_i hn
      exact .inl ⟨by simpa using hn, h⟩
    · rename_i hn
      exact .inr ⟨by simpa using hn, h⟩
  · exact .inr (.inl ⟨hb, h⟩)
  · cases h
    exact .inr (.inr rfl)
  · cases h

/-- The induction over a call: what every symbol of it keeps, the whole call keeps. -/
theorem callLoop_keeps {P : State → Prop} (hP : ∀ s t, P s → readSymbol s = .next t → P t) {n : Nat} {s t : State}
    (hs : P s) (h : callLoop n s = .next t) : P t := by
  induction n generalizing s with
  | zero => cases h; exact hs
  | succ n ih =>
    rw [callLoop_succ] at h
    cases hr : readSymbol s with
    | next u =>
      simp only [hr] at h
      split at h
      · exact ih (hP s u hs hr) h
      · cases h
        exact hP s t hs hr
    | fault f => simp [hr] at h
    | refused r => simp [hr] at h

theorem execGet3_next {s t : State} (h : execGet3 s = .next t) :
    s.seq = .streaming ∧ s.call = .idle ∧ callLoop (s.unread + 1) s.openCall = .next t := by
  unfold execGet3 at h
  split at h
  · rename_i hc
    exact ⟨hc.1, hc.2, h⟩
  · cases h

/-- A session's read and the call's read do the same (spec/41_byte_classifier.md R82). -/
theorem step_streaming {s : State} (h : s.undisturbed) (hq : s.seq = .streaming)
    (hc : s.call = .idle ∨ s.call = .running) : step s = readSymbol s.enterCall := by
  have hse : s.enterCall.seq = .streaming ∧ s.enterCall.call = .running := by
    obtain hc | hc := hc
    · rw [State.enterCall_idle hc, State.openCall_seq, State.openCall_call]
      exact ⟨hq, rfl⟩
    · rw [State.enterCall_running hc]
      exact ⟨hq, hc⟩
  unfold step
  rw [fetch_streaming h hq hc]
  unfold fetchSymbol readSymbol
  obtain ⟨b, _, e⟩ | ⟨_, e⟩ | ⟨_, e⟩ | ⟨_, e⟩ := inRead_cases s.enterCall <;> simp only [e]
  · simp only [decode, decodeSymbol_byte]
    by_cases hb : b = 0x00#8 <;> simp [hb, exec, isNull]
  · simp [decode, decodeSymbol_eof, exec]
  · simp [decode, exec, execAbort, hse.1, hse.2, canFail]

/-! ## Tokens, ports, events -/

theorem State.offersToken_iff (s : State) (t : Token) :
    s.offersToken t = true ↔ s.seq = .streaming ∧ s.call = .returned t := by simp [State.offersToken]

theorem execTEnd_next {s t : State} (h : execTEnd s = .next t) :
    s.seq = .streaming ∧ s.call = .returned .endOfInput ∧ t = s.acceptToken .endOfInput := by
  unfold execTEnd at h
  split at h
  · rename_i ho
    cases h
    exact ⟨((s.offersToken_iff _).1 ho).1, ((s.offersToken_iff _).1 ho).2, rfl⟩
  · cases h

theorem execTLiteral_next {n : BitVec 2} {x y z : Byte} {s t : State} (h : execTLiteral n x y z s = .next t) :
    n ≠ 0#2 ∧ s.seq = .streaming ∧ s.call = .returned (.literal n) ∧ s.lit.bytes n = [x, y, z].take n.toNat ∧
      t = s.acceptToken (.literal n) := by
  unfold execTLiteral at h
  split at h
  · cases h
  · rename_i hn
    split at h
    · rename_i ho
      simp only [Bool.and_eq_true, State.offersToken_iff, beq_iff_eq] at ho
      cases h
      exact ⟨hn, ho.1.1, ho.1.2, ho.2, rfl⟩
    · cases h

theorem execTNullrun_next {n : BitVec 7} {s t : State} (h : execTNullrun n s = .next t) :
    isRunCount n = true ∧ s.seq = .streaming ∧ s.call = .returned (.nullRun n) ∧ t = s.acceptToken (.nullRun n) := by
  unfold execTNullrun at h
  split at h
  · rename_i hn
    split at h
    · rename_i ho
      cases h
      exact ⟨hn, ((s.offersToken_iff _).1 ho).1, ((s.offersToken_iff _).1 ho).2, rfl⟩
    · cases h
  · cases h

/-- The stand-alone function ports change only the result wires and the count of free values (spec/10_state.md R27). -/
def PortFrame (s t : State) : Prop := t = { s with result := t.result, fresh := t.fresh }

theorem execToChar_frame {n : BitVec 7} {s t : State} (h : execToChar n s = .next t) : PortFrame s t := by
  unfold execToChar at h
  split at h
  · cases h
    rfl
  · cases h

theorem execFromChar_frame {c : Byte} {s t : State} (h : execFromChar c s = .next t) : PortFrame s t := by
  unfold execFromChar at h
  split at h <;> cases h <;> rfl

theorem execPack_frame {x y z : Byte} {s t : State} (h : execPack x y z s = .next t) : PortFrame s t := by
  cases h
  rfl

theorem execEscape_frame {n : BitVec 7} {s t : State} (h : execEscape n s = .next t) : PortFrame s t := by
  unfold execEscape at h
  split at h
  · cases h
    rfl
  · cases h

theorem execPadmark_frame {s t : State} (h : execPadmark s = .next t) : PortFrame s t := by
  cases h
  rfl

theorem execAbort_next {w : Stream} {s t : State} (h : execAbort w s = .next t) :
    canFail w s.seq s.call = true ∧ t = s.raiseIOError w := by
  unfold execAbort at h
  split at h
  · rename_i hc
    cases h
    exact ⟨hc, rfl⟩
  · cases h

end Sys2Proof.Machine
end

