-- ==== Sys2Proof/Laws/PerInstr.lean ====
section
/-! SUPPORT. Facts about the syntax, one lemma per instruction: every encoding stands on wires of the width that
spec/opcode_table.json gives its row. -/

namespace Sys2Proof

/-- The width of a word. -/
def PortWord.width (p : PortWord) : Nat :=
  match p with
  | .symbol _ => 9
  | .symbolStep _ => 9
  | .token _ => 35
  | .wire32 _ => 32
  | .wire16 _ => 16
  | .wireVar bytes => 8 * bytes.length
  | .opToChar _ => 7
  | .opFromChar _ => 8
  | .opPack _ => 24
  | .opEscape _ => 7
  | .opPadmark => 0
  | .opEmit _ => 33
  | .opGet3 => 0
  | .sequencer => 0
  | .ioErr _ => 0
  | .resetLine => 0

/-- The width of a row's encoding in spec/opcode_table.json: SYM9, TOK35, WIRE32, WIRE16, WIREVAR, OP<n>; SEQSTATE and EVENT
rows have no bits. -/
def tableWidth (i : Instr) : Nat :=
  match i with
  | .symEof | .symNul | .symLit _ => 9
  | .symNulCount | .symNulCut | .symNulAppend => 9
  | .symLitAppend _ | .symLitBacktrack _ | .symLitEndrun _ => 9
  | .symEofRun | .symEofOne | .symEofTail | .symEofEnd => 9
  | .tEnd | .tLiteral _ _ _ _ | .tNullrun _ => 35
  | .wQuad _ _ _ _ => 32
  | .wEsc _ | .wPad | .wEol => 16
  | .wHdr hdr => 8 * hdr.length + 16
  | .toChar _ => 7
  | .fromChar _ => 8
  | .pack _ _ _ => 24
  | .escape _ => 7
  | .padmark => 0
  | .emit _ _ => 33
  | .get3 => 0
  | .seqStart | .seqLiteral | .seqShortlit | .seqNullrun | .seqEnd | .seqFinalize => 0
  | .abort _ | .reset => 0

/-- An instruction is encoded at the width of its row. -/
def Laws.EncodedWidth.Statement (i : Instr) : Prop := (encode i).width = tableWidth i

namespace Laws.EncodedWidth

theorem symEof : Statement .symEof := rfl
theorem symNul : Statement .symNul := rfl
theorem symLit (b : Byte) : Statement (.symLit b) := rfl
theorem symNulCount : Statement .symNulCount := rfl
theorem symNulCut : Statement .symNulCut := rfl
theorem symNulAppend : Statement .symNulAppend := rfl
theorem symLitAppend (b : Byte) : Statement (.symLitAppend b) := rfl
theorem symLitBacktrack (b : Byte) : Statement (.symLitBacktrack b) := rfl
theorem symLitEndrun (b : Byte) : Statement (.symLitEndrun b) := rfl
theorem symEofRun : Statement .symEofRun := rfl
theorem symEofOne : Statement .symEofOne := rfl
theorem symEofTail : Statement .symEofTail := rfl
theorem symEofEnd : Statement .symEofEnd := rfl
theorem tEnd : Statement .tEnd := rfl
theorem tLiteral (l : BitVec 2) (x y z : Byte) : Statement (.tLiteral l x y z) := rfl
theorem tNullrun (n : BitVec 7) : Statement (.tNullrun n) := rfl
theorem wQuad (a b c d : Byte) : Statement (.wQuad a b c d) := rfl
theorem wEsc (k : Byte) : Statement (.wEsc k) := rfl
theorem wPad : Statement .wPad := rfl
theorem wEol : Statement .wEol := rfl
theorem wHdr (h : List Byte) : Statement (.wHdr h) := by
  simp [Statement, encode, PortWord.width, tableWidth]; omega
theorem toChar (n : BitVec 7) : Statement (.toChar n) := rfl
theorem fromChar (c : Byte) : Statement (.fromChar c) := rfl
theorem pack (x y z : Byte) : Statement (.pack x y z) := rfl
theorem escape (n : BitVec 7) : Statement (.escape n) := rfl
theorem padmark : Statement .padmark := rfl
theorem emit (l : Bool) (g : BitVec 32) : Statement (.emit l g) := rfl
theorem get3 : Statement .get3 := rfl
theorem seqStart : Statement .seqStart := rfl
theorem seqLiteral : Statement .seqLiteral := rfl
theorem seqShortlit : Statement .seqShortlit := rfl
theorem seqNullrun : Statement .seqNullrun := rfl
theorem seqEnd : Statement .seqEnd := rfl
theorem seqFinalize : Statement .seqFinalize := rfl
theorem abort (w : Stream) : Statement (.abort w) := rfl
theorem reset : Statement .reset := rfl

end Laws.EncodedWidth

end Sys2Proof
end

