-- ==== Sys2Proof/Tests/Slice0.lean ====
section
/-! SUPPORT. Tests of the model: ill-formed terms, words written out from the encodings of spec/30_encoding.md, one step of
each instruction with the result that spec/95_test_vectors.md gives (the vector's name stands in the comment), and for each
statement with hypotheses a state that meets them. -/

namespace Sys2Proof.Tests

open Machine

/-! ## Helpers -/

/-- The state that an outcome goes on to. -/
def after (o : Host.Outcome State Fault Refusal) : Option State :=
  match o with
  | .next s => some s
  | _ => none

/-- The reason that an outcome refuses with. -/
def refusal (o : Host.Outcome State Fault Refusal) : Option Refusal :=
  match o with
  | .refused r => some r
  | _ => none

/-- Inside a call, with the pending literals and nulls of a vector of section 6. -/
def inside (lit : Lit) (litN : BitVec 2) (nulls : BitVec 7) : State :=
  { State.reset with seq := .streaming, call := .running, lit := lit, litN := litN, nulls := nulls }

/-- `Streaming` with a token that the sequencer has taken. -/
def waiting (lit : Lit) (tok : Token) : State :=
  { State.reset with seq := .streaming, call := .accepted tok, lit := lit }

/-- `Streaming` with a token on the token bus. -/
def onBus (lit : Lit) (tok : Token) : State :=
  { State.reset with seq := .streaming, call := .returned tok, lit := lit }

/-- A column of section 7. -/
def atCol (col : BitVec 7) : State := { State.reset with seq := .streaming, col := col }

/-- `Streaming` between two calls, with unread input. -/
def between (input : List Byte) : State :=
  { session [] input with seq := .streaming }

def noLit : Lit := { b0 := 0xEE#8, b1 := 0xEE#8, b2 := 0xEE#8 }
def lit41 : Lit := { noLit with b0 := 0x41#8 }
def lit4100 : Lit := { lit41 with b1 := 0x00#8 }

/-- What a classifier vector of section 6 states: the buffer, `LIT_N`, `NULLS`, the call. -/
def view (o : Host.Outcome State Fault Refusal) : Option (Lit × BitVec 2 × BitVec 7 × Call) :=
  (after o).map fun t => (t.lit, t.litN, t.nulls, t.call)

/-- What a vector of section 7 states: the output and the column. -/
def viewOut (o : Host.Outcome State Fault Refusal) : Option (List Byte × BitVec 7) :=
  (after o).map fun t => (t.out, t.col)

/-! ## Well-formedness: an ill-formed term for each check -/

theorem test_wf_lit_is_not_null : (Instr.symLit 0x00#8).wellFormed = false := by decide
theorem test_wf_append_is_not_null : (Instr.symLitAppend 0x00#8).wellFormed = false := by decide
theorem test_wf_backtrack_is_not_null : (Instr.symLitBacktrack 0x00#8).wellFormed = false := by decide
theorem test_wf_endrun_is_not_null : (Instr.symLitEndrun 0x00#8).wellFormed = false := by decide
theorem test_wf_literal_has_bytes : (Instr.tLiteral 0#2 0x41#8 0x42#8 0x43#8).wellFormed = false := by decide
theorem test_wf_run_is_not_one : (Instr.tNullrun 1#7).wellFormed = false := by decide
theorem test_wf_run_is_not_79 : (Instr.tNullrun 79#7).wellFormed = false := by decide
theorem test_wf_quad_first_below : (Instr.wQuad 0x2F#8 0x30#8 0x30#8 0x30#8).wellFormed = false := by decide
theorem test_wf_quad_second_above : (Instr.wQuad 0x30#8 0x70#8 0x30#8 0x30#8).wellFormed = false := by decide
theorem test_wf_quad_third_above : (Instr.wQuad 0x30#8 0x30#8 0x7E#8 0x30#8).wellFormed = false := by decide
theorem test_wf_quad_fourth_below : (Instr.wQuad 0x30#8 0x30#8 0x30#8 0x0A#8).wellFormed = false := by decide
theorem test_wf_esc_is_not_one : (Instr.wEsc 0x31#8).wellFormed = false := by decide
theorem test_wf_esc_is_not_79 : (Instr.wEsc 0x7F#8).wellFormed = false := by decide

/-! ## Decoding: words written out from spec/30_encoding.md -/

/-- R50, R51: `eof` in bit 8, whatever the byte field. -/
theorem test_decode_symbols :
    decode (.symbol 0b100000000#9) = .ok .symEof ∧ decode (.symbol 0b111111111#9) = .ok .symEof ∧
    decode (.symbol 0b000000000#9) = .ok .symNul ∧ decode (.symbol 0b001000001#9) = .ok (.symLit 0x41#8) ∧
    decode (.symbol 0b011111111#9) = .ok (.symLit 0xFF#8) := by decide

/-- The rows SYM9+state, each by its symbol and its condition. -/
theorem test_decode_null_steps :
    decodeStep 0b000000000#9 0#2 77#7 = .symNulCount ∧ decodeStep 0b000000000#9 0#2 78#7 = .symNulCut ∧
    decodeStep 0b000000000#9 1#2 0#7 = .symNulAppend := by decide
theorem test_decode_literal_steps :
    decodeStep 0b001000001#9 2#2 0#7 = .symLitAppend 0x41#8 ∧
    decodeStep 0b001000001#9 0#2 1#7 = .symLitBacktrack 0x41#8 ∧
    decodeStep 0b001000001#9 0#2 2#7 = .symLitEndrun 0x41#8 := by decide
theorem test_decode_end_steps :
    decodeStep 0b100000000#9 0#2 2#7 = .symEofRun ∧ decodeStep 0b100000000#9 0#2 1#7 = .symEofOne ∧
    decodeStep 0b100000000#9 1#2 0#7 = .symEofTail ∧ decodeStep 0b100000000#9 0#2 0#7 = .symEofEnd := by decide

/-- R52: kind, length, count, three bytes. -/
theorem test_decode_tokens :
    decode (.token 0b00000000000000000000000000000000000#35) = .ok .tEnd ∧
    decode (.token 0b01110000000010000010000000001000010#35) = .ok (.tLiteral 3#2 0x41#8 0x00#8 0x42#8) ∧
    decode (.token 0b10001001110000000000000000000000000#35) = .ok (.tNullrun 78#7) := by decide
theorem test_decode_bad_tokens :
    decode (.token 0b11000000000000000000000000000000000#35) = .error .tokenKind ∧
    decode (.token 0b00000000000000000000000000000000001#35) = .error .tokenZeroField ∧
    decode (.token 0b01000000000010000010000000000000000#35) = .error .literalLength ∧
    decode (.token 0b01010000001010000010000000000000000#35) = .error .tokenZeroField ∧
    decode (.token 0b10000000001000000000000000000000000#35) = .error .nullRunCount ∧
    decode (.token 0b10010000010000000000000000000000000#35) = .error .tokenZeroField := by decide

/-- R53 to R57, R61. -/
theorem test_decode_groups :
    decode (.wire32 0x40403132#32) = .ok (.wQuad 0x40#8 0x40#8 0x31#8 0x32#8) ∧
    decode (.wire16 0x7E33#16) = .ok (.wEsc 0x33#8) ∧ decode (.wire16 0x7E7E#16) = .ok (.wEsc 0x7E#8) ∧
    decode (.wire16 0x7E30#16) = .ok .wPad ∧ decode (.wire16 0x0D0A#16) = .ok .wEol ∧
    decode (.wireVar [0x61#8, 0x0D#8, 0x0A#8]) = .ok (.wHdr [0x61#8]) := by decide
theorem test_decode_bad_groups :
    decode (.wire32 0x40403170#32) = .error .quadCharacter ∧ decode (.wire16 0x7E31#16) = .error .countCharacter ∧
    decode (.wire16 0x7E7F#16) = .error .countCharacter ∧ decode (.wire16 0x4040#16) = .error .groupMarker ∧
    decode (.wireVar [0x61#8, 0x0A#8]) = .error .headerLineBreak := by decide

/-- R66: the operand buses. -/
theorem test_decode_operands :
    decode (.opToChar 0b0010000#7) = .ok (.toChar 16#7) ∧ decode (.opFromChar 0x40#8) = .ok (.fromChar 0x40#8) ∧
    decode (.opPack 0x410042#24) = .ok (.pack 0x41#8 0x00#8 0x42#8) ∧
    decode (.opEscape 0b0000011#7) = .ok (.escape 3#7) ∧ decode .opPadmark = .ok .padmark ∧
    decode (.opEmit 0b101000000010000000011000100110010#33) = .ok (.emit true 0x40403132#32) ∧
    decode (.opEmit 0b001111110001100110000000000000000#33) = .ok (.emit false 0x7E330000#32) ∧
    decode .opGet3 = .ok .get3 := by decide

/-- The rows SEQSTATE, each by `SEQ` and the token; the events. -/
theorem test_select_sequencer_rows :
    selectRow .start .idle = some .seqStart ∧ selectRow .streaming (.accepted (.literal 3#2)) = some .seqLiteral ∧
    selectRow .streaming (.accepted (.literal 2#2)) = some .seqShortlit ∧
    selectRow .streaming (.accepted (.nullRun 3#7)) = some .seqNullrun ∧
    selectRow .streaming (.accepted .endOfInput) = some .seqEnd ∧ selectRow .finalizing .idle = some .seqFinalize ∧
    selectRow .streaming (.returned .endOfInput) = none ∧ selectRow .done .idle = none ∧ selectRow .abort .idle = none := by decide
theorem test_decode_events :
    decode (.ioErr .inp) = .ok (.abort .inp) ∧ decode (.ioErr .out) = .ok (.abort .out) ∧
    decode .resetLine = .ok .reset := by decide

/-- Words numbered as the opcode table numbers them, in whole bytes. -/
theorem test_table_words :
    decodeTableWord 16 0x141 = some .symEof ∧ decodeTableWord 16 0x041 = some (.symLit 0x41#8) ∧
    decodeTableWord 16 0x7E30 = some .wPad ∧ decodeTableWord 32 0x40403132 = some (.wQuad 0x40#8 0x40#8 0x31#8 0x32#8) ∧
    decodeTableWord 40 0 = some .tEnd ∧ decodeTableWord 40 0x401000000 = none ∧
    decodeTableWord 40 0x403000000 = some (.tNullrun 3#7) ∧ decodeTableWord 24 0x4D616E = some (.pack 0x4D#8 0x61#8 0x6E#8) ∧
    decodeTableWord 40 0x140403132 = some (.emit true 0x40403132#32) := by decide

/-- A word placed from reset is read and run by the very next step. -/
theorem test_step_runs_placed_symbol :
    (after (step (State.reset.withFetchWord 16 0x041))).map (fun t => (t.lit.b0, t.litN, t.ipos)) =
      some (0x41#8, 1#2, 1) := by decide
theorem test_step_runs_placed_group :
    viewOut (step (State.reset.withFetchWord 32 0x40403132)) =
      some ([0x40#8, 0x40#8, 0x31#8, 0x32#8], 4#7) := by decide
theorem test_step_runs_placed_token :
    (after (step (State.reset.withFetchWord 40 0x403000000))).map (·.call) = some (.accepted (.nullRun 3#7)) ∧
    (after (step (State.reset.withFetchWord 40 0))).map (·.call) = some (.accepted .endOfInput) := by decide

/-! ## The mapper, the packer, the escaper (vectors A, K, E) -/

/-- A5, A15. -/
theorem test_toChar :
    (after (exec (.toChar 16#7) State.reset)).map (·.result) = some (.char 0x40#8) ∧
    (after (exec (.toChar 78#7) State.reset)).map (·.result) = some (.char 0x7E#8) := by decide
/-- A16. -/
theorem test_toChar_refuses : refusal (exec (.toChar 79#7) State.reset) = some .charIndexOutOfRange := by decide
/-- A20, A21. -/
theorem test_fromChar :
    (after (exec (.fromChar 0x6F#8) State.reset)).map (·.result) = some (.charIndex true 63#7 true) ∧
    (after (exec (.fromChar 0x70#8) State.reset)).map (·.result) = some (.charIndex true 64#7 false) := by decide
/-- A23, A24: the other two results are open, and the instruction runs. -/
theorem test_fromChar_invalid :
    charValid 0x2F#8 = false ∧ charValid 0x7F#8 = false ∧
    (after (exec (.fromChar 0x2F#8) State.reset)).isSome = true := by decide
/-- K7, K5. -/
theorem test_pack :
    (after (exec (.pack 0x41#8 0x00#8 0x42#8) State.reset)).map (·.result) = some (.quad 0x40403132#32) ∧
    (after (exec (.pack 0x03#8 0xF0#8 0x00#8) State.reset)).map (·.result) = some (.quad 0x306F3030#32) := by decide
/-- K6, K14. -/
theorem test_pack_low_bits :
    packChars 0x00#8 0x0F#8 0xC0#8 = [0x30#8, 0x30#8, 0x6F#8, 0x30#8] ∧
    packChars 0x6C#8 0x6F#8 0x2C#8 = [0x4B#8, 0x36#8, 0x6C#8, 0x5C#8] := by decide
/-- E4, E8. -/
theorem test_escape :
    (after (exec (.escape 10#7) State.reset)).map (·.result) = some (.pair 0x7E3A#16) ∧
    (after (exec (.escape 78#7) State.reset)).map (·.result) = some (.pair 0x7E7E#16) := by decide
/-- E10, E11. -/
theorem test_escape_refuses :
    refusal (exec (.escape 1#7) State.reset) = some .runCountOutOfRange ∧
    refusal (exec (.escape 79#7) State.reset) = some .runCountOutOfRange := by decide
/-- E12. -/
theorem test_padmark : (after (exec .padmark State.reset)).map (·.result) = some (.pair 0x7E30#16) := by decide

/-! ## The line writer (vectors M) -/

/-- M2, M3. -/
theorem test_emit_quad :
    viewOut (exec (.emit true 0x40403132#32) (atCol 68#7)) = some ([0x40#8, 0x40#8, 0x31#8, 0x32#8], 72#7) ∧
    viewOut (exec (.emit true 0x40403132#32) (atCol 70#7)) =
      some ([0x0D#8, 0x0A#8, 0x40#8, 0x40#8, 0x31#8, 0x32#8], 4#7) := by decide
/-- M4, M5. -/
theorem test_emit_pair :
    viewOut (exec (.emit false 0x7E330000#32) (atCol 70#7)) = some ([0x7E#8, 0x33#8], 72#7) ∧
    viewOut (exec (.emit false 0x7E330000#32) (atCol 72#7)) = some ([0x0D#8, 0x0A#8, 0x7E#8, 0x33#8], 2#7) := by
  decide
/-- M8. -/
theorem test_emit_refuses_three : emitGroup [0x30#8, 0x30#8, 0x30#8] (atCol 0#7) = .refused .groupLength := by decide
/-- M6. -/
theorem test_wQuad :
    viewOut (exec (.wQuad 0x40#8 0x40#8 0x31#8 0x32#8) (atCol 72#7)) =
      some ([0x0D#8, 0x0A#8, 0x40#8, 0x40#8, 0x31#8, 0x32#8], 4#7) := by decide
/-- M5. -/
theorem test_wEsc :
    viewOut (exec (.wEsc 0x33#8) (atCol 72#7)) = some ([0x0D#8, 0x0A#8, 0x7E#8, 0x33#8], 2#7) := by decide
/-- M7. -/
theorem test_wPad : viewOut (exec .wPad (atCol 66#7)) = some ([0x7E#8, 0x30#8], 68#7) := by decide
/-- R34, R143: the column stays. -/
theorem test_wEol : viewOut (exec .wEol (atCol 72#7)) = some ([0x0D#8, 0x0A#8], 72#7) := by decide
/-- R57: the header is not escaped and not counted. -/
theorem test_wHdr :
    viewOut (exec (.wHdr [0x7E#8]) (atCol 2#7)) = some ([0x7E#8, 0x0D#8, 0x0A#8], 2#7) := by decide

/-! ## The classifier (vectors G) -/

/-- G3. -/
theorem test_symNulCount : view (exec .symNulCount (inside noLit 0#2 4#7)) = some (noLit, 0#2, 5#7, .running) := by
  decide
/-- G10 by the counting step. -/
theorem test_symNulCount_cuts :
    view (exec .symNulCount (inside noLit 0#2 78#7)) = some (noLit, 0#2, 79#7, .returned (.nullRun 78#7)) := by decide
/-- G10. -/
theorem test_symNulCut :
    (after (exec .symNulCut (inside noLit 0#2 78#7))).map (fun t => (t.nulls, t.remByte, t.remValid, t.call)) =
      some (79#7, 0x00#8, true, .returned (.nullRun 78#7)) := by decide
/-- G4. -/
theorem test_symNulAppend :
    view (exec .symNulAppend (inside lit41 1#2 0#7)) = some (lit4100, 2#2, 0#7, .running) := by decide
/-- G12. -/
theorem test_symNulAppend_completes :
    view (exec .symNulAppend (inside lit4100 2#2 0#7)) =
      some ({ lit4100 with b2 := 0x00#8 }, 3#2, 0#7, .returned (.literal 3#2)) := by decide
/-- G2, G9. -/
theorem test_symNul :
    view (exec .symNul (inside noLit 0#2 0#7)) = some (noLit, 0#2, 1#7, .running) ∧
    view (exec .symNul (inside noLit 0#2 77#7)) = some (noLit, 0#2, 78#7, .running) := by decide
/-- G1. -/
theorem test_symLitAppend :
    view (exec (.symLitAppend 0x41#8) (inside noLit 0#2 0#7)) = some (lit41, 1#2, 0#7, .running) := by decide
/-- G11. -/
theorem test_symLitAppend_completes :
    view (exec (.symLitAppend 0x42#8) (inside lit4100 2#2 0#7)) =
      some ({ lit4100 with b2 := 0x42#8 }, 3#2, 0#7, .returned (.literal 3#2)) := by decide
/-- G5. -/
theorem test_symLitBacktrack :
    view (exec (.symLitBacktrack 0x41#8) (inside noLit 0#2 1#7)) =
      some ({ noLit with b0 := 0x00#8, b1 := 0x41#8 }, 2#2, 0#7, .running) := by decide
/-- G7. -/
theorem test_symLitEndrun :
    (after (exec (.symLitEndrun 0xFF#8) (inside noLit 0#2 2#7))).map
      (fun t => (t.nulls, t.remByte, t.remValid, t.call)) =
      some (2#7, 0xFF#8, true, .returned (.nullRun 2#7)) := by decide
/-- G8, G5 by the class. -/
theorem test_symLit :
    view (exec (.symLit 0x41#8) (inside noLit 0#2 78#7)) = some (noLit, 0#2, 78#7, .returned (.nullRun 78#7)) ∧
    view (exec (.symLit 0x41#8) (inside noLit 0#2 1#7)) =
      some ({ noLit with b0 := 0x00#8, b1 := 0x41#8 }, 2#2, 0#7, .running) := by decide
/-- G14. -/
theorem test_symEofRun :
    view (exec .symEofRun (inside noLit 0#2 78#7)) = some (noLit, 0#2, 78#7, .returned (.nullRun 78#7)) := by decide
/-- G15. -/
theorem test_symEofOne :
    view (exec .symEofOne (inside noLit 0#2 1#7)) =
      some ({ noLit with b0 := 0x00#8 }, 1#2, 0#7, .returned (.literal 1#2)) := by decide
/-- G17. -/
theorem test_symEofTail :
    view (exec .symEofTail (inside lit41 1#2 0#7)) = some (lit41, 1#2, 0#7, .returned (.literal 1#2)) := by decide
/-- G18. -/
theorem test_symEofEnd :
    view (exec .symEofEnd (inside noLit 0#2 0#7)) = some (noLit, 0#2, 0#7, .returned .endOfInput) := by decide
/-- G13, G16 by the class. -/
theorem test_symEof :
    view (exec .symEof (inside noLit 0#2 2#7)) = some (noLit, 0#2, 2#7, .returned (.nullRun 2#7)) ∧
    view (exec .symEof (inside lit4100 2#2 0#7)) = some (lit4100, 2#2, 0#7, .returned (.literal 2#2)) := by decide
/-- G19, G20, G21. -/
theorem test_call_start :
    view (.next { inside noLit 3#2 79#7 with remValid := true, remByte := 0x00#8 }.openCall) =
      some (noLit, 0#2, 1#7, .running) ∧
    view (.next { inside noLit 3#2 79#7 with remValid := true, remByte := 0x41#8 }.openCall) =
      some (lit41, 1#2, 0#7, .running) ∧
    view (.next (inside noLit 3#2 0#7).openCall) = some (noLit, 0#2, 0#7, .running) := by decide
/-- T6 and T8, first calls. -/
theorem test_get3 :
    view (exec .get3 (between [0x00#8, 0x41#8])) =
      some ({ b0 := 0x00#8, b1 := 0x41#8, b2 := 0#8 }, 2#2, 0#7, .returned (.literal 2#2)) ∧
    (after (exec .get3 (between [0x00#8, 0x00#8, 0x00#8, 0x41#8]))).map (fun t => (t.remByte, t.remValid, t.call)) =
      some (0x41#8, true, .returned (.nullRun 3#7)) := by decide

/-! ## Tokens and the sequencer -/

/-- R52: the bytes beyond the length are not meaningful. -/
theorem test_tLiteral :
    (after (exec (.tLiteral 2#2 0x41#8 0x00#8 0x42#8) (onBus lit4100 (.literal 2#2)))).map (·.call) =
      some (.accepted (.literal 2#2)) ∧
    refusal (exec (.tLiteral 2#2 0x41#8 0x01#8 0x42#8) (onBus lit4100 (.literal 2#2))) = some .tokenNotAccepted := by
  decide
theorem test_tNullrun :
    (after (exec (.tNullrun 78#7) (onBus noLit (.nullRun 78#7)))).map (·.call) = some (.accepted (.nullRun 78#7)) ∧
    refusal (exec (.tNullrun 77#7) (onBus noLit (.nullRun 78#7))) = some .tokenNotAccepted := by decide
/-- R137, and R150: `End` is not forced on the sequencer while a call is open. -/
theorem test_tEnd :
    (after (exec .tEnd (onBus noLit .endOfInput))).map (·.call) = some (.accepted .endOfInput) ∧
    refusal (exec .tEnd (inside noLit 0#2 0#7)) = some .tokenNotAccepted := by decide
theorem test_tokens_refused :
    refusal (exec (.tNullrun 1#7) (onBus noLit (.nullRun 1#7))) = some .malformedToken ∧
    refusal (exec .tEnd State.reset) = some .tokenNotAccepted := by decide

/-- R136's example. -/
theorem test_seqStart :
    (after (exec .seqStart (session [0x61#8, 0x2E#8] []))).map (fun t => (t.out, t.col, t.statusSeq)) =
      some ([0x61#8, 0x2E#8, 0x0D#8, 0x0A#8], 0#7, 1#3) := by decide
/-- R138's example. -/
theorem test_seqLiteral :
    (after (exec .seqLiteral (waiting { lit4100 with b2 := 0x42#8 } (.literal 3#2)))).map
      (fun t => (t.out, t.col, t.fill, t.call)) =
      some ([0x40#8, 0x40#8, 0x31#8, 0x32#8], 4#7, 0#2, .idle) := by decide
/-- R139's example, and S22. -/
theorem test_seqShortlit :
    (after (exec .seqShortlit (waiting { lit41 with b1 := 0x42#8 } (.literal 2#2)))).map
      (fun t => (t.out, t.fill, t.lit.b2)) = some ([0x40#8, 0x44#8, 0x38#8, 0x30#8], 1#2, 0x00#8) ∧
    (after (exec .seqShortlit (waiting lit41 (.literal 1#2)))).map (fun t => (t.out, t.fill, t.lit.b1)) =
      some ([0x40#8, 0x40#8, 0x30#8, 0x30#8], 2#2, 0x00#8) := by decide
/-- R140's example. -/
theorem test_seqNullrun :
    (after (exec .seqNullrun { waiting noLit (.nullRun 3#7) with col := 4#7 })).map (fun t => (t.out, t.col, t.fill)) =
      some ([0x7E#8, 0x33#8], 6#7, 0#2) := by decide
/-- R141. -/
theorem test_seqEnd :
    (after (exec .seqEnd { waiting noLit .endOfInput with fill := 2#2 })).map (fun t => (t.out, t.fill, t.statusSeq)) =
      some ([], 2#2, 2#3) := by decide
/-- R142's example, with the trailer of R143. -/
theorem test_seqFinalize :
    (after (exec .seqFinalize { State.reset with seq := .finalizing, fill := 2#2, col := 4#7 })).map
      (fun t => (t.out, t.col, t.statusSeq)) =
      some ([0x7E#8, 0x30#8, 0x7E#8, 0x30#8, 0x0D#8, 0x0A#8], 8#7, 3#3) := by decide
/-- The end of W10: the break falls between the markers. -/
theorem test_seqFinalize_wraps :
    (after (exec .seqFinalize { State.reset with seq := .finalizing, fill := 2#2, col := 70#7 })).map
      (fun t => (t.out, t.col)) =
      some ([0x7E#8, 0x30#8, 0x0D#8, 0x0A#8, 0x7E#8, 0x30#8, 0x0D#8, 0x0A#8], 2#7) := by decide

/-! ## Abort and reset -/

/-- G22 as an event. -/
theorem test_abort :
    (after (exec (.abort .inp) (inside noLit 0#2 2#7))).map (fun t => (t.statusSeq, t.statusErr, t.out)) =
      some (4#3, 1#2, []) := by decide
/-- R159: none after `Done`; R156: none between two calls. -/
theorem test_abort_refused :
    refusal (exec (.abort .out) { State.reset with seq := .done }) = some .noAccessToFail ∧
    refusal (exec (.abort .inp) (between [0x41#8])) = some .noAccessToFail := by decide
/-- X1: read 0 fails. -/
theorem test_failed_read :
    (after (step { between [0x41#8] with args := { SessionArgs.empty with readFail := some 0 } })).map
      (fun t => (t.statusSeq, t.statusErr)) = some (4#3, 1#2) := by decide
/-- X6: the second character of a quad. -/
theorem test_failed_write :
    (after (exec .seqLiteral { waiting { lit4100 with b2 := 0x42#8 } (.literal 3#2) with
        args := { SessionArgs.empty with writeFail := some 1 } })).map (fun t => (t.out.head?, t.statusErr, t.writes)) =
      some (some 0x40#8, 2#2, 2) := by decide
/-- R175. -/
theorem test_reset :
    (after (exec .reset { State.reset with
        seq := .abort, err := .out, col := 4#7, out := [0x41#8],
        offered := { SessionArgs.empty with input := [0x42#8] } })).map
      (fun t => (t.statusSeq, t.statusErr, t.col, t.out, t.args.input)) =
      some (0#3, 0#2, 0#7, [], [0x42#8]) := by decide

/-! ## The outside -/

/-- R162: a leaf function presented inside a call shows its result and leaves the call alone. -/
theorem test_port_leaves_the_session :
    (after (step { inside lit41 1#2 0#7 with request := some (.escape 10#7) })).map
      (fun t => (t.lit, t.litN, t.call, t.out, t.result)) =
      some (lit41, 1#2, .running, [], .pair 0x7E3A#16) := by decide
/-- R8, U5: an operand that ESCAPE refuses does not halt the session. -/
theorem test_refused_operand_does_not_halt :
    step { inside lit41 1#2 0#7 with request := some (.escape 1#7) } =
      .next { inside lit41 1#2 0#7 with result := .refused } := rfl
theorem witness_NothingPresentedAltersTheSession :
    let p : State := { inside lit41 1#2 0#7 with request := some .padmark }
    p.resetLine = false ∧ p.request = some .padmark ∧
    step p = .next { inside lit41 1#2 0#7 with result := .pair 0x7E30#16 } ∧ p.unitWires = none :=
  ⟨rfl, rfl, rfl, rfl⟩

/-! ## Reading back -/

/-- D1's body with its marker, and U1: `~0` before the end is refused. -/
theorem test_reader :
    readBody [0x40#8, 0x44#8, 0x38#8, 0x30#8, 0x7E#8, 0x30#8, 0x0D#8, 0x0A#8] = some [0x41#8, 0x42#8] ∧
    readBody [0x7E#8, 0x30#8, 0x40#8, 0x44#8, 0x38#8, 0x30#8] = none ∧
    readBody [0x7E#8, 0x30#8, 0x7E#8, 0x32#8] = none := by decide
/-- R61: `~1`, a third marker, a marker with no data to trim, a short quad, a character above 0x6F in a quad. -/
theorem test_reader_refuses :
    readBody [0x7E#8, 0x31#8] = none ∧ readBody [0x7E#8, 0x30#8, 0x7E#8, 0x30#8, 0x7E#8, 0x30#8] = none ∧
    readBody [0x7E#8, 0x30#8] = none ∧ readBody [0x30#8, 0x30#8, 0x30#8] = none ∧ readBody [0x30#8, 0x70#8, 0x30#8, 0x30#8] = none := by decide

/-! ## Witnesses: states and operands that meet each statement's hypotheses together -/

theorem accepted {s : State} (n : Nat) (h : s.args.writeFail = none ∧ s.args.writeMute = none) : WritesAccepted s n :=
  fun _ _ _ => ⟨h.1 ▸ nofun, h.2 ▸ nofun⟩

theorem answered {s : State} (n : Nat) (h : s.args.readFail = none ∧ s.args.readMute = none) : ReadsAnswered s n :=
  fun _ _ _ => ⟨h.1 ▸ nofun, h.2 ▸ nofun⟩

theorem witness_DecodeInvertsEncode :
    (Instr.wEsc 0x7E#8).wellFormed = true ∧ (Instr.wEsc 0x7E#8).selectedByState = false := by decide

theorem witness_EncodeInvertsDecode :
    decode (.opEscape 127#7) = .ok (.escape 127#7) ∧ decode (.symbol 0x1FF#9) = .ok .symEof ∧
    Instr.escape 127#7 ≠ .symEof := by decide

theorem witness_EverySymbolHasExactlyOneClass :
    256 ≤ (0x100#9).toNat ∧ 256 ≤ (0x1FF#9).toNat ∧ (0x000#9).toNat = 0 ∧
    (1 ≤ (0x001#9).toNat ∧ (0x001#9).toNat < 256) ∧ (1 ≤ (0x0FF#9).toNat ∧ (0x0FF#9).toNat < 256) := by decide

theorem witness_StateSelectsThePerSymbolStep :
    stepCondition .symNulCount 0#2 77#7 ∧ stepCondition .symNulCut 0#2 78#7 ∧ stepCondition .symNulAppend 2#2 0#7 ∧
    stepCondition (.symLitAppend 1#8) 2#2 0#7 ∧ stepCondition (.symLitBacktrack 1#8) 0#2 1#7 ∧
    stepCondition (.symLitEndrun 1#8) 0#2 2#7 ∧ stepCondition .symEofRun 0#2 79#7 ∧ stepCondition .symEofOne 0#2 1#7 ∧
    stepCondition .symEofTail 1#2 0#7 ∧ stepCondition .symEofEnd 0#2 0#7 :=
  ⟨rfl, ⟨rfl, rfl⟩, .inr rfl, ⟨rfl, by decide⟩, rfl, (by decide : 2 ≤ (2#7).toNat),
    (by decide : 2 ≤ (79#7).toNat), rfl, ⟨rfl, .inl rfl⟩, rfl, rfl⟩

theorem witness_PlacedTableWordIsFetchedNext :
    decodeTableWord 16 0x100 = some .symEof ∧ decodeTableWord 40 0 = some .tEnd ∧
    decodeTableWord 7 78 = some (.toChar 78#7) ∧ decodeTableWord 7 127 = some (.toChar 127#7) ∧ 78 < (127#7).toNat := by
  decide

theorem witness_StepRunsTheDecodedInstruction :
    fetch { State.reset with request := some .padmark } = .word .opPadmark State.reset ∧
    decode .opPadmark = .ok .padmark ∧
    fetch { State.reset with unitWires := some (.wire16 0#16) } = .word (.wire16 0#16) State.reset ∧
    decode (.wire16 0#16) = .error .groupMarker ∧ fetch State.reset = .selected .seqStart State.reset ∧
    fetch { State.reset with request := some (.escape 1#7) } = .declined { State.reset with result := .refused } := by
  decide

theorem witness_StepReadsTheNextSymbol :
    (between [0x41#8]).undisturbed ∧ (between [0x41#8]).seq = .streaming ∧ (between [0x41#8]).call = .idle ∧
    ReadsAnswered (between [0x41#8]) 1 ∧ (between [0x41#8]).args.input[(between [0x41#8]).ipos]? = some 0x41#8 ∧
    (between []).args.input[(between []).ipos]? = none :=
  ⟨⟨rfl, rfl, rfl⟩, rfl, rfl, answered 1 ⟨rfl, rfl⟩, rfl, rfl⟩

theorem witness_FirstSymbolOfACallFollowsTheRemainder (v : Bool) (r b : Byte) :
    let s : State := { between [b] with remValid := v, remByte := r }
    let e : State := { between [] with remValid := v, remByte := r }
    (s.undisturbed ∧ s.seq = .streaming ∧ s.call = .idle ∧ ReadsAnswered s 1 ∧
      s.args.input[s.ipos]? = some b ∧ s.remValid = v ∧ s.remByte = r) ∧
    (e.undisturbed ∧ e.seq = .streaming ∧ e.call = .idle ∧ ReadsAnswered e 1 ∧
      e.args.input[e.ipos]? = none ∧ e.remValid = v ∧ e.remByte = r) :=
  ⟨⟨⟨rfl, rfl, rfl⟩, rfl, rfl, answered 1 ⟨rfl, rfl⟩, rfl, rfl, rfl⟩,
    ⟨rfl, rfl, rfl⟩, rfl, rfl, answered 1 ⟨rfl, rfl⟩, rfl, rfl, rfl⟩

theorem witness_StepRunsTheSequencerAction :
    State.reset.undisturbed ∧ State.reset.seq = .start ∧
    (∀ t, (waiting noLit t).undisturbed ∧ (waiting noLit t).seq = .streaming ∧ (waiting noLit t).call = .accepted t) ∧
    (∀ t, (onBus noLit t).undisturbed ∧ (onBus noLit t).seq = .streaming ∧ (onBus noLit t).call = .returned t) ∧
    ({ State.reset with seq := .finalizing } : State).undisturbed :=
  ⟨⟨rfl, rfl, rfl⟩, rfl, fun _ => ⟨⟨rfl, rfl, rfl⟩, rfl, rfl⟩, fun _ => ⟨⟨rfl, rfl, rfl⟩, rfl, rfl⟩, rfl, rfl, rfl⟩

theorem witness_ResetBeginsANewSession :
    ({ State.reset with resetLine := true, request := some .padmark, unitWires := some .get3 } : State).resetLine = true := by decide

/-- An operand on a leaf function's port, one outside its contract, and a word on the line writer's wires. -/
theorem witness_PresentedWordRunsNext :
    let p : State := { State.reset with request := some .padmark }
    let e : State := { State.reset with request := some (.escape 1#7) }
    let c : State := { State.reset with request := some (.toChar 79#7) }
    let u : State := { State.reset with unitWires := some (.wire16 0x0D0A#16) }
    (p.resetLine = false ∧ p.request = some .padmark ∧ decode (PortRequest.padmark).word = .ok .padmark) ∧
    (e.resetLine = false ∧ e.request = some (.escape 1#7) ∧ (1#7).toNat < 2) ∧
    (c.resetLine = false ∧ c.request = some (.toChar 79#7) ∧ 78 < (79#7).toNat) ∧
    (u.resetLine = false ∧ u.request = none ∧ u.unitWires = some (.wire16 0x0D0A#16) ∧
      decode (UnitWord.wire16 0x0D0A#16).word = .ok .wEol) := by decide

/-- For both clauses on a step: one with nothing presented, one with a port used after `Done`. -/
theorem witness_AfterTheSessionOnlyResetActs :
    let d : State := { State.reset with seq := .done }
    let p : State := { d with request := some .padmark }
    d.undisturbed ∧ d.seq = .done ∧ p.resetLine = false ∧ p.seq = .done ∧
      step p = .next { d with result := .pair 0x7E30#16 } :=
  ⟨⟨rfl, rfl, rfl⟩, rfl, rfl, rfl, rfl⟩

theorem witness_ToCharAddsTheBaseOnItsDomain :
    (0#7).toNat ≤ 78 ∧ (78#7).toNat ≤ 78 ∧ 78 < (79#7).toNat ∧ 78 < (127#7).toNat := by decide

theorem witness_FromCharReportsValidity :
    (48 ≤ (48#8).toNat ∧ (48#8).toNat ≤ 126) ∧ (48 ≤ (126#8).toNat ∧ (126#8).toNat ≤ 126) ∧ (47#8).toNat < 48 ∧
    126 < (127#8).toNat := by decide

theorem witness_FromCharAndToCharAreInverse :
    exec (.toChar 78#7) State.reset = .next { State.reset with result := .char 0x7E#8 } ∧
    exec (.fromChar 0x7E#8) State.reset = .next { State.reset with result := .charIndex true 78#7 false } :=
  ⟨rfl, rfl⟩

theorem witness_AlphabetRomHoldsEveryCharacter :
    romRead 0 = some 0x30#8 ∧ romRead 78 = some 0x7E#8 ∧ romRead 79 = none := by decide

theorem witness_PackedQuadUnpacksToItsTriple :
    exec (.pack 0xFF#8 0xFF#8 0xFF#8) State.reset = .next { State.reset with result := .quad 0x6F6F6F6F#32 } := rfl

theorem witness_EscapeAndPadMarkGiveTheirPairs :
    (2 ≤ (2#7).toNat ∧ (2#7).toNat ≤ 78) ∧ (2 ≤ (78#7).toNat ∧ (78#7).toNat ≤ 78) ∧ (1#7).toNat < 2 ∧
    78 < (79#7).toNat := by decide

/-- With and without the line break, for both lengths. -/
theorem witness_EmitWrapsThenWritesTheGroup (col : BitVec 7) (n : Nat) :
    (atCol col).seq ≠ .done ∧ (atCol col).seq ≠ .abort ∧ WritesAccepted (atCol col) n :=
  ⟨nofun, nofun, accepted n ⟨rfl, rfl⟩⟩

theorem witness_OutputGroupsAreWrittenOrRefused :
    (atCol 72#7).seq ≠ .done ∧ (atCol 72#7).seq ≠ .abort ∧ (∀ n, WritesAccepted (atCol 72#7) n) ∧
    (Instr.wQuad 0x30#8 0x6F#8 0x30#8 0x6F#8).wellFormed = true ∧ (Instr.wEsc 0x32#8).wellFormed = true ∧
    (Instr.wQuad 0x30#8 0x30#8 0x30#8 0x70#8).wellFormed = false ∧ (Instr.wEsc 0x31#8).wellFormed = false :=
  ⟨nofun, nofun, fun n => accepted n ⟨rfl, rfl⟩, rfl, rfl, rfl, rfl⟩

theorem witness_NullIsCountedAndTheSeventyNinthCutsTheRun :
    (inside noLit 0#2 77#7).call = .running ∧ (inside noLit 0#2 77#7).litN = 0#2 ∧
    (inside noLit 0#2 77#7).nulls.toNat < 78 ∧ (inside noLit 0#2 78#7).nulls = 78#7 := by decide

theorem witness_NullCompletesThePendingTriple :
    (inside lit41 1#2 0#7).call = .running ∧ (inside lit41 1#2 0#7).litN = 1#2 ∧
    (inside lit4100 2#2 0#7).litN = 2#2 := by decide

theorem witness_LiteralByteIsAppended :
    (inside noLit 0#2 0#7).call = .running ∧ (inside noLit 0#2 0#7).nulls = 0#7 ∧ (inside noLit 0#2 0#7).litN = 0#2 ∧
    (inside lit41 1#2 0#7).litN = 1#2 ∧ (inside lit4100 2#2 0#7).litN = 2#2 := by decide

theorem witness_IsolatedNullIsBacktracked :
    (inside noLit 0#2 1#7).call = .running ∧ (inside noLit 0#2 1#7).nulls = 1#7 := by decide

theorem witness_NonNullByteEndsTheRun :
    (inside noLit 0#2 2#7).call = .running ∧ 2 ≤ (inside noLit 0#2 2#7).nulls.toNat := by decide

theorem witness_EndOfInputReturnsTheRun :
    (inside noLit 0#2 78#7).call = .running ∧ 2 ≤ (inside noLit 0#2 78#7).nulls.toNat := by decide

theorem witness_EndOfInputReturnsOneNullAsLiteral :
    (inside noLit 0#2 1#7).call = .running ∧ (inside noLit 0#2 1#7).nulls = 1#7 := by decide

theorem witness_EndOfInputReturnsTheLiteralTail :
    (inside lit41 1#2 0#7).call = .running ∧ (inside lit41 1#2 0#7).nulls = 0#7 ∧
    (inside lit41 1#2 0#7).litN = 1#2 ∧ (inside lit4100 2#2 0#7).litN = 2#2 := by decide

theorem witness_EndOfInputWithNothingPendingReturnsEnd :
    (inside noLit 0#2 0#7).call = .running ∧ (inside noLit 0#2 0#7).nulls = 0#7 ∧
    (inside noLit 0#2 0#7).litN = 0#2 := by decide

theorem witness_PerSymbolStepRunsExactlyUnderItsCondition :
    Instr.symEofTail.isPerSymbol = true ∧ (inside lit41 1#2 0#7).call = .running ∧
    stepCondition .symEofTail (inside lit41 1#2 0#7).litN (inside lit41 1#2 0#7).nulls :=
  ⟨rfl, rfl, rfl, .inl rfl⟩

theorem witness_Get3ReturnsTheTokenOfTheRemainingInput :
    (between [0x00#8, 0x41#8]).seq = .streaming ∧ (between [0x00#8, 0x41#8]).call = .idle ∧
    ReadsAnswered (between [0x00#8, 0x41#8]) ((between [0x00#8, 0x41#8]).unread + 1) :=
  ⟨rfl, rfl, answered _ ⟨rfl, rfl⟩⟩

theorem witness_SteppingTheSymbolsIsTheCall :
    (between [0x00#8, 0x41#8]).undisturbed ∧ (between [0x00#8, 0x41#8]).seq = .streaming ∧
    (between [0x00#8, 0x41#8]).call = .idle := ⟨⟨rfl, rfl, rfl⟩, rfl, rfl⟩

/-- Each token on the bus, and a token that is not. -/
theorem witness_DeliveredTokenWaitsForTheSequencer :
    (onBus lit4100 .endOfInput).seq = .streaming ∧ (onBus lit4100 .endOfInput).call = .returned .endOfInput ∧
    (onBus lit4100 (.literal 2#2)).call = .returned (.literal 2#2) ∧
    (onBus lit4100 (.literal 2#2)).lit.bytes 2#2 = [0x41#8, 0x00#8, 0x42#8].take (2#2).toNat ∧
    (onBus lit4100 (.literal 2#2)).lit.bytes 2#2 ≠ [0x41#8, 0x01#8, 0x42#8].take (2#2).toNat ∧
    (onBus lit4100 (.nullRun 78#7)).call = .returned (.nullRun 78#7) ∧ State.reset.seq ≠ .streaming ∧
    (onBus lit4100 (.nullRun 78#7)).call ≠ .returned (.nullRun 2#7) ∧
    (2 ≤ (2#7).toNat ∧ (78#7).toNat ≤ 78) ∧ (1#7).toNat < 2 ∧ 78 < (79#7).toNat := by decide

theorem witness_StartWritesTheHeaderLine :
    State.reset.seq = .start ∧ WritesAccepted State.reset (State.reset.args.hdr.length + 2) :=
  ⟨rfl, accepted _ ⟨rfl, rfl⟩⟩

/-- For the four statements on a token that is handled: the token, and writes that are accepted. -/
theorem witness_FullLiteralIsPackedAndEmitted (n : Nat) :
    (waiting lit4100 (.literal 3#2)).seq = .streaming ∧
    (waiting lit4100 (.literal 3#2)).call = .accepted (.literal 3#2) ∧
    WritesAccepted (waiting lit4100 (.literal 3#2)) n := ⟨rfl, rfl, accepted n ⟨rfl, rfl⟩⟩

theorem witness_ShortLiteralIsPaddedAndEmitted (n : Nat) :
    (waiting lit41 (.literal 1#2)).seq = .streaming ∧ (waiting lit41 (.literal 1#2)).call = .accepted (.literal 1#2) ∧
    (waiting lit41 (.literal 2#2)).call = .accepted (.literal 2#2) ∧ WritesAccepted (waiting lit41 (.literal 1#2)) n ∧
    WritesAccepted (waiting lit41 (.literal 2#2)) n :=
  ⟨rfl, rfl, rfl, accepted n ⟨rfl, rfl⟩, accepted n ⟨rfl, rfl⟩⟩

theorem witness_NullRunIsEscapedAndEmitted (n : Nat) :
    (waiting noLit (.nullRun 78#7)).seq = .streaming ∧
    (waiting noLit (.nullRun 78#7)).call = .accepted (.nullRun 78#7) ∧ 2 ≤ (78#7).toNat ∧ (78#7).toNat ≤ 78 ∧
    WritesAccepted (waiting noLit (.nullRun 78#7)) n :=
  ⟨rfl, rfl, by decide, by decide, accepted n ⟨rfl, rfl⟩⟩

theorem witness_EndTokenStartsFinalizing :
    (waiting noLit .endOfInput).seq = .streaming ∧ (waiting noLit .endOfInput).call = .accepted .endOfInput := by decide

theorem witness_FinalizeWritesMarkersThenTheTrailer :
    let s : State := { State.reset with seq := .finalizing, fill := 2#2 }
    s.seq = .finalizing ∧ WritesAccepted s (4 * s.fill.toNat + 2) := ⟨rfl, accepted _ ⟨rfl, rfl⟩⟩

theorem witness_SequencerActionsAreRefusedElsewhere :
    (between []).seq ≠ .start ∧ State.reset.seq ≠ .streaming ∧ State.reset.seq ≠ .finalizing ∧
    (waiting noLit .endOfInput).call ≠ .accepted (.literal 3#2) ∧
    (waiting noLit (.literal 3#2)).call ≠ .accepted (.literal 2#2) ∧
    (waiting noLit (.literal 3#2)).call ≠ .accepted .endOfInput ∧ (between []).call ≠ .running ∧
    ({ State.reset with seq := .done } : State).seq = .done := by decide

theorem witness_AbortRecordsTheFailingStream :
    ((inside noLit 0#2 0#7).seq = .streaming ∧ (inside noLit 0#2 0#7).call = .running) ∧
    (Stream.out = .out → State.reset.seq = .start ∨ State.reset.seq = .streaming ∨ State.reset.seq = .finalizing) :=
  ⟨⟨rfl, rfl⟩, fun _ => .inl rfl⟩

/-- The state with the write `k` failing, or never answered. -/
def failing (k : Nat) (s : State) : State := { s with args := { s.args with writeFail := some k } }
def muted (k : Nat) (s : State) : State := { s with args := { s.args with writeMute := some k } }

/-- `Finalizing` with two markers to write at column 70: the second one wraps. -/
def finalizing : State := { State.reset with seq := .finalizing, fill := 2#2, col := 70#7 }

/-- The first header byte, the last byte of a wrapped quad, and the last byte of a trailer. -/
theorem witness_FailedWriteCutsTheOutputThere :
    (∃ bytes, writtenBytes .seqStart (failing 0 State.reset) = some bytes ∧ 0 < bytes.length) ∧
    (∃ bytes, writtenBytes (.emit true 0x40403132#32) (failing 5 (atCol 70#7)) = some bytes ∧ 5 < bytes.length) ∧
    (∃ bytes, writtenBytes .seqLiteral (failing 3 (waiting lit4100 (.literal 3#2))) = some bytes ∧ 3 < bytes.length) ∧
    (∃ bytes, writtenBytes .seqFinalize (failing 7 finalizing) = some bytes ∧ 7 < bytes.length) ∧
    (∀ k s, (failing k s).args.writeFail = some k) ∧ finalizing.writes = 0 ∧ finalizing.args.writeMute = none :=
  ⟨⟨_, rfl, by decide⟩, ⟨_, rfl, by decide⟩, ⟨_, rfl, by decide⟩, ⟨_, rfl, by decide⟩, fun _ _ => rfl, rfl, rfl⟩

/-- The bytes of the other instructions that write. -/
theorem test_writtenBytes :
    writtenBytes .seqShortlit (waiting lit41 (.literal 1#2)) = some [0x40#8, 0x40#8, 0x30#8, 0x30#8] ∧
    writtenBytes .seqNullrun (waiting noLit (.nullRun 3#7)) = some [0x7E#8, 0x33#8] ∧
    writtenBytes .seqFinalize finalizing =
      some [0x7E#8, 0x30#8, 0x0D#8, 0x0A#8, 0x7E#8, 0x30#8, 0x0D#8, 0x0A#8] := by decide

theorem witness_FailedReadAbortsTheSession :
    let s : State := { between [] with args := { SessionArgs.empty with readFail := some 0 } }
    s.undisturbed ∧ s.seq = .streaming ∧ s.call = .idle ∧ s.args.readFail = some s.reads ∧
      s.args.readMute ≠ some s.reads := ⟨⟨rfl, rfl, rfl⟩, rfl, rfl, rfl, nofun⟩

theorem witness_UnansweredAccessStopsTheMachine :
    let s : State := { between [] with args := { SessionArgs.empty with readMute := some 0 } }
    (s.undisturbed ∧ s.seq = .streaming ∧ s.call = .idle ∧ s.args.readMute = some s.reads) ∧
    (∃ bytes, writtenBytes (.emit false 0x7E330000#32) (muted 1 (atCol 0#7)) = some bytes ∧ 1 < bytes.length) ∧
    (∃ bytes, writtenBytes .seqFinalize (muted 7 finalizing) = some bytes ∧ 7 < bytes.length) ∧
    (∀ k s, (muted k s).args.writeMute = some k) ∧ finalizing.writes = 0 ∧ finalizing.args.writeFail = none :=
  ⟨⟨⟨rfl, rfl, rfl⟩, rfl, rfl, rfl⟩, ⟨_, rfl, by decide⟩, ⟨_, rfl, by decide⟩, fun _ _ => rfl, rfl, rfl⟩

theorem witness_NothingOfASessionSurvivesReset :
    State.reset.request = none ∧ State.reset.offered = { SessionArgs.empty with hdr := [], input := [] } ∧
    exec .reset State.reset = .next State.reset.resetSession := ⟨rfl, rfl, rfl⟩

/-- A step from a state of the invariants that is not the reset state's. -/
theorem witness_EveryStepKeepsTheRegistersInRange :
    RegistersInRange (inside noLit 0#2 78#7) ∧ RegistersInRange (atCol 72#7) :=
  ⟨fun _ => by decide, fun _ => by decide⟩

theorem witness_EveryStepKeepsTheSessionInvariant :
    SessionInv (session [0x61#8] [0x41#8]) ∧
    step (session [0x61#8] [0x41#8]) = .next { session [0x61#8] [0x41#8] with
      seq := .streaming, out := [0x61#8, 0x0D#8, 0x0A#8], writes := 3 } := by
  refine ⟨⟨by decide, fun _ => by decide, fun _ => ⟨by decide, by decide, by decide, ?_, by decide, by decide,
    by decide⟩⟩, rfl⟩
  rintro t (h | h) <;> cases h

theorem witness_SequencerStateFollowsTheTransitionTable :
    step { State.reset with resetLine := true } = .next { State.reset with resetLine := true }.resetSession ∧
    step { State.reset with seq := .finalizing } =
      .next { State.reset with seq := .done, out := [0x0D#8, 0x0A#8], writes := 2 } := ⟨rfl, rfl⟩

theorem witness_OutputGrowsAndInputIsImmutable :
    step { State.reset with seq := .finalizing } =
      .next { State.reset with seq := .done, out := [0x0D#8, 0x0A#8], writes := 2 } ∧
    State.reset.resetLine = false := ⟨rfl, rfl⟩

/-- The hypothesis of the four statements about whole sessions. -/
theorem witness_SessionStart (hdr input : List Byte) : SessionStart (session hdr input) hdr input :=
  ⟨⟨rfl, rfl, rfl⟩, rfl, rfl, rfl, rfl, rfl, rfl, rfl, rfl, rfl, rfl, rfl, rfl, rfl⟩

end Sys2Proof.Tests
end

section
/-! The state after reset (spec/10_state.md R25). -/

namespace Sys2Proof.Machine

/-- The status output `SEQ` shows 0 in `Start` (R16). -/
theorem State.statusSeq_of_seq_start {s : State} (h : s.seq = .start) : s.statusSeq = 0#3 := by
  rw [State.statusSeq, h, Seq.code]

/-- The status output `ERR` shows 0 while no access has failed (R17). -/
theorem State.statusErr_of_err_none {s : State} (h : s.err = .none) : s.statusErr = 0#2 := by
  rw [State.statusErr, h, Err.code]

/-- Settles O47: the registers and the two streams are fields of `State.reset` as it is written; the two status outputs are
the numbers of `Start` and of no error. -/
theorem resetStateHasTheSpecifiedValues : Obligations.ResetStateHasTheSpecifiedValues := by
  have hseq : State.reset.statusSeq = 0#3 := State.statusSeq_of_seq_start rfl
  have herr : State.reset.statusErr = 0#2 := State.statusErr_of_err_none rfl
  exact ⟨rfl, rfl, rfl, rfl, rfl, hseq, herr, rfl, rfl⟩

end Sys2Proof.Machine
end

section
/-! The three classes of input symbol (spec/30_encoding.md R50, R51). -/

namespace Sys2Proof

/-- The `eof` bit `S[8]` of a symbol is set exactly in the words from 256 on. -/
theorem symbol_eofBit_iff (w : BitVec 9) : w.extractLsb' 8 1 = 1#1 ↔ 256 ≤ w.toNat := by
  have hw : w.toNat < 512 := w.isLt
  rw [← BitVec.toNat_inj, toNat_field, BitVec.toNat_ofNat]
  omega

/-- The `eof` bit goes first in the priority order, whatever the byte field. -/
theorem decodeSymbol_of_ge {w : BitVec 9} (h : 256 ≤ w.toNat) : decodeSymbol w = .symEof :=
  if_pos ((symbol_eofBit_iff w).2 h)

/-- A word without the `eof` bit is the symbol that `InRead()` delivers for some byte. -/
theorem exists_symbolOfByte_of_lt {w : BitVec 9} (h : w.toNat < 256) : ∃ b : Byte, symbolOfByte b = w :=
  ⟨BitVec.ofNat 8 w.toNat, BitVec.eq_of_toNat_eq <| by
    rw [symbolOfByte_toNat, BitVec.toNat_ofNat, Nat.mod_eq_of_lt h]⟩

/-- Settles O4: the `eof` bit alone decides the words from 256 on; a word below is the symbol of a byte of the same value,
whose class the byte decides. -/
theorem everySymbolHasExactlyOneClass : Obligations.EverySymbolHasExactlyOneClass := by
  intro w
  refine ⟨fun heof => ?_, fun hzero => ?_, fun hpos hlt => ?_⟩
  · rw [decode, decodeSymbol_of_ge heof]
  · obtain ⟨b, rfl⟩ := exists_symbolOfByte_of_lt (w := w) (by omega)
    have hb : b = 0x00#8 := BitVec.eq_of_toNat_eq ((symbolOfByte_toNat b).symm.trans hzero)
    rw [decode, Machine.decodeSymbol_byte, if_pos hb]
  · obtain ⟨b, rfl⟩ := exists_symbolOfByte_of_lt hlt
    have hb : b ≠ 0x00#8 := by
      rintro rfl
      exact absurd hpos (by decide)
    exact ⟨b, (symbolOfByte_toNat b).symm, by rw [decode, Machine.decodeSymbol_byte, if_neg hb]⟩

end Sys2Proof
end

section
/-! End of input with nothing pending (spec/41_byte_classifier.md R93). -/

namespace Sys2Proof.Machine

/-- The class SYM.EOF tests the run before the literal bytes (R82): with neither pending, what is left is SYM.EOF.END. -/
theorem execSymEof_of_nothing_pending {s : State} (hn : s.nulls = 0#7) (hl : s.litN = 0#2) :
    execSymEof s = execSymEofEnd s := by
  have hrun : s.runPending = false := s.runPending_false_iff.2 hn
  have hesc : s.runEscapable = false := s.runEscapable_false_iff.2 (by rw [hn]; decide)
  have hlit : s.litPending = false := s.litPending_false_iff.2 hl
  simp only [execSymEof, hrun, hesc, hlit, Bool.false_eq_true, if_false]

/-- SYM.EOF.END under its condition returns `End`, and returning a token is all it does. -/
theorem execSymEofEnd_of_nothing_pending {s : State} (hr : s.call = .running) (hn : s.nulls = 0#7) (hl : s.litN = 0#2) :
    execSymEofEnd s = .next (s.returnToken .endOfInput) :=
  inCall_running hr <| by rw [s.runPending_false_iff.2 hn, s.litPending_false_iff.2 hl]; rfl

/-- Settles O30: the class dispatches to SYM.EOF.END, whose one effect is to put `End` on the bus. -/
theorem endOfInputWithNothingPendingReturnsEnd : Obligations.EndOfInputWithNothingPendingReturnsEnd := by
  intro s hr hn hl
  have hend : execSymEofEnd s = .next (s.returnToken .endOfInput) := execSymEofEnd_of_nothing_pending hr hn hl
  exact ⟨hend, (execSymEof_of_nothing_pending hn hl).trans hend⟩

end Sys2Proof.Machine
end

section
/-! The session sequencer in an environment that accepts its writes (spec/45_session_sequencer.md R136 to R143): each action
under the condition of its row, in the order of the session. -/

namespace Sys2Proof

open Machine

/-- EMIT makes exactly the writes that `emitWrites` counts (spec/44_line_writer.md R126, R127). -/
theorem afterEmit_writes (s : State) (g : List Byte) : (afterEmit s g).writes = s.writes + emitWrites s g := by
  unfold afterEmit emitWrites
  split
  · exact Nat.add_assoc _ _ _
  · rw [Nat.zero_add]
    rfl

/-- A group costs its own characters and at most one line break (R126). -/
theorem emitWrites_le (s : State) (g : List Byte) : emitWrites s g ≤ g.length + 2 := by
  unfold emitWrites
  split <;> omega

/-- With writes accepted for a group, a line break and `n` more, the `n` are still accepted when EMIT is through, whether or
not it broke the line. -/
theorem WritesAccepted.after_emit {s : State} {g : List Byte} {n : Nat} (h : WritesAccepted s (g.length + 2 + n)) :
    WritesAccepted (afterEmit s g) n := by
  have hargs : (afterEmit s g).args = s.args := by rw [(afterEmit_wroteMore s g).1]
  have hcost : emitWrites s g + n ≤ g.length + 2 + n := Nat.add_le_add_right (emitWrites_le s g) n
  exact (h.mono hcost).after hargs (afterEmit_writes s g)

end Sys2Proof

namespace Sys2Proof.Machine

/-! ## The header line -/

/-- SEQ.START under its condition: the header line passes to `OUT`, and the body may begin. -/
theorem execSeqStart_accepted {s : State} (hq : s.seq = .start) (hw : WritesAccepted s (s.args.hdr.length + 2)) :
    execSeqStart s = .next ((s.putBytes (s.args.hdr ++ [0x0D#8, 0x0A#8])).setSeq .streaming) := by
  rw [execSeqStart, if_pos hq, writeHeaderLine_accepted hw, Run.andThen_ok, Run.outcome_ok]

/-- Settles O35: the header bytes and the line break are one list of writes, so they end up in `OUT` in that order, and no
part of the action touches `COL`. -/
theorem startWritesTheHeaderLine : Obligations.StartWritesTheHeaderLine := by
  intro s hq hw
  refine (execSeqStart_accepted hq hw).trans ?_
  simp [State.putBytes, State.setSeq]

/-! ## The tokens that write a group -/

/-- A group written while a token is handled: taking the token changes neither the column nor the writes to come, so what
EMIT writes is known from the state before. -/
theorem emitGroup_takeToken_accepted {s : State} {g : List Byte} (v : BitVec 2) (hg : groupLengthOk g)
    (hw : WritesAccepted s (emitWrites s g)) :
    (emitGroup g (s.takeToken v)).outcome = .next (afterEmit (s.takeToken v) g) := by
  have hw' : WritesAccepted (s.takeToken v) (emitWrites (s.takeToken v) g) := hw
  rw [emitGroup_accepted hg hw', Run.outcome_ok]

/-- PACK gives a quad, the longer of EMIT's two groups. -/
theorem Lit.pack_groupLengthOk (l : Lit) : groupLengthOk l.pack := .inr rfl

/-- Settles O36: a full literal is handled by taking it with `FILL` 0 and emitting its quad. -/
theorem fullLiteralIsPackedAndEmitted : Obligations.FullLiteralIsPackedAndEmitted := by
  intro s hq hc g hw
  calc
    exec .seqLiteral s = (emitGroup s.lit.pack (s.takeToken 0#2)).outcome := if_pos ⟨hq, hc⟩
    _ = .next (afterEmit (s.takeToken 0#2) s.lit.pack) := emitGroup_takeToken_accepted 0#2 s.lit.pack_groupLengthOk hw

/-- SEQ.SHORTLIT under its condition, for both lengths: the pad bytes written, then the padded buffer packed and emitted. -/
theorem execSeqShortlit_accepted {s : State} {n : BitVec 2} (hq : s.seq = .streaming)
    (hc : s.call = .accepted (.literal n)) (hn : n = 1#2 ∨ n = 2#2)
    (hw : WritesAccepted s (emitWrites s (s.padLit n).lit.pack)) :
    execSeqShortlit s = .next (afterEmit ((s.padLit n).takeToken (3#2 - n)) (s.padLit n).lit.pack) := by
  have hpad : WritesAccepted (s.padLit n) (emitWrites (s.padLit n) (s.padLit n).lit.pack) := hw
  simp only [execSeqShortlit, hq, hc]
  rw [if_pos hn, emitGroup_takeToken_accepted _ (Lit.pack_groupLengthOk _) hpad]

/-- The unfilled positions after one literal byte (R139). -/
theorem State.padLit_one (s : State) : s.padLit 1#2 = { s with lit := { s.lit with b1 := 0x00#8, b2 := 0x00#8 } } := rfl

/-- The unfilled position after two literal bytes (R139). -/
theorem State.padLit_two (s : State) : s.padLit 2#2 = { s with lit := { s.lit with b2 := 0x00#8 } } := rfl

/-- Settles O37: the two lengths are the two instances of the padded buffer, with `FILL` the complement of the length to 3. -/
theorem shortLiteralIsPaddedAndEmitted : Obligations.ShortLiteralIsPaddedAndEmitted := by
  intro s hq
  refine ⟨fun hc => ?_, fun hc => ?_⟩
  · intro g hw
    have h := execSeqShortlit_accepted hq hc (.inl rfl) hw
    rwa [State.padLit_one] at h
  · intro g hw
    have h := execSeqShortlit_accepted hq hc (.inr rfl) hw
    rwa [State.padLit_two] at h

/-- The count character of an escape sequence as a number (spec/43_escaper.md R120). -/
theorem mapChar_eq_ofNat (n : BitVec 7) : mapChar n = BitVec.ofNat 8 (n.toNat + 48) := by
  rw [← mapChar_toNat, BitVec.ofNat_toNat, BitVec.setWidth_eq]

/-- ESCAPE within its contract (spec/43_escaper.md R120, R121). -/
theorem escapeChars_of_runCount {n : BitVec 7} (h2 : 2 ≤ n.toNat) (h78 : n.toNat ≤ 78) :
    escapeChars n = some [0x7E#8, BitVec.ofNat 8 (n.toNat + 48)] := by
  have hn : isRunCount n = true := decide_eq_true ⟨h2, h78⟩
  rw [escapeChars, if_pos hn, mapChar_eq_ofNat, Config.escChar]

/-- Settles O38: a count in 2..78 is within ESCAPE's contract, and its pair is emitted with the token taken at `FILL` 0. -/
theorem nullRunIsEscapedAndEmitted : Obligations.NullRunIsEscapedAndEmitted := by
  intro s n hq hc h2 h78 g hw
  have hrow : execSeqNullrun s = (emitGroup g (s.takeToken 0#2)).outcome := by
    simp only [execSeqNullrun, hq, hc, escapeChars_of_runCount h2 h78, g]
  exact hrow.trans (emitGroup_takeToken_accepted 0#2 (.inl rfl) hw)

/-! ## The end of the session -/

/-- Settles O39: the token is taken with `FILL` written back as it was, and no write is made. -/
theorem endTokenStartsFinalizing : Obligations.EndTokenStartsFinalizing := by
  intro s hq hc
  exact if_pos ⟨hq, hc⟩

/-- The markers of a session's end, with writes accepted for a line break before each of them and for `m` more: the `m` are
still accepted after the last marker, wherever the lines were broken (R142). -/
theorem writeMarkers_accepted {n m : Nat} {s : State} (h : WritesAccepted s (4 * n + m)) :
    writeMarkers n s = .ok (afterMarkers n s) ∧ WritesAccepted (afterMarkers n s) m := by
  induction n generalizing s with
  | zero => exact ⟨rfl, h.mono (by omega)⟩
  | succ n ih =>
    have hcost : emitWrites s [0x7E#8, 0x30#8] ≤ 4 := emitWrites_le s _
    have hmarker : WritesAccepted s (emitWrites s [0x7E#8, 0x30#8]) := h.mono (by omega)
    have hrest : WritesAccepted (afterEmit s [0x7E#8, 0x30#8]) (4 * n + m) :=
      WritesAccepted.after_emit (h.mono (show 4 + (4 * n + m) ≤ 4 * (n + 1) + m by omega))
    rw [writeMarkers, padChars_eq, emitGroup_accepted (.inl rfl) hmarker, Run.andThen_ok]
    exact ih hrest

/-- Settles O40: the markers leave the trailer's two writes accepted; the trailer does not go through EMIT, so it changes no
column. -/
theorem finalizeWritesMarkersThenTheTrailer : Obligations.FinalizeWritesMarkersThenTheTrailer := by
  intro s hq hw t
  obtain ⟨hmarkers, htrailer⟩ := writeMarkers_accepted hw
  calc
    exec .seqFinalize s
      = ((writeMarkers s.fill.toNat s).andThen fun s1 =>
          (outEol s1).andThen fun s2 => .ok (s2.setSeq .done)).outcome := if_pos hq
    _ = .next ((t.putBytes [0x0D#8, 0x0A#8]).setSeq .done) := by
      rw [hmarkers, Run.andThen_ok, outEol_accepted htrailer, Run.andThen_ok, Run.outcome_ok]

end Sys2Proof.Machine
end

section
/-! The encodings and the decoder undo each other (spec/30_encoding.md R50 to R57, R66): the fields of each encoded word, each
word put together again from its fields, and from these the two directions. -/

namespace Sys2Proof

open Machine

/-! ## The fields of a token word (R52) -/

section
variable (k l : BitVec 2) (c : BitVec 7) (x y z : Byte)

@[simp] theorem tokenWord_kind : (tokenWord k l c x y z).extractLsb' 33 2 = k := by
  apply BitVec.eq_of_toNat_eq
  rw [toNat_field, tokenWord_toNat]
  omega

@[simp] theorem tokenWord_length : (tokenWord k l c x y z).extractLsb' 31 2 = l := by
  apply BitVec.eq_of_toNat_eq
  rw [toNat_field, tokenWord_toNat]
  omega

@[simp] theorem tokenWord_count : (tokenWord k l c x y z).extractLsb' 24 7 = c := by
  apply BitVec.eq_of_toNat_eq
  rw [toNat_field, tokenWord_toNat]
  omega

@[simp] theorem tokenWord_byte0 : (tokenWord k l c x y z).extractLsb' 16 8 = x := by
  apply BitVec.eq_of_toNat_eq
  rw [toNat_field, tokenWord_toNat]
  omega

@[simp] theorem tokenWord_byte1 : (tokenWord k l c x y z).extractLsb' 8 8 = y := by
  apply BitVec.eq_of_toNat_eq
  rw [toNat_field, tokenWord_toNat]
  omega

@[simp] theorem tokenWord_byte2 : (tokenWord k l c x y z).extractLsb' 0 8 = z := by
  apply BitVec.eq_of_toNat_eq
  rw [toNat_field, tokenWord_toNat]
  omega

end

@[simp] theorem tokenWord_zeroBytes (k l : BitVec 2) (c : BitVec 7) :
    (tokenWord k l c 0x00#8 0x00#8 0x00#8).extractLsb' 0 24 = 0#24 := by
  apply BitVec.eq_of_toNat_eq
  rw [toNat_field, tokenWord_toNat]
  simp
  omega

/-- A token word is its fields. -/
theorem tokenWord_of_fields (w : BitVec 35) :
    tokenWord (w.extractLsb' 33 2) (w.extractLsb' 31 2) (w.extractLsb' 24 7) (w.extractLsb' 16 8) (w.extractLsb' 8 8)
      (w.extractLsb' 0 8) = w := by
  have hw := w.isLt
  apply BitVec.eq_of_toNat_eq
  simp only [tokenWord_toNat, toNat_field]
  omega

/-- The three byte fields of a token word whose low 24 bits are 0. -/
theorem bytes_of_zeroBytes {w : BitVec 35} (h : w.extractLsb' 0 24 = 0#24) :
    w.extractLsb' 16 8 = 0x00#8 ∧ w.extractLsb' 8 8 = 0x00#8 ∧ w.extractLsb' 0 8 = 0x00#8 := by
  have hn := congrArg BitVec.toNat h
  simp only [← BitVec.toNat_inj, toNat_field, BitVec.toNat_ofNat] at hn ⊢
  omega

/-! ## The fields of the other words -/

/-- The characters of a packed group on its wires (R53). -/
theorem quadWord_fields (a b c d : Byte) :
    BitVec.extractLsb' (n := 32) 24 8 (a ++ b ++ c ++ d) = a ∧ BitVec.extractLsb' (n := 32) 16 8 (a ++ b ++ c ++ d) = b ∧
    BitVec.extractLsb' (n := 32) 8 8 (a ++ b ++ c ++ d) = c ∧ BitVec.extractLsb' (n := 32) 0 8 (a ++ b ++ c ++ d) = d := by
  simp only [← BitVec.toNat_inj, toNat_field, quadWord_toNat]
  omega

/-- The characters of a 2-byte group on its wires (R54). -/
theorem pairWord_fields (a b : Byte) :
    BitVec.extractLsb' (n := 16) 8 8 (a ++ b) = a ∧ BitVec.extractLsb' (n := 16) 0 8 (a ++ b) = b := by
  simp only [← BitVec.toNat_inj, toNat_field, pairWord_toNat]
  omega

/-- The bytes of PACK's operand (R110). -/
theorem tripleWord_fields (a b c : Byte) :
    BitVec.extractLsb' (n := 24) 16 8 (a ++ b ++ c) = a ∧ BitVec.extractLsb' (n := 24) 8 8 (a ++ b ++ c) = b ∧
    BitVec.extractLsb' (n := 24) 0 8 (a ++ b ++ c) = c := by
  simp only [← BitVec.toNat_inj, toNat_field, tripleWord_toNat]
  omega

/-- The length select and the bus of EMIT's operand (R66). -/
theorem emitWord_fields (l : Bool) (g : BitVec 32) :
    (BitVec.extractLsb' (n := 33) 32 1 (BitVec.ofBool l ++ g) == 1#1) = l ∧
    BitVec.extractLsb' (n := 33) 0 32 (BitVec.ofBool l ++ g) = g := by
  have hg := g.isLt
  rw [Bool.eq_iff_iff, beq_iff_eq]
  simp only [← BitVec.toNat_inj, toNat_field, emitWord_toNat]
  cases l <;> simp <;> omega

theorem quadWord_of_fields (w : BitVec 32) :
    w.extractLsb' 24 8 ++ w.extractLsb' 16 8 ++ w.extractLsb' 8 8 ++ w.extractLsb' 0 8 = w := by
  have hw := w.isLt
  apply BitVec.eq_of_toNat_eq
  rw [quadWord_toNat]
  simp only [toNat_field]
  omega

theorem pairWord_of_fields (w : BitVec 16) : w.extractLsb' 8 8 ++ w.extractLsb' 0 8 = w := by
  have hw := w.isLt
  apply BitVec.eq_of_toNat_eq
  rw [pairWord_toNat]
  simp only [toNat_field]
  omega

theorem tripleWord_of_fields (w : BitVec 24) : w.extractLsb' 16 8 ++ w.extractLsb' 8 8 ++ w.extractLsb' 0 8 = w := by
  have hw := w.isLt
  apply BitVec.eq_of_toNat_eq
  rw [tripleWord_toNat]
  simp only [toNat_field]
  omega

theorem emitWord_of_fields (w : BitVec 33) :
    BitVec.ofBool (w.extractLsb' 32 1 == 1#1) ++ w.extractLsb' 0 32 = w := by
  have hw := w.isLt
  apply BitVec.eq_of_toNat_eq
  rw [emitWord_toNat]
  simp only [beq_iff_eq, ← BitVec.toNat_inj, toNat_field]
  split <;> simp at * <;> omega

/-! ## Decoding what was encoded -/

theorem decodeToken_end : decodeToken (tokenWord 0#2 0#2 0#7 0x00#8 0x00#8 0x00#8) = .ok .tEnd := by
  simp [decodeToken]

theorem decodeToken_literal {n : BitVec 2} (hn : n ≠ 0#2) (x y z : Byte) :
    decodeToken (tokenWord 1#2 n 0#7 x y z) = .ok (.tLiteral n x y z) := by
  simp [decodeToken, hn]

theorem decodeToken_nullrun {n : BitVec 7} (hn : isRunCount n = true) :
    decodeToken (tokenWord 2#2 0#2 n 0x00#8 0x00#8 0x00#8) = .ok (.tNullrun n) := by
  simp [decodeToken, hn]

theorem decodeWire32_quad {a b c d : Byte} (h : (Instr.wQuad a b c d).wellFormed = true) :
    decodeWire32 (a ++ b ++ c ++ d) = .ok (.wQuad a b c d) := by
  obtain ⟨ha, hb, hc, hd⟩ := quadWord_fields a b c d
  have hq : (isQuadChar a && isQuadChar b && isQuadChar c && isQuadChar d) = true := h
  simp only [decodeWire32, ha, hb, hc, hd, hq, if_true]

/-- A count character is none of the characters that make another 2-byte group of `~` (R54, R55). -/
theorem decodeWire16_esc {k : Byte} (h : isCountChar k = true) : decodeWire16 (0x7E#8 ++ k) = .ok (.wEsc k) := by
  obtain ⟨hmark, hk⟩ := pairWord_fields 0x7E#8 k
  have hword := pairWord_toNat 0x7E#8 k
  have hrange : 0x32 ≤ k.toNat ∧ k.toNat ≤ 0x7E := by simpa [isCountChar] using h
  have hpad : (0x7E#8 ++ k : BitVec 16) ≠ 0x7E30#16 := by
    intro e
    rw [e] at hword
    simp at hword
    omega
  have heol : (0x7E#8 ++ k : BitVec 16) ≠ 0x0D0A#16 := by
    intro e
    rw [e] at hword
    simp at hword
    omega
  simp only [decodeWire16, if_neg hpad, if_neg heol, hmark, hk, h, if_true]

theorem decodeWireVar_hdr (hdr : List Byte) : decodeWireVar (hdr ++ [0x0D#8, 0x0A#8]) = .ok (.wHdr hdr) := by
  simp [decodeWireVar]

theorem decode_pack (x y z : Byte) : decode (.opPack (x ++ y ++ z)) = .ok (.pack x y z) := by
  obtain ⟨hx, hy, hz⟩ := tripleWord_fields x y z
  simp only [decode, hx, hy, hz]

theorem decode_emit (l : Bool) (g : BitVec 32) : decode (.opEmit (BitVec.ofBool l ++ g)) = .ok (.emit l g) := by
  obtain ⟨hl, hg⟩ := emitWord_fields l g
  simp only [decode, hl, hg]

/-- Settles O2: row by row, each decoder finds in the encoded word the fields it was put together from, and the ranges of a
well-formed instruction are the ones the decoder tests. -/
theorem decodeInvertsEncode : Obligations.DecodeInvertsEncode := by
  intro i hwf hsel
  cases i with
  | symEof => exact congrArg Except.ok decodeSymbol_eof
  | symNul => exact congrArg Except.ok (decodeSymbol_byte _)
  | symLit b =>
    have hb : b ≠ 0x00#8 := bne_iff_ne.1 hwf
    exact congrArg Except.ok ((decodeSymbol_byte b).trans (if_neg hb))
  | symNulCount | symNulCut | symNulAppend | symLitAppend | symLitBacktrack | symLitEndrun => cases hsel
  | symEofRun | symEofOne | symEofTail | symEofEnd => cases hsel
  | seqStart | seqLiteral | seqShortlit | seqNullrun | seqEnd | seqFinalize => cases hsel
  | tEnd => exact decodeToken_end
  | tLiteral n x y z => exact decodeToken_literal (bne_iff_ne.1 hwf) x y z
  | tNullrun n => exact decodeToken_nullrun hwf
  | wQuad a b c d => exact decodeWire32_quad hwf
  | wEsc k => exact decodeWire16_esc hwf
  | wHdr hdr => exact decodeWireVar_hdr hdr
  | pack x y z => exact decode_pack x y z
  | emit l g => exact decode_emit l g
  | wPad | wEol | toChar | fromChar | escape | padmark | get3 | abort | reset => rfl

/-! ## Encoding what was decoded -/

/-- What the statement O3 says of one word and one instruction. -/
def Decoded (p : PortWord) (i : Instr) : Prop :=
  i.wellFormed = true ∧ i.selectedByState = false ∧ (i ≠ .symEof → encode i = p)

theorem decodeSymbol_decoded (w : BitVec 9) : Decoded (.symbol w) (decodeSymbol w) := by
  by_cases he : 256 ≤ w.toNat
  · rw [decodeSymbol_of_ge he]
    exact ⟨rfl, rfl, fun h => absurd rfl h⟩
  · obtain ⟨b, rfl⟩ := exists_symbolOfByte_of_lt (Nat.lt_of_not_le he)
    rw [decodeSymbol_byte]
    by_cases hb : b = 0x00#8
    · rw [if_pos hb, hb]
      exact ⟨rfl, rfl, fun _ => rfl⟩
    · rw [if_neg hb]
      exact ⟨bne_iff_ne.2 hb, rfl, fun _ => rfl⟩

/-- Each kind of token word has its zero fields tested, so that its fields are the ones the encoder puts together. -/
theorem decodeToken_decoded {w : BitVec 35} {i : Instr} (h : decodeToken w = .ok i) : Decoded (.token w) i := by
  have hw := tokenWord_of_fields w
  simp only [decodeToken] at h
  by_cases h0 : w.extractLsb' 33 2 = 0#2
  · simp only [h0, if_true] at h
    split at h
    · rename_i hz
      obtain ⟨hl, hc, hb⟩ := hz
      obtain ⟨hx, hy, hz⟩ := bytes_of_zeroBytes hb
      cases h
      rw [h0, hl, hc, hx, hy, hz] at hw
      exact ⟨rfl, rfl, fun _ => congrArg PortWord.token hw⟩
    · cases h
  by_cases h1 : w.extractLsb' 33 2 = 1#2
  · simp only [h1, show ¬ (1#2 = 0#2) by decide, if_true, if_false] at h
    split at h
    · cases h
    · rename_i hc
      split at h
      · cases h
      · rename_i hl
        cases h
        rw [h1, not_not.1 hc] at hw
        exact ⟨bne_iff_ne.2 hl, rfl, fun _ => congrArg PortWord.token hw⟩
  by_cases h2 : w.extractLsb' 33 2 = 2#2
  · simp only [h2, show ¬ (2#2 = 0#2) by decide, show ¬ (2#2 = 1#2) by decide, if_true, if_false] at h
    split at h
    · cases h
    · rename_i hz
      simp only [not_or, not_not] at hz
      obtain ⟨hl, hb⟩ := hz
      obtain ⟨hx, hy, hz⟩ := bytes_of_zeroBytes hb
      split at h
      · rename_i hn
        cases h
        rw [h2, hl, hx, hy, hz] at hw
        exact ⟨hn, rfl, fun _ => congrArg PortWord.token hw⟩
      · cases h
  · simp [h0, h1, h2] at h

theorem decodeWire32_decoded {w : BitVec 32} {i : Instr} (h : decodeWire32 w = .ok i) : Decoded (.wire32 w) i := by
  simp only [decodeWire32] at h
  split at h
  · rename_i hq
    cases h
    exact ⟨hq, rfl, fun _ => congrArg PortWord.wire32 (quadWord_of_fields w)⟩
  · cases h

theorem decodeWire16_decoded {w : BitVec 16} {i : Instr} (h : decodeWire16 w = .ok i) : Decoded (.wire16 w) i := by
  unfold decodeWire16 at h
  split at h
  · rename_i hw
    cases h
    exact ⟨rfl, rfl, fun _ => congrArg PortWord.wire16 hw.symm⟩
  split at h
  · rename_i hw
    cases h
    exact ⟨rfl, rfl, fun _ => congrArg PortWord.wire16 hw.symm⟩
  split at h
  · rename_i hmark
    split at h
    · rename_i hk
      cases h
      refine ⟨hk, rfl, fun _ => ?_⟩
      rw [encode, ← hmark, pairWord_of_fields]
    · cases h
  · cases h

theorem decodeWireVar_decoded {bytes : List Byte} {i : Instr} (h : decodeWireVar bytes = .ok i) :
    Decoded (.wireVar bytes) i := by
  unfold decodeWireVar at h
  split at h
  · rename_i hend
    cases h
    refine ⟨rfl, rfl, fun _ => ?_⟩
    rw [encode, ← hend, List.take_append_drop]
  · cases h

/-- Settles O3: wires by wires, what the decoder tested makes the instruction well formed, and what it read are all the fields
of the word. -/
theorem encodeInvertsDecode : Obligations.EncodeInvertsDecode := by
  intro p i h
  change Decoded p i
  cases p with
  | symbol w =>
    cases h
    exact decodeSymbol_decoded w
  | symbolStep _ | sequencer => cases h
  | token w => exact decodeToken_decoded h
  | wire32 w => exact decodeWire32_decoded h
  | wire16 w => exact decodeWire16_decoded h
  | wireVar bytes => exact decodeWireVar_decoded h
  | opPack w =>
    cases h
    exact ⟨rfl, rfl, fun _ => congrArg PortWord.opPack (tripleWord_of_fields w)⟩
  | opEmit w =>
    cases h
    exact ⟨rfl, rfl, fun _ => congrArg PortWord.opEmit (emitWord_of_fields w)⟩
  | opToChar | opFromChar | opEscape | opPadmark | opGet3 | ioErr | resetLine =>
    cases h
    exact ⟨rfl, rfl, fun _ => rfl⟩

/-- Settles O1: closed words, each decoded by computing. -/
theorem specWordsDecodeToTheirInstructions : Obligations.SpecWordsDecodeToTheirInstructions :=
  ⟨rfl, rfl, rfl, rfl, rfl, rfl, rfl, rfl, rfl, rfl, rfl, rfl, rfl, rfl, rfl, rfl, rfl, rfl, rfl, rfl⟩

/-! ## Per-symbol steps, selected by a symbol and the registers -/

theorem decodeStep_null (n : BitVec 2) (m : BitVec 7) :
    decodeStep (symbolOfByte 0x00#8) n m =
      if n ≠ 0#2 then .symNulAppend else if m = 78#7 then .symNulCut else .symNulCount := by
  rw [decodeStep, decodeSymbol_byte, if_pos rfl]

theorem decodeStep_byte {b : Byte} (hb : b ≠ 0x00#8) (n : BitVec 2) (m : BitVec 7) :
    decodeStep (symbolOfByte b) n m =
      if 2 ≤ m.toNat then .symLitEndrun b else if m = 1#7 then .symLitBacktrack b else .symLitAppend b := by
  rw [decodeStep, decodeSymbol_byte, if_neg hb]

theorem decodeStep_eof (n : BitVec 2) (m : BitVec 7) :
    decodeStep symbolOfEof n m =
      if 2 ≤ m.toNat then .symEofRun else if m = 1#7 then .symEofOne
      else if n ≠ 0#2 then .symEofTail else .symEofEnd := by
  rw [decodeStep, decodeSymbol_eof]

/-- Settles O5: for each of the ten rows, its condition decides the tests of its symbol's class. -/
theorem stateSelectsThePerSymbolStep : Obligations.StateSelectsThePerSymbolStep := by
  intro i litN nulls hwf hcond h78
  cases i with
  | symNulCount =>
    have hl : litN = 0#2 := hcond
    exact ⟨_, rfl, by rw [decodeStep_null, if_neg (not_not.2 hl), if_neg (h78 rfl)]⟩
  | symNulCut =>
    obtain ⟨hl, hn⟩ := hcond
    exact ⟨_, rfl, by rw [decodeStep_null, if_neg (not_not.2 hl), if_pos hn]⟩
  | symNulAppend =>
    have hl : litN ≠ 0#2 := by rcases hcond with rfl | rfl <;> decide
    exact ⟨_, rfl, by rw [decodeStep_null, if_pos hl]⟩
  | symLitAppend b =>
    obtain ⟨rfl, _⟩ := hcond
    exact ⟨_, rfl, by rw [decodeStep_byte (bne_iff_ne.1 hwf), if_neg (by decide), if_neg (by decide)]⟩
  | symLitBacktrack b =>
    obtain rfl : nulls = 1#7 := hcond
    exact ⟨_, rfl, by rw [decodeStep_byte (bne_iff_ne.1 hwf), if_neg (by decide), if_pos rfl]⟩
  | symLitEndrun b =>
    have hn : 2 ≤ nulls.toNat := hcond
    exact ⟨_, rfl, by rw [decodeStep_byte (bne_iff_ne.1 hwf), if_pos hn]⟩
  | symEofRun =>
    have hn : 2 ≤ nulls.toNat := hcond
    exact ⟨_, rfl, by rw [decodeStep_eof, if_pos hn]⟩
  | symEofOne =>
    obtain rfl : nulls = 1#7 := hcond
    exact ⟨_, rfl, by rw [decodeStep_eof, if_neg (by decide), if_pos rfl]⟩
  | symEofTail =>
    obtain ⟨rfl, hl⟩ := hcond
    have hl : litN ≠ 0#2 := by rcases hl with rfl | rfl <;> decide
    exact ⟨_, rfl, by rw [decodeStep_eof, if_neg (by decide), if_neg (by decide), if_pos hl]⟩
  | symEofEnd =>
    obtain ⟨rfl, rfl⟩ := hcond
    exact ⟨_, rfl, by rw [decodeStep_eof, if_neg (by decide), if_neg (by decide), if_neg (by decide)]⟩
  | _ => exact hcond.elim

end Sys2Proof
end

section
/-! Every instruction that writes (spec/44_line_writer.md, spec/45_session_sequencer.md): the bytes it passes to `OutWrite`, and
how it ends where they are accepted, where one of them fails and where one is never answered. -/

namespace Sys2Proof.Machine

/-! ## How an operation that passes bytes can end -/

/-- The first of the next `n` writes that is not accepted, if there is one. -/
theorem writesAccepted_or_first (s : State) (n : Nat) :
    WritesAccepted s n ∨
    ∃ k, k < n ∧ WritesAccepted s k ∧
      (s.args.writeFail = some (s.writes + k) ∨ s.args.writeMute = some (s.writes + k)) := by
  induction n with
  | zero => exact .inl fun k _ _ => by omega
  | succ n ih =>
    obtain hacc | ⟨k, hk, h⟩ := ih
    · by_cases hn : s.args.writeFail = some (s.writes + n) ∨ s.args.writeMute = some (s.writes + n)
      · exact .inr ⟨n, by omega, hacc, hn⟩
      · rw [not_or] at hn
        refine .inl fun k hk hkn => ?_
        obtain hlt | rfl : k < s.writes + n ∨ k = s.writes + n := by omega
        · exact hacc k hk hlt
        · exact hn
    · exact .inr ⟨k, by omega, h⟩

/-- The three ends of an operation that passes bytes to `OutWrite`: all of them in `OUT`; the exception taken at a failing
write; a write that is never answered. -/
theorem Run.Passes.cases {s : State} {bytes : List Byte} {m : Run} (h : m.Passes s bytes) :
    (∃ t, m = .ok t ∧ WroteMore s t) ∨
    (∃ u k, m = .aborted (u.raiseIOError .out) ∧ WroteMore s u ∧ s.args.writeFail = some k ∧ u.writes = k + 1) ∨
    m = .stuck .writeUnanswered := by
  obtain hacc | ⟨k, hk, hacc, hfirst⟩ := writesAccepted_or_first s bytes.length
  · obtain ⟨t, ht, hw, _, _⟩ := h.accepted hacc
    exact .inl ⟨t, ht, hw⟩
  right
  have hbefore : ∀ j, j < k →
      s.args.writeFail ≠ some (s.writes + j) ∧ s.args.writeMute ≠ some (s.writes + j) :=
    fun j hj => hacc _ (by omega) (by omega)
  by_cases hmute : s.args.writeMute = some (s.writes + k)
  · exact .inr (h.unanswered k hmute hk fun j hj => (hbefore j hj).1)
  · have hfail := hfirst.resolve_right hmute
    obtain ⟨u, hu, hw, _, hn⟩ := h.failed k hfail hk fun j hj => by
      obtain hlt | rfl := Nat.lt_or_eq_of_le hj
      · exact (hbefore j hlt).2
      · exact hmute
    exact .inl ⟨u, s.writes + k, hu, hw, hfail, hn⟩

/-- The outcome of an instruction that passes `bytes` to `OutWrite`: from `s`, but for the token handled first, and with `SEQ`
moved on afterwards where the row says so. -/
def PassesBytes (s : State) (bytes : List Byte) (o : Host.Outcome State Fault Refusal) : Prop :=
  ∃ (u : State) (m : Run) (f : State → State), o = (m.andThen fun x => .ok (f x)).outcome ∧ m.Passes u bytes ∧
    u = { s with lit := u.lit, fill := u.fill, call := u.call } ∧ ∀ x, x.seq ≠ .abort → (f x).seq ≠ .abort

theorem Run.andThen_ok_self (m : Run) : (m.andThen fun x => .ok x) = m := by cases m <;> rfl

theorem PassesBytes.of_run {s u : State} {bytes : List Byte} {m : Run} (h : m.Passes u bytes)
    (hu : u = { s with lit := u.lit, fill := u.fill, call := u.call }) : PassesBytes s bytes m.outcome :=
  ⟨u, m, fun x => x, by rw [Run.andThen_ok_self], h, hu, fun _ hx => hx⟩

theorem presentGroup_passes {s : State} {g : List Byte} (ho : s.over = false) (hg : groupLengthOk g) :
    PassesBytes s (emitBytes s g) (presentGroup g s) := by
  have h : PassesBytes s (emitBytes s g) (emitGroup g s).outcome := .of_run (emitGroup_passes s hg) rfl
  simpa only [presentGroup, ho, Bool.false_eq_true, if_false] using h

/-- A group written while a token is handled, its bytes those of the buffer as it stands then. -/
theorem emitGroup_handled_passes (s : State) (l : Lit) (v : BitVec 2) {g : List Byte} (hg : groupLengthOk g) :
    PassesBytes s (emitBytes s g) (emitGroup g (State.takeToken { s with lit := l } v)).outcome :=
  .of_run (emitGroup_passes (State.takeToken { s with lit := l } v) hg) rfl

theorem busGroup_groupLengthOk (l : Bool) (g : BitVec 32) : groupLengthOk (busGroup l g) := by
  cases l
  · exact .inl rfl
  · exact .inr rfl

theorem execSeqShortlit_of_accepted {s : State} {n : BitVec 2} (hq : s.seq = .streaming)
    (hc : s.call = .accepted (.literal n)) (hn : n = 1#2 ∨ n = 2#2) :
    execSeqShortlit s = (emitGroup (s.padLit n).lit.pack ((s.padLit n).takeToken (3#2 - n))).outcome := by
  simp only [execSeqShortlit, hq, hc, if_pos hn]

theorem execSeqNullrun_of_accepted {s : State} {n : BitVec 7} (hq : s.seq = .streaming)
    (hc : s.call = .accepted (.nullRun n)) (hn : isRunCount n = true) :
    execSeqNullrun s = (emitGroup [0x7E#8, BitVec.ofNat 8 (n.toNat + 48)] (s.takeToken 0#2)).outcome := by
  obtain ⟨h2, h78⟩ : 2 ≤ n.toNat ∧ n.toNat ≤ 78 := by simpa [isRunCount] using hn
  simp only [execSeqNullrun, hq, hc, escapeChars_of_runCount h2 h78]

/-- SEQ.FINALIZE writes the markers and the trailer as one operation, and then moves `SEQ`. -/
theorem execSeqFinalize_eq {s : State} (hq : s.seq = .finalizing) :
    execSeqFinalize s =
      (((writeMarkers s.fill.toNat s).andThen outEol).andThen fun x => .ok (x.setSeq .done)).outcome := by
  rw [execSeqFinalize, if_pos hq, Run.andThen_assoc]

theorem execSeqShortlit_passes {s : State} {bytes : List Byte} (h : writtenBytes .seqShortlit s = some bytes) :
    PassesBytes s bytes (execSeqShortlit s) := by
  by_cases h1 : s.seq = .streaming ∧ s.call = .accepted (.literal 1#2)
  · have hb : writtenBytes .seqShortlit s = some (emitBytes s (packChars s.lit.b0 0x00#8 0x00#8)) := if_pos h1
    cases hb.symm.trans h
    rw [execSeqShortlit_of_accepted h1.1 h1.2 (.inl rfl), State.padLit_one]
    exact emitGroup_handled_passes s _ _ (.inr rfl)
  · obtain ⟨h2, hb⟩ := Option.ite_none_right_eq_some.1 ((if_neg h1).symm.trans h)
    cases hb
    rw [execSeqShortlit_of_accepted h2.1 h2.2 (.inr rfl), State.padLit_two]
    exact emitGroup_handled_passes s _ _ (.inr rfl)

theorem execSeqNullrun_passes {s : State} {bytes : List Byte} (h : writtenBytes .seqNullrun s = some bytes) :
    PassesBytes s bytes (execSeqNullrun s) := by
  dsimp only [writtenBytes] at h
  split at h
  · rename_i n hq hc
    obtain ⟨hn, hb⟩ := Option.ite_none_right_eq_some.1 h
    cases hb
    rw [execSeqNullrun_of_accepted hq hc hn]
    exact emitGroup_handled_passes s s.lit 0#2 (.inl rfl)
  · cases h

/-- Every instruction with written bytes passes them to `OutWrite`, in order. -/
theorem exec_passes {i : Instr} {s : State} {bytes : List Byte} (h : writtenBytes i s = some bytes) :
    PassesBytes s bytes (exec i s) := by
  cases i with
  | seqStart =>
    obtain ⟨hq, h⟩ := Option.ite_none_right_eq_some.1 h
    cases h
    refine ⟨s, writeHeaderLine s.args.hdr s, fun x => x.setSeq .streaming, if_pos hq, writeHeaderLine_passes _ s, rfl, ?_⟩
    exact fun _ _ => nofun
  | seqLiteral =>
    obtain ⟨hc, h⟩ := Option.ite_none_right_eq_some.1 h
    cases h
    have hrow : exec .seqLiteral s = (emitGroup s.lit.pack (s.takeToken 0#2)).outcome := if_pos hc
    rw [hrow]
    exact emitGroup_handled_passes s s.lit 0#2 s.lit.pack_groupLengthOk
  | seqShortlit => exact execSeqShortlit_passes h
  | seqNullrun => exact execSeqNullrun_passes h
  | seqFinalize =>
    obtain ⟨hq, h⟩ := Option.ite_none_right_eq_some.1 h
    cases h
    refine ⟨s, (writeMarkers s.fill.toNat s).andThen outEol, fun x => x.setSeq .done, execSeqFinalize_eq hq, ?_, rfl, ?_⟩
    · exact (writeMarkers_passes _ s).andThen fun t _ => outEol_passes t
    · exact fun _ _ => nofun
  | emit l g =>
    obtain ⟨ho, h⟩ := Option.ite_none_left_eq_some.1 h
    rw [Bool.not_eq_true] at ho
    cases h
    exact presentGroup_passes ho (busGroup_groupLengthOk l g)
  | wQuad a b c d =>
    obtain ⟨hc, h⟩ := Option.ite_none_left_eq_some.1 h
    rw [Bool.not_eq_true, Bool.or_eq_false_iff, Bool.not_eq_false'] at hc
    obtain ⟨ho, hwf⟩ := hc
    cases h
    have hrow : exec (.wQuad a b c d) s = presentGroup [a, b, c, d] s := if_pos hwf
    rw [hrow]
    exact presentGroup_passes ho (.inr rfl)
  | wEsc k =>
    obtain ⟨hc, h⟩ := Option.ite_none_left_eq_some.1 h
    rw [Bool.not_eq_true, Bool.or_eq_false_iff, Bool.not_eq_false'] at hc
    obtain ⟨ho, hwf⟩ := hc
    cases h
    have hrow : exec (.wEsc k) s = presentGroup [0x7E#8, k] s := if_pos hwf
    rw [hrow]
    exact presentGroup_passes ho (.inl rfl)
  | wPad =>
    obtain ⟨ho, h⟩ := Option.ite_none_left_eq_some.1 h
    rw [Bool.not_eq_true] at ho
    cases h
    rw [exec, execWPad, padChars_eq]
    exact presentGroup_passes ho (.inl rfl)
  | wEol =>
    obtain ⟨ho, h⟩ := Option.ite_none_left_eq_some.1 h
    rw [Bool.not_eq_true] at ho
    cases h
    simp only [exec, execWEol, ho, Bool.false_eq_true, if_false]
    exact .of_run (outEol_passes s) rfl
  | wHdr hdr =>
    obtain ⟨ho, h⟩ := Option.ite_none_left_eq_some.1 h
    rw [Bool.not_eq_true] at ho
    cases h
    simp only [exec, execWHdr, ho, Bool.false_eq_true, if_false]
    exact .of_run (writeHeaderLine_passes hdr s) rfl
  | _ => cases h

/-- An instruction that writes reaches `Abort` only by a write that has just been answered `IoErr` (R157). -/
theorem exec_writes_abort {i : Instr} {s t : State} {bytes : List Byte} (hb : writtenBytes i s = some bytes)
    (h : exec i s = .next t) (hs : s.seq ≠ .abort) (ht : t.seq = .abort) : AccessFailed t := by
  obtain ⟨u, m, f, he, hp, hu, hf⟩ := exec_passes hb
  rw [he] at h
  obtain ⟨v, rfl, hw⟩ | ⟨v, k, rfl, hw, hfail, hn⟩ | rfl := hp.cases
  · cases h
    have hv : v.seq = s.seq := by rw [hw.1, hu]
    exact absurd ht (hf v (hv ▸ hs))
  · cases h
    refine .inr ⟨rfl, k, ?_, hn⟩
    rw [State.raiseIOError_args, hw.1]
    exact hfail
  · cases h

/-- Settles O43: the instruction passes its bytes to `OutWrite` in order, and the exception ends it at the failing one. -/
theorem failedWriteCutsTheOutputThere : Obligations.FailedWriteCutsTheOutputThere := by
  intro i s bytes k hb hfail hk hmute
  obtain ⟨u, m, f, he, hp, hu, _⟩ := exec_passes hb
  have hargs : u.args = s.args := by rw [hu]
  have hwrites : u.writes = s.writes := by rw [hu]
  obtain ⟨v, rfl, hw, ho, hn⟩ := hp.failed k (by rw [hargs, hwrites, hfail]) hk
    fun j hj => by rw [hargs, hwrites]; exact hmute j hj
  refine ⟨v.raiseIOError .out, he, rfl, rfl, by simp [hn, hwrites], ?_, ?_, ?_, ?_⟩
  · have hout : v.out = s.out ++ bytes.take k := by rw [ho, hu]
    rw [← hout]
    exact v.raiseIOError_out_prefix .out
  · rw [State.raiseIOError_args, hw.1, hu]
  · rw [State.raiseIOError_out_ipos, hw.1, hu]
  · rw [State.raiseIOError_reads, hw.1, hu]

/-- Settles O45: a read that is never answered stops the step that makes it, and a write the instruction that passes it. -/
theorem unansweredAccessStopsTheMachine : Obligations.UnansweredAccessStopsTheMachine := by
  refine ⟨fun s hu hq hc hmute => ?_, fun i s bytes k hb hmute hk hfail => ?_⟩
  · have hread : inRead s.enterCall = .unanswered := by
      have hm : s.enterCall.args.readMute = some s.enterCall.reads := by
        obtain hc | hc := hc
        · rw [State.enterCall_idle hc, State.openCall_args, State.openCall_reads, hmute]
        · rw [State.enterCall_running hc, hmute]
      rw [inRead, if_pos hm]
    simp only [step_streaming hu hq hc, readSymbol, hread]
  · obtain ⟨u, m, f, he, hp, hu, _⟩ := exec_passes hb
    have hargs : u.args = s.args := by rw [hu]
    have hwrites : u.writes = s.writes := by rw [hu]
    have hstuck : m = .stuck .writeUnanswered := hp.unanswered k (by rw [hargs, hwrites, hmute]) hk
      fun j hj => by rw [hargs, hwrites]; exact hfail j hj
    rw [he, hstuck]
    rfl

/-! ## In an environment that accepts the writes -/

/-- Settles O20: EMIT's operand is its group, of 4 characters or of 2, and no session is over. -/
theorem emitWrapsThenWritesTheGroup : Obligations.EmitWrapsThenWritesTheGroup := by
  intro g s hd ha
  have ho : s.over = false := s.over_false_iff.2 ⟨hd, ha⟩
  exact ⟨fun hw => presentGroup_accepted ho (.inr rfl) hw, fun hw => presentGroup_accepted ho (.inl rfl) hw⟩

/-- Settles O21: the data groups and the marker are EMIT of their characters; the line break and the header line are writes
alone; the ranges are tested before anything is written. -/
theorem outputGroupsAreWrittenOrRefused : Obligations.OutputGroupsAreWrittenOrRefused := by
  refine ⟨fun s hd ha => ?_, fun s a b c d hwf => ?_, fun s k hwf => ?_⟩
  · have ho : s.over = false := s.over_false_iff.2 ⟨hd, ha⟩
    refine ⟨fun a b c d hwf hw => ?_, fun k hwf hw => ?_, fun hw => ?_, fun hw => ?_, fun hdr hw => ?_⟩
    · exact (if_pos hwf).trans (presentGroup_accepted ho (.inr rfl) hw)
    · exact (if_pos hwf).trans (presentGroup_accepted ho (.inl rfl) hw)
    · rw [exec, execWPad, padChars_eq, presentGroup_accepted ho (.inl rfl) hw]
    · rw [exec, execWEol, ho, outEol_accepted hw]
      rfl
    · rw [exec, execWHdr, ho, writeHeaderLine_accepted hw]
      simp [State.putBytes]
  · exact if_neg (by rw [show (isQuadChar a && isQuadChar b && isQuadChar c && isQuadChar d) = false from hwf]; nofun)
  · exact if_neg (by rw [show isCountChar k = false from hwf]; nofun)

end Sys2Proof.Machine
end

section
/-! The classifier, symbol by symbol (spec/41_byte_classifier.md R83 to R93): each per-symbol step under its condition, and the
step that each symbol class dispatches to. -/

namespace Sys2Proof.Machine

/-! ## The null byte -/

theorem execSymNul_of_empty {s : State} (hl : s.litN = 0#2) : execSymNul s = execSymNulCount s := by
  simp [execSymNul, hl]

theorem execSymNul_of_pending {s : State} (hl : s.litN ≠ 0#2) : execSymNul s = execSymNulAppend s := by
  simp [execSymNul, hl]

/-- R83: with nothing pending and room in the count, the null is counted. -/
theorem execSymNulCount_counts {s : State} (hr : s.call = .running) (hl : s.litN = 0#2) (hn : s.nulls.toNat < 78) :
    execSymNulCount s = .next s.countNull := by
  rw [execSymNulCount, inCall_running hr (by simp [hl]), if_neg (by simpa using hn)]

/-- R84: the null that would make the count pass 78 cuts the run and is held. -/
theorem execSymNulCount_cuts {s : State} (hr : s.call = .running) (hl : s.litN = 0#2) (hn : 78 ≤ s.nulls.toNat) :
    execSymNulCount s = .next ((s.countNull.holdByte 0x00#8).returnToken (.nullRun 78#7)) := by
  rw [execSymNulCount, inCall_running hr (by simp [hl]), if_pos (by simpa using hn)]

theorem execSymNulCut_cuts {s : State} (hr : s.call = .running) (hl : s.litN = 0#2) (hn : s.nulls = 78#7) :
    execSymNulCut s = .next ((s.countNull.holdByte 0x00#8).returnToken (.nullRun 78#7)) :=
  inCall_running hr (by simp [hl, hn])

/-- R85: a null behind literal bytes is one of them. -/
theorem execSymNulAppend_appends {s : State} (hr : s.call = .running) (hl : s.litN ≠ 0#2) (h3 : s.litN ≠ 3#2) :
    execSymNulAppend s = .next (s.appendLit 0x00#8).closeTriple := by
  rw [execSymNulAppend, inCall_running hr (by simpa using hl), appendLiteral_room h3]

/-! ## A non-null byte -/

theorem execSymLit_of_none {s : State} (b : Byte) (hn : s.nulls = 0#7) : execSymLit b s = execSymLitAppend b s := by
  simp [execSymLit, State.runEscapable, State.runPending, Config.minNullRun, hn]

theorem execSymLit_of_one {s : State} (b : Byte) (hn : s.nulls = 1#7) : execSymLit b s = execSymLitBacktrack b s := by
  simp [execSymLit, State.runEscapable, State.runPending, Config.minNullRun, hn]

theorem execSymLit_of_run {s : State} (b : Byte) (hn : 2 ≤ s.nulls.toNat) : execSymLit b s = execSymLitEndrun b s :=
  if_pos (s.runEscapable_iff.2 hn)

/-- R86. -/
theorem execSymLitAppend_appends {s : State} (b : Byte) (hr : s.call = .running) (hn : s.nulls = 0#7)
    (h3 : s.litN ≠ 3#2) : execSymLitAppend b s = .next (s.appendLit b).closeTriple := by
  rw [execSymLitAppend, inCall_running hr (by simp [hn]), appendLiteral_room h3]

/-- R87. -/
theorem execSymLitBacktrack_appends {s : State} (b : Byte) (hr : s.call = .running) (hn : s.nulls = 1#7) :
    execSymLitBacktrack b s = .next (s.nullToLit.appendLit b) :=
  inCall_running hr (by simp [hn])

/-- R88. -/
theorem execSymLitEndrun_ends {s : State} (b : Byte) (hr : s.call = .running) (hn : 2 ≤ s.nulls.toNat) :
    execSymLitEndrun b s = .next ((s.holdByte b).returnToken (.nullRun s.nulls)) :=
  inCall_running hr (s.runEscapable_iff.2 hn)

/-! ## End of input -/

theorem execSymEof_of_run {s : State} (hn : 2 ≤ s.nulls.toNat) : execSymEof s = execSymEofRun s :=
  if_pos (s.runEscapable_iff.2 hn)

theorem execSymEof_of_one {s : State} (hn : s.nulls = 1#7) : execSymEof s = execSymEofOne s := by
  simp [execSymEof, State.runEscapable, State.runPending, Config.minNullRun, hn]

theorem execSymEof_of_tail {s : State} (hn : s.nulls = 0#7) (hl : s.litN ≠ 0#2) : execSymEof s = execSymEofTail s := by
  simp [execSymEof, State.runEscapable, State.runPending, State.litPending, Config.minNullRun, hn, hl]

/-- R90. -/
theorem execSymEofRun_returns {s : State} (hr : s.call = .running) (hn : 2 ≤ s.nulls.toNat) :
    execSymEofRun s = .next (s.returnToken (.nullRun s.nulls)) :=
  inCall_running hr (s.runEscapable_iff.2 hn)

/-- R91. -/
theorem execSymEofOne_returns {s : State} (hr : s.call = .running) (hn : s.nulls = 1#7) :
    execSymEofOne s = .next (s.nullToLit.returnToken (.literal 1#2)) :=
  inCall_running hr (by simp [hn])

/-- R92. -/
theorem execSymEofTail_returns {s : State} (hr : s.call = .running) (hn : s.nulls = 0#7) (hl : s.litN ≠ 0#2)
    (h3 : s.litN ≠ 3#2) : execSymEofTail s = .next (s.returnToken (.literal s.litN)) :=
  inCall_running hr (by simp [hn, hl, h3])

/-- A short literal: neither empty nor a triple. -/
theorem litN_one_or_two {n : BitVec 2} : n ≠ 0#2 ∧ n ≠ 3#2 ↔ n = 1#2 ∨ n = 2#2 := by
  revert n
  decide

/-! ## The appends, by the number of bytes that are pending -/

theorem closeTriple_of_room {s : State} (h : s.litN ≠ 3#2) : s.closeTriple = s := by
  obtain ⟨h3, _⟩ | ⟨_, e⟩ := s.closeTriple_cases
  · exact absurd h3 h
  · exact e

theorem closeTriple_of_full {s : State} (h : s.litN = 3#2) : s.closeTriple = s.returnToken (.literal 3#2) := by
  obtain ⟨_, e⟩ | ⟨h3, _⟩ := s.closeTriple_cases
  · exact e
  · exact absurd h h3

theorem append_first {s : State} (b : Byte) (hl : s.litN = 0#2) :
    (s.appendLit b).closeTriple = { s with lit := { s.lit with b0 := b }, litN := 1#2 } := by
  have ha : s.appendLit b = { s with lit := { s.lit with b0 := b }, litN := 1#2 } := by
    simp [State.appendLit, Lit.set, hl]
  rw [ha, closeTriple_of_room (by simp)]

theorem append_second {s : State} (b : Byte) (hl : s.litN = 1#2) :
    (s.appendLit b).closeTriple = { s with lit := { s.lit with b1 := b }, litN := 2#2 } := by
  have ha : s.appendLit b = { s with lit := { s.lit with b1 := b }, litN := 2#2 } := by
    simp [State.appendLit, Lit.set, hl]
  rw [ha, closeTriple_of_room (by simp)]

theorem append_third {s : State} (b : Byte) (hl : s.litN = 2#2) :
    (s.appendLit b).closeTriple =
      { s with lit := { s.lit with b2 := b }, litN := 3#2, call := .returned (.literal 3#2) } := by
  have ha : s.appendLit b = { s with lit := { s.lit with b2 := b }, litN := 3#2 } := by
    simp [State.appendLit, Lit.set, hl]
  rw [ha, closeTriple_of_full rfl]
  rfl

/-! ## The statements -/

/-- Settles O22: with no literal pending the class SYM.NUL is SYM.NUL.COUNT, which cuts the run at the 79th null. -/
theorem nullIsCountedAndTheSeventyNinthCutsTheRun : Obligations.NullIsCountedAndTheSeventyNinthCutsTheRun := by
  intro s hr hl
  have hclass : exec .symNul s = execSymNulCount s := execSymNul_of_empty hl
  refine ⟨fun hn => ?_, fun hn => ?_⟩
  · have hcount : execSymNulCount s = .next s.countNull := execSymNulCount_counts hr hl hn
    exact ⟨hcount, hclass.trans hcount⟩
  · intro t
    have ht : (s.countNull.holdByte 0x00#8).returnToken (.nullRun 78#7) = t := by
      simp [t, State.countNull, State.holdByte, State.returnToken, hn]
    have hcut := execSymNulCount_cuts hr hl (by simp [hn])
    rw [ht] at hcut
    exact ⟨hcut, (execSymNulCut_cuts hr hl hn).trans (congrArg _ ht), hclass.trans hcut⟩

/-- Settles O23: with literal bytes pending the class SYM.NUL is SYM.NUL.APPEND. -/
theorem nullCompletesThePendingTriple : Obligations.NullCompletesThePendingTriple := by
  intro s hr
  have happend : s.litN ≠ 0#2 → s.litN ≠ 3#2 →
      exec .symNulAppend s = .next (s.appendLit 0x00#8).closeTriple ∧
      exec .symNul s = .next (s.appendLit 0x00#8).closeTriple := fun h0 h3 =>
    have h := execSymNulAppend_appends hr h0 h3
    ⟨h, (execSymNul_of_pending h0).trans h⟩
  refine ⟨fun hl => ?_, fun hl => ?_⟩
  · have h := happend (by simp [hl]) (by simp [hl])
    rwa [append_second _ hl] at h
  · have h := happend (by simp [hl]) (by simp [hl])
    rwa [append_third _ hl] at h

/-- Settles O24: with no null pending the class SYM.LIT is SYM.LIT.APPEND. -/
theorem literalByteIsAppended : Obligations.LiteralByteIsAppended := by
  intro b s hr hn
  have happend : s.litN ≠ 3#2 →
      exec (.symLitAppend b) s = .next (s.appendLit b).closeTriple ∧
      exec (.symLit b) s = .next (s.appendLit b).closeTriple := fun h3 =>
    have h := execSymLitAppend_appends b hr hn h3
    ⟨h, (execSymLit_of_none b hn).trans h⟩
  refine ⟨fun hl => ?_, fun hl => ?_, fun hl => ?_⟩
  · have h := happend (by simp [hl])
    rwa [append_first _ hl] at h
  · have h := happend (by simp [hl])
    rwa [append_second _ hl] at h
  · have h := happend (by simp [hl])
    rwa [append_third _ hl] at h

/-- Settles O25: with one null pending the class SYM.LIT is SYM.LIT.BACKTRACK. -/
theorem isolatedNullIsBacktracked : Obligations.IsolatedNullIsBacktracked := by
  intro b s hr hn t
  have h : exec (.symLitBacktrack b) s = .next t := execSymLitBacktrack_appends b hr hn
  exact ⟨h, (execSymLit_of_one b hn).trans h⟩

/-- Settles O26: with a run pending the class SYM.LIT is SYM.LIT.ENDRUN. -/
theorem nonNullByteEndsTheRun : Obligations.NonNullByteEndsTheRun := by
  intro b s hr hn t
  have h : exec (.symLitEndrun b) s = .next t := execSymLitEndrun_ends b hr hn
  exact ⟨h, (execSymLit_of_run b hn).trans h⟩

/-- Settles O27: with a run pending the class SYM.EOF is SYM.EOF.RUN. -/
theorem endOfInputReturnsTheRun : Obligations.EndOfInputReturnsTheRun := by
  intro s hr hn
  have h := execSymEofRun_returns hr hn
  exact ⟨h, (execSymEof_of_run hn).trans h⟩

/-- Settles O28: with one null pending the class SYM.EOF is SYM.EOF.ONE. -/
theorem endOfInputReturnsOneNullAsLiteral : Obligations.EndOfInputReturnsOneNullAsLiteral := by
  intro s hr hn t
  have h : exec .symEofOne s = .next t := execSymEofOne_returns hr hn
  exact ⟨h, (execSymEof_of_one hn).trans h⟩

/-- Settles O29: with literal bytes alone pending the class SYM.EOF is SYM.EOF.TAIL. -/
theorem endOfInputReturnsTheLiteralTail : Obligations.EndOfInputReturnsTheLiteralTail := by
  intro s hr hn hl
  obtain ⟨h0, h3⟩ := litN_one_or_two.2 hl
  have h := execSymEofTail_returns hr hn h0 h3
  exact ⟨h, (execSymEof_of_tail hn h0).trans h⟩

/-- Settles O31: forward each row's step runs under its condition; back, a step that answered a next state was inside a call
and under its condition. -/
theorem perSymbolStepRunsExactlyUnderItsCondition : Obligations.PerSymbolStepRunsExactlyUnderItsCondition := by
  intro i s hi
  refine ⟨fun ⟨t, h⟩ => ?_, fun ⟨hr, hc⟩ => ?_⟩
  · cases i with
    | symNulCount =>
      obtain ⟨hr, hl, _⟩ := execSymNulCount_next h
      exact ⟨hr, hl⟩
    | symNulCut =>
      obtain ⟨hr, hl, hn, _⟩ := execSymNulCut_next h
      exact ⟨hr, hl, hn⟩
    | symNulAppend =>
      obtain ⟨hr, h0, h3, _⟩ := execSymNulAppend_next h
      exact ⟨hr, litN_one_or_two.1 ⟨h0, h3⟩⟩
    | symLitAppend b =>
      obtain ⟨hr, hn, h3, _⟩ := execSymLitAppend_next h
      exact ⟨hr, hn, h3⟩
    | symLitBacktrack b =>
      obtain ⟨hr, hn, _⟩ := execSymLitBacktrack_next h
      exact ⟨hr, hn⟩
    | symLitEndrun b =>
      obtain ⟨hr, hn, _⟩ := execSymLitEndrun_next h
      exact ⟨hr, hn⟩
    | symEofRun =>
      obtain ⟨hr, hn, _⟩ := execSymEofRun_next h
      exact ⟨hr, hn⟩
    | symEofOne =>
      obtain ⟨hr, hn, _⟩ := execSymEofOne_next h
      exact ⟨hr, hn⟩
    | symEofTail =>
      obtain ⟨hr, hn, h0, h3, _⟩ := execSymEofTail_next h
      exact ⟨hr, hn, litN_one_or_two.1 ⟨h0, h3⟩⟩
    | symEofEnd =>
      obtain ⟨hr, hn, hl, _⟩ := execSymEofEnd_next h
      exact ⟨hr, hn, hl⟩
    | _ => cases hi
  · cases i with
    | symNulCount =>
      obtain hn | hn := Nat.lt_or_ge s.nulls.toNat 78
      · exact ⟨_, execSymNulCount_counts hr hc hn⟩
      · exact ⟨_, execSymNulCount_cuts hr hc hn⟩
    | symNulCut => exact ⟨_, execSymNulCut_cuts hr hc.1 hc.2⟩
    | symNulAppend =>
      obtain ⟨h0, h3⟩ := litN_one_or_two.2 hc
      exact ⟨_, execSymNulAppend_appends hr h0 h3⟩
    | symLitAppend b => exact ⟨_, execSymLitAppend_appends b hr hc.1 hc.2⟩
    | symLitBacktrack b => exact ⟨_, execSymLitBacktrack_appends b hr hc⟩
    | symLitEndrun b => exact ⟨_, execSymLitEndrun_ends b hr hc⟩
    | symEofRun => exact ⟨_, execSymEofRun_returns hr hc⟩
    | symEofOne => exact ⟨_, execSymEofOne_returns hr hc⟩
    | symEofTail =>
      obtain ⟨hn, hl⟩ := hc
      obtain ⟨h0, h3⟩ := litN_one_or_two.2 hl
      exact ⟨_, execSymEofTail_returns hr hn h0 h3⟩
    | symEofEnd => exact ⟨_, execSymEofEnd_of_nothing_pending hr hc.1 hc.2⟩
    | _ => cases hi

end Sys2Proof.Machine
end

section
/-! The step: what it finds to do and what it then runs (spec/10_state.md R19, spec/41_byte_classifier.md R81, R82,
spec/45_session_sequencer.md R137; entries 6, 7, 10, 11 and 24). -/

namespace Sys2Proof.Machine

/-! ## From what is found to what is run -/

theorem step_word {s s' : State} {p : PortWord} {i : Instr} (hf : fetch s = .word p s') (hd : decode p = .ok i) :
    step s = exec i s' := by
  simp only [step, hf, hd]

theorem step_undecodable {s s' : State} {p : PortWord} {why : DecodeReject} (hf : fetch s = .word p s')
    (hd : decode p = .error why) : step s = .refused (.undecodable why) := by
  simp only [step, hf, hd]

theorem step_of_selected {s s' : State} {i : Instr} (hf : fetch s = .selected i s') : step s = exec i s' := by
  simp only [step, hf]

theorem step_of_declined {s s' : State} (hf : fetch s = .declined s') : step s = .next s' := by
  simp only [step, hf]

/-- Settles O7: the four things that fetch finds and a step acts on. -/
theorem stepRunsTheDecodedInstruction : Obligations.StepRunsTheDecodedInstruction :=
  ⟨fun _ _ _ _ => step_word, fun _ _ _ _ => step_undecodable, fun _ _ _ => step_of_selected,
    fun _ _ => step_of_declined⟩

theorem step_reset {s : State} (h : s.resetLine = true) : step s = .next s.resetSession :=
  step_word (fetch_reset h) rfl

/-- After `Done` and `Abort` nothing is found to do (R144, R159). -/
theorem step_over {s : State} (h : s.undisturbed) (ho : s.over = true) : step s = .next s := by
  simp only [step, fetch_over h ho]

theorem step_selected {s : State} {i : Instr} (h : s.undisturbed) (hi : selectRow s.seq s.call = some i) :
    step s = exec i s :=
  step_of_selected (fetch_selected h hi)

/-! ## The token on the bus -/

theorem decode_busWord_literal {n : BitVec 2} (l : Lit) (hn : n ≠ 0#2) :
    decode (.token (busWord l (.literal n))) = .ok (.tLiteral n l.b0 l.b1 l.b2) :=
  decodeToken_literal hn _ _ _

theorem decode_busWord_empty (l : Lit) : decode (.token (busWord l (.literal 0#2))) = .error .literalLength := by
  simp [decode, busWord, decodeToken]

theorem decode_busWord_nullRun {n : BitVec 7} (l : Lit) (hn : isRunCount n = true) :
    decode (.token (busWord l (.nullRun n))) = .ok (.tNullrun n) :=
  decodeToken_nullrun hn

theorem decode_busWord_badRun {n : BitVec 7} (l : Lit) (hn : isRunCount n = false) :
    decode (.token (busWord l (.nullRun n))) = .error .nullRunCount := by
  simp [decode, busWord, decodeToken, hn]

theorem decode_busWord_end (l : Lit) : decode (.token (busWord l .endOfInput)) = .ok .tEnd := decodeToken_end

theorem isRunCount_iff (n : BitVec 7) : isRunCount n = true ↔ 2 ≤ n.toNat ∧ n.toNat ≤ 78 := by simp [isRunCount]

theorem isRunCount_false_iff (n : BitVec 7) : isRunCount n = false ↔ n.toNat < 2 ∨ 78 < n.toNat := by
  rw [← Bool.not_eq_true, isRunCount_iff]
  omega

/-- Settles O10: the action that `SEQ` and the taken token select is found as it stands; a returned token is found as the word
on the bus, and decodes, or is refused, by the ranges of R52. -/
theorem stepRunsTheSequencerAction : Obligations.StepRunsTheSequencerAction := by
  intro s hu
  refine ⟨fun hq => ?_, fun hq hc => ?_, fun n hq hc hn => ?_, fun n hq hc => ?_, fun hq hc => ?_, fun hq => ?_,
    fun n hq hc hn => ?_, fun n hq hc h2 h78 => ?_, fun hq hc => ?_, fun hq hc => ?_, fun n hq hc hn => ?_⟩
  · exact step_selected hu (by rw [hq]; rfl)
  · exact step_selected hu (by rw [hq, hc]; rfl)
  · exact step_selected hu (by rw [hq, hc]; exact congrArg some (if_neg hn))
  · exact step_selected hu (by rw [hq, hc]; rfl)
  · exact step_selected hu (by rw [hq, hc]; rfl)
  · exact step_selected hu (by rw [hq]; rfl)
  · exact step_word (fetch_token hu hq hc) (decode_busWord_literal _ hn)
  · exact step_word (fetch_token hu hq hc) (decode_busWord_nullRun _ ((isRunCount_iff n).2 ⟨h2, h78⟩))
  · exact step_word (fetch_token hu hq hc) (decode_busWord_end _)
  · exact step_undecodable (fetch_token hu hq hc) (decode_busWord_empty _)
  · exact step_undecodable (fetch_token hu hq hc) (decode_busWord_badRun _ ((isRunCount_false_iff n).2 hn))

/-- T.LITERAL of the token on the bus, with the bytes of the buffer. -/
theorem execTLiteral_offered {s : State} {n : BitVec 2} {x y z : Byte} (hn : n ≠ 0#2) (hq : s.seq = .streaming)
    (hc : s.call = .returned (.literal n)) (hb : s.lit.bytes n = [x, y, z].take n.toNat) :
    execTLiteral n x y z s = .next (s.acceptToken (.literal n)) := by
  rw [execTLiteral, if_neg hn, if_pos (by simp [(s.offersToken_iff _).2 ⟨hq, hc⟩, hb])]

theorem execTNullrun_offered {s : State} {n : BitVec 7} (hn : isRunCount n = true) (hq : s.seq = .streaming)
    (hc : s.call = .returned (.nullRun n)) : execTNullrun n s = .next (s.acceptToken (.nullRun n)) := by
  rw [execTNullrun, if_pos hn, if_pos ((s.offersToken_iff _).2 ⟨hq, hc⟩)]

theorem execTEnd_offered {s : State} (hq : s.seq = .streaming) (hc : s.call = .returned .endOfInput) :
    execTEnd s = .next (s.acceptToken .endOfInput) :=
  if_pos ((s.offersToken_iff _).2 ⟨hq, hc⟩)

/-- Any other token than the one on the bus is not offered. -/
theorem State.not_offersToken {s : State} {t : Token} (h : s.seq ≠ .streaming ∨ s.call ≠ .returned t) :
    s.offersToken t = false := by
  rw [← Bool.not_eq_true, State.offersToken_iff, not_and_or]
  exact h

/-- Settles O34: the token on the bus is taken; every other token word fails one of the tests of its row. -/
theorem deliveredTokenWaitsForTheSequencer : Obligations.DeliveredTokenWaitsForTheSequencer := by
  intro s
  refine ⟨fun hq => ⟨fun hc => execTEnd_offered hq hc, fun n x y z hn hc => ⟨fun hb => ?_, fun hb => ?_⟩,
    fun n h2 h78 hc => ?_⟩, fun h => ?_, fun n x y z hn h => ?_, fun n h2 h78 h => ?_, fun x y z => ?_, fun n hn => ?_⟩
  · exact execTLiteral_offered hn hq hc hb
  · rw [exec, execTLiteral, if_neg hn, if_neg (by simp [hb])]
  · exact execTNullrun_offered ((isRunCount_iff n).2 ⟨h2, h78⟩) hq hc
  · simp [exec, execTEnd, State.not_offersToken h]
  · simp [exec, execTLiteral, hn, State.not_offersToken h]
  · simp [exec, execTNullrun, (isRunCount_iff n).2 ⟨h2, h78⟩, State.not_offersToken h]
  · change execTLiteral 0#2 x y z s = _
    exact if_pos rfl
  · simp [exec, execTNullrun, (isRunCount_false_iff n).2 hn]

/-! ## The next input symbol -/

@[simp] theorem State.enterCall_args (s : State) : s.enterCall.args = s.args := by
  unfold State.enterCall
  split <;> simp

@[simp] theorem State.enterCall_ipos (s : State) : s.enterCall.ipos = s.ipos := by
  unfold State.enterCall
  split <;> simp

@[simp] theorem State.enterCall_reads (s : State) : s.enterCall.reads = s.reads := by
  unfold State.enterCall
  split <;> simp

end Sys2Proof.Machine

namespace Sys2Proof

open Machine

/-- The answers to the reads depend on the session's arguments and the count of reads alone. -/
theorem ReadsAnswered.of_eq {s t : State} {n : Nat} (h : ReadsAnswered s n) (ha : t.args = s.args)
    (hr : t.reads = s.reads) : ReadsAnswered t n := by
  intro k
  rw [ha, hr]
  exact h k

end Sys2Proof

namespace Sys2Proof.Machine

/-- The class that a byte's symbol belongs to (spec/30_encoding.md R51). -/
theorem readSymbol_byte {s : State} {b : Byte} (hr : ReadsAnswered s 1) (hb : s.args.input[s.ipos]? = some b) :
    readSymbol s = exec (if b = 0x00#8 then .symNul else .symLit b) s.takeByte := by
  simp only [readSymbol, inRead_byte hr hb]
  by_cases h0 : b = 0x00#8 <;> simp [h0, exec]

theorem readSymbol_eof {s : State} (hr : ReadsAnswered s 1) (hb : s.args.input[s.ipos]? = none) :
    readSymbol s = execSymEof s.countRead := by
  simp only [readSymbol, inRead_eof hr hb]

theorem readSymbol_failed {s : State} (hf : s.args.readFail = some s.reads) (hm : s.args.readMute ≠ some s.reads) :
    readSymbol s = .next (s.countRead.raiseIOError .inp) := by
  have hread : inRead s = .ioErr s.countRead := by rw [inRead, if_neg hm, if_pos hf]
  simp only [readSymbol, hread]

/-- Settles O8: the step is the call's read, and the read delivers the symbol at `IPOS`. -/
theorem stepReadsTheNextSymbol : Obligations.StepReadsTheNextSymbol := by
  intro s hu hq hc hr
  have hr' : ReadsAnswered s.enterCall 1 := hr.of_eq (by simp) (by simp)
  refine ⟨fun b hb => ?_, fun hb => ?_⟩
  · rw [step_streaming hu hq hc, readSymbol_byte hr' (by simpa using hb)]
  · rw [step_streaming hu hq hc, readSymbol_eof hr' (by simpa using hb)]
    rfl

/-- Settles O44: the read fails before any symbol is classified, and the exception closes the call. -/
theorem failedReadAbortsTheSession : Obligations.FailedReadAbortsTheSession := by
  intro s hu hq hc hf hm
  refine ⟨s.enterCall.countRead.raiseIOError .inp, ?_, rfl, rfl, ?_, ?_, nofun⟩
  · rw [step_streaming hu hq hc, readSymbol_failed (by simpa using hf) (by simpa using hm)]
  · obtain hc | hc := hc
    · simp [State.enterCall_idle hc]
    · simp [State.enterCall_running hc]
  · obtain hc | hc := hc
    · simp [State.enterCall_idle hc]
    · simp [State.enterCall_running hc]

/-- The first symbol of a call: the step runs its class right after the start of the call. -/
theorem step_first_byte {s : State} {b : Byte} (hu : s.undisturbed) (hq : s.seq = .streaming) (hc : s.call = .idle)
    (hr : ReadsAnswered s 1) (hb : s.args.input[s.ipos]? = some b) :
    step s = exec (if b = 0x00#8 then .symNul else .symLit b) s.openCall.takeByte := by
  rw [(stepReadsTheNextSymbol s hu hq (.inl hc) hr).1 b hb, State.enterCall_idle hc]

theorem step_first_eof {s : State} (hu : s.undisturbed) (hq : s.seq = .streaming) (hc : s.call = .idle)
    (hr : ReadsAnswered s 1) (hb : s.args.input[s.ipos]? = none) : step s = exec .symEof s.openCall.countRead := by
  rw [(stepReadsTheNextSymbol s hu hq (.inl hc) hr).2 hb, State.enterCall_idle hc]

/-- A byte behind one literal byte, null or not, is the second one (R85, R86). -/
theorem exec_second_byte {s : State} (b : Byte) (hr : s.call = .running) (hl : s.litN = 1#2) (hn : s.nulls = 0#7) :
    exec (if b = 0x00#8 then .symNul else .symLit b) s =
      .next { s with lit := { s.lit with b1 := b }, litN := 2#2 } := by
  by_cases hb : b = 0x00#8
  · rw [if_pos hb, ((nullCompletesThePendingTriple s hr).1 hl).2, hb]
  · rw [if_neg hb, ((literalByteIsAppended b s hr hn).2.1 hl).2]

/-- Settles O9: the start of the call leaves nothing pending, one null or one literal byte (R81), and the symbol is classified
behind it. -/
theorem firstSymbolOfACallFollowsTheRemainder : Obligations.FirstSymbolOfACallFollowsTheRemainder := by
  intro s hu hq hc hr
  refine ⟨fun b hb => ?_, fun hb => ?_⟩
  · intro s1
    rw [step_first_byte hu hq hc hr hb]
    refine ⟨fun hv h0 => ?_, fun hv h0 => ?_, fun hv hm h0 => ?_, fun hv hm h0 => ?_, fun hv hm => ?_⟩
    · rw [if_pos h0, State.openCall_empty hv, ((nullIsCountedAndTheSeventyNinthCutsTheRun _ rfl rfl).1 (by simp)).2]
      simp [s1, hv, State.takeByte]
    · rw [if_neg h0, State.openCall_empty hv, ((literalByteIsAppended b _ rfl rfl).1 rfl).2]
      simp [s1, hv, State.takeByte]
    · rw [if_pos h0, State.openCall_null hv hm, ((nullIsCountedAndTheSeventyNinthCutsTheRun _ rfl rfl).1 (by simp)).2]
      simp [s1, State.takeByte]
    · rw [if_neg h0, State.openCall_null hv hm, (isolatedNullIsBacktracked b _ rfl rfl).2]
      simp [s1, State.takeByte]
    · rw [State.openCall_literal hv hm, exec_second_byte b rfl rfl rfl]
      simp [s1, State.takeByte, Lit.set]
  · intro s1
    rw [step_first_eof hu hq hc hr hb]
    refine ⟨fun hv => ?_, fun hv hm => ?_, fun hv hm => ?_⟩
    · rw [State.openCall_empty hv, (endOfInputWithNothingPendingReturnsEnd _ rfl rfl rfl).2]
      simp [s1, hv, State.countRead]
    · rw [State.openCall_null hv hm, (endOfInputReturnsOneNullAsLiteral _ rfl rfl).2]
      simp [s1, State.countRead]
    · rw [State.openCall_literal hv hm, (endOfInputReturnsTheLiteralTail _ rfl rfl (.inl rfl)).2]
      simp [s1, State.countRead, Lit.set]

/-! ## What is presented -/

theorem PortRequest.inContract_toChar (n : BitVec 7) : (PortRequest.toChar n).inContract = true ↔ n.toNat ≤ 78 := by
  by_cases h : n.toNat ≤ 78 <;> simp [PortRequest.inContract, Machine.toChar, Config.maxNullRun, h]

theorem PortRequest.inContract_escape (n : BitVec 7) :
    (PortRequest.escape n).inContract = true ↔ 2 ≤ n.toNat ∧ n.toNat ≤ 78 := by
  by_cases h : 2 ≤ n.toNat ∧ n.toNat ≤ 78 <;> simp [PortRequest.inContract, escapeWord, isRunCount, h]

/-- An operand is outside its contract only on the two ports that the spec limits (R73, R121). -/
theorem PortRequest.inContract_of_ranges {r : PortRequest} (hc : ∀ n, r = .toChar n → n.toNat ≤ 78)
    (he : ∀ n, r = .escape n → 2 ≤ n.toNat ∧ n.toNat ≤ 78) : r.inContract = true := by
  cases r with
  | toChar n => exact (inContract_toChar n).2 (hc n rfl)
  | escape n => exact (inContract_escape n).2 (he n rfl)
  | fromChar | pack | padmark => rfl

/-- Settles O11: a port goes before the units' wires; its contract decides whether the operand is run or declined. -/
theorem presentedWordRunsNext : Obligations.PresentedWordRunsNext := by
  refine ⟨fun s r i hl hr hc he hd => ?_, fun s n hl h => ?_, fun s u i hl hr hu hd => ?_⟩
  · exact step_word (fetch_request hl hr (PortRequest.inContract_of_ranges hc he)) hd
  · obtain ⟨hr, hn⟩ | ⟨hr, hn⟩ := h
    · have hc : (PortRequest.toChar n).inContract = false := by
        rw [← Bool.not_eq_true, PortRequest.inContract_toChar]
        omega
      exact step_of_declined (fetch_declined hl hr hc)
    · have hc : (PortRequest.escape n).inContract = false := by
        rw [← Bool.not_eq_true, PortRequest.inContract_escape]
        omega
      exact step_of_declined (fetch_declined hl hr hc)
  · exact step_word (fetch_unit hl hr hu) hd

/-! ## Placing a word of the opcode table (entry 7) -/

theorem spare_ne (o : Option Nat) (n : Nat) : spare o n ≠ some n := by
  unfold spare
  split
  · exact nofun
  · assumption

/-- A placed symbol is read by the next step, and belongs to the class it was placed as. -/
theorem fetch_withSymbol (s : State) (w : BitVec 9) :
    ∃ p s', fetch (s.withSymbol w) = .word p s' ∧ decode p = .ok (decodeSymbol w) := by
  have hcall : (s.withSymbol w).call = .idle ∨ (s.withSymbol w).call = .running := by
    simp only [State.withSymbol, State.inStreaming]
    cases s.call
    · exact .inl rfl
    · exact .inr rfl
    · exact .inl rfl
    · exact .inl rfl
  have hans : ReadsAnswered (s.withSymbol w).enterCall 1 := by
    refine ReadsAnswered.of_eq (s := s.withSymbol w) (fun k hk hlt => ?_) (by simp) (by simp)
    obtain rfl : k = s.reads := Nat.le_antisymm (Nat.lt_succ_iff.1 hlt) hk
    exact ⟨spare_ne _ _, spare_ne _ _⟩
  have hfetch := fetch_streaming (s := s.withSymbol w) ⟨rfl, rfl, rfl⟩ rfl hcall
  rw [hfetch, fetchSymbol]
  by_cases he : w.extractLsb' 8 1 = 1#1
  · have hin : (s.withSymbol w).enterCall.args.input[(s.withSymbol w).enterCall.ipos]? = none := by
      simp [State.withSymbol, placeSymbol, he]
    rw [inRead_eof hans hin]
    exact ⟨_, _, rfl, by rw [decode, decodeSymbol_eof, decodeSymbol, if_pos he]⟩
  · have hin : (s.withSymbol w).enterCall.args.input[(s.withSymbol w).enterCall.ipos]? = some (w.extractLsb' 0 8) := by
      simp only [State.enterCall_args, State.enterCall_ipos, State.withSymbol, placeSymbol, if_neg he]
      rw [List.getElem?_append_right (Nat.le_refl _), Nat.sub_self]
      rfl
    rw [inRead_byte hans hin]
    exact ⟨_, _, rfl, by rw [decode, decodeSymbol_byte, decodeSymbol, if_neg he]⟩

/-- A placed token is on the bus, and the word there decodes as the placed one does. -/
theorem fetch_withToken (s : State) {w : BitVec 35} {i : Instr} (h : decodeToken w = .ok i) :
    ∃ p s', fetch (s.withToken w) = .word p s' ∧ decode p = .ok i := by
  obtain ⟨hwf, _, henc⟩ := decodeToken_decoded h
  have honbus : ∀ l t, s.withToken w = s.onBus l t → decode (.token (busWord l t)) = .ok i →
      ∃ p s', fetch (s.withToken w) = .word p s' ∧ decode p = .ok i := fun l t e hd =>
    ⟨_, _, by rw [e]; exact fetch_token ⟨rfl, rfl, rfl⟩ rfl rfl, hd⟩
  cases i with
  | tEnd => exact honbus s.lit .endOfInput (by simp only [State.withToken, h]) (decode_busWord_end _)
  | tLiteral n x y z =>
    exact honbus ⟨x, y, z⟩ (.literal n) (by simp only [State.withToken, h]) (decode_busWord_literal _ (bne_iff_ne.1 hwf))
  | tNullrun n => exact honbus s.lit (.nullRun n) (by simp only [State.withToken, h]) (decode_busWord_nullRun _ hwf)
  | symEof =>
    simp only [decodeToken] at h
    split_ifs at h <;> cases h
  | _ => cases henc nofun

end Sys2Proof.Machine

namespace Sys2Proof

open Machine

/-- The wires that words of the table stand on (entry 13). -/
def PortWord.inTable (p : PortWord) : Bool :=
  match p with
  | .symbol _ | .wire16 _ | .opToChar _ | .opFromChar _ | .opPack _ | .wire32 _ | .opEmit _ | .token _ => true
  | _ => false

theorem all_ite {α : Type} {f : α → Bool} {c : Prop} [Decidable c] {x y : Option α} (hx : x.all f = true)
    (hy : y.all f = true) : (if c then x else y).all f = true := by
  split
  · exact hx
  · exact hy

/-- Width by width, in the order of the table's tests: 16, 9, 7, 8, 24, 32, 33, 35 and 40 bits. -/
theorem tableWord_inTable (nbits w : Nat) : (tableWord nbits w).all PortWord.inTable = true :=
  all_ite (all_ite rfl (all_ite rfl rfl)) <| all_ite (all_ite rfl rfl) <| all_ite (all_ite rfl rfl) <|
  all_ite (all_ite rfl rfl) <| all_ite (all_ite rfl rfl) <| all_ite (all_ite rfl rfl) <|
  all_ite (all_ite rfl rfl) <| all_ite (all_ite rfl rfl) <|
  all_ite (all_ite rfl (all_ite rfl (all_ite rfl rfl))) rfl

theorem decodeTableWord_eq_some {nbits w : Nat} {i : Instr} (h : decodeTableWord nbits w = some i) :
    ∃ p, tableWord nbits w = some p ∧ p.inTable = true ∧ decode p = .ok i := by
  have hin := tableWord_inTable nbits w
  unfold decodeTableWord at h
  cases hp : tableWord nbits w with
  | none => simp only [hp] at h; cases h
  | some p =>
    rw [hp] at hin
    simp only [hp] at h
    cases hd : decode p with
    | ok j => rw [hd] at h; cases h; exact ⟨p, rfl, hin, hd⟩
    | error why => rw [hd] at h; cases h

/-- A placed word is found where it was placed, wires by wires; TOCHAR's operand, where it is in its contract. -/
theorem fetch_withPortWord (s : State) {p : PortWord} {i : Instr} (hin : p.inTable = true) (hd : decode p = .ok i)
    (hc : ∀ n, i = .toChar n → n.toNat ≤ 78) :
    ∃ p' s', fetch (s.withPortWord p) = .word p' s' ∧ decode p' = .ok i := by
  have hunit : ∀ u : UnitWord, fetch (s.withUnitWord u) = .word u.word { s.withUnitWord u with unitWires := none } :=
    fun u => fetch_unit rfl rfl rfl
  have hport : ∀ r : PortRequest, r.inContract = true →
      fetch (s.withRequest r) = .word r.word { s.withRequest r with request := none } :=
    fun r hr => fetch_request rfl rfl hr
  cases p with
  | symbol v =>
    cases hd
    exact fetch_withSymbol s v
  | token v => exact fetch_withToken s hd
  | wire16 v => exact ⟨_, _, hunit (.wire16 v), hd⟩
  | wire32 v => exact ⟨_, _, hunit (.wire32 v), hd⟩
  | opEmit v => exact ⟨_, _, hunit (.emit v), hd⟩
  | opFromChar v => exact ⟨_, _, hport (.fromChar v) rfl, hd⟩
  | opPack v => exact ⟨_, _, hport (.pack v) rfl, hd⟩
  | opToChar v =>
    cases hd
    exact ⟨_, _, hport (.toChar v) ((PortRequest.inContract_toChar v).2 (hc v rfl)), rfl⟩
  | _ => cases hin

/-- Settles O6: the table's word is placed on its wires and found there; a word that decodes to TOCHAR is TOCHAR's operand. -/
theorem placedTableWordIsFetchedNext : Obligations.PlacedTableWordIsFetchedNext := by
  intro s nbits w i h
  obtain ⟨p, hp, hin, hd⟩ := decodeTableWord_eq_some h
  have hplace : s.withFetchWord nbits w = s.withPortWord p := by simp only [State.withFetchWord, hp]
  rw [hplace]
  refine ⟨fetch_withPortWord s hin hd, fun n hn h78 => ?_⟩
  subst hn
  obtain rfl : PortWord.opToChar n = p := (encodeInvertsDecode p _ hd).2.2 nofun
  refine fetch_declined (s := s.withRequest (.toChar n)) rfl rfl ?_
  rw [← Bool.not_eq_true, PortRequest.inContract_toChar]
  omega

end Sys2Proof
end

section
/-! One call of the classifier (spec/41_byte_classifier.md R80 to R96): what each symbol makes of a call and of the functional
classifier's state, and from this GET3 as `Scan` of the remaining input, and as the session's steps. -/

namespace Sys2Proof

/-! ## `Scan`, one symbol at a time (R96) -/

theorem scan_null_counts {n : Nat} (r : List Byte) (hn : n < 78) :
    scan (0x00#8 :: r) [] n = scan r [] (n + 1) := by
  rw [scan, if_pos ⟨rfl, rfl⟩, if_neg (by omega)]

theorem scan_null_cuts {n : Nat} (r : List Byte) (hn : 78 ≤ n) :
    scan (0x00#8 :: r) [] n = (.nullRun 78, 0x00#8 :: r) := by
  rw [scan, if_pos ⟨rfl, rfl⟩, if_pos (by omega)]

theorem scan_run_ends {b : Byte} {n : Nat} (r l : List Byte) (hb : b ≠ 0x00#8) (hn : 2 ≤ n) :
    scan (b :: r) l n = (.nullRun n, b :: r) := by
  rw [scan, if_neg (fun h => hb h.1), if_pos ⟨hb, hn⟩]

theorem scan_backtracks {b : Byte} (r l : List Byte) (hb : b ≠ 0x00#8) :
    scan (b :: r) l 1 = scan r [0x00#8, b] 0 := by
  rw [scan, if_neg (fun h => hb h.1), if_neg (by omega)]
  simp [hb]

/-- A byte that is no null with nothing pending joins the literal bytes, and the third one returns them. -/
theorem scan_appends {b : Byte} (r : List Byte) {l : List Byte} (hb : b ≠ 0x00#8 ∨ l ≠ []) :
    scan (b :: r) l 0 = if l.length = 2 then (.literal (l ++ [b]), r) else scan r (l ++ [b]) 0 := by
  rw [scan, if_neg (fun h => hb.elim (fun h' => h' h.1) (fun h' => h' h.2)), if_neg (by omega)]
  simp

theorem scan_end_run {n : Nat} (l : List Byte) (hn : 2 ≤ n) : scan [] l n = (.nullRun n, []) := by
  rw [scan, if_pos hn]

theorem scan_end_one (l : List Byte) : scan [] l 1 = (.literal [0x00#8], []) := rfl

theorem scan_end_tail {l : List Byte} (hl : l ≠ []) : scan [] l 0 = (.literal l, []) := by
  simp [scan, hl]

theorem scan_end : scan [] [] 0 = (.endOfInput, []) := rfl

end Sys2Proof

namespace Sys2Proof.Machine

/-! ## Inside a call -/

/-- The literal bytes that are pending, as the functional classifier holds them (R96). -/
def State.pending (s : State) : List Byte := s.lit.bytes s.litN

theorem State.pending_of_zero {s : State} (h : s.litN = 0#2) : s.pending = [] := by
  rw [State.pending, h]
  rfl

theorem State.pending_of_one {s : State} (h : s.litN = 1#2) : s.pending = [s.lit.b0] := by
  rw [State.pending, h]
  rfl

theorem State.pending_of_two {s : State} (h : s.litN = 2#2) : s.pending = [s.lit.b0, s.lit.b1] := by
  rw [State.pending, h]
  rfl

theorem State.pending_of_three {s : State} (h : s.litN = 3#2) : s.pending = [s.lit.b0, s.lit.b1, s.lit.b2] := by
  rw [State.pending, h]
  rfl

/-- The states between two symbols of a call (spec/10_state.md R21). -/
structure InCall (s : State) : Prop where
  running : s.call = .running
  noRemainder : s.remValid = false
  litN_le : s.litN.toNat ≤ 2
  nulls_le : s.nulls.toNat ≤ 78
  exclusive : s.nulls ≠ 0#7 → s.litN = 0#2

/-- A call starts with at most one byte pending, whatever the registers held (R81). -/
theorem openCall_inCall (s : State) : InCall s.openCall := by
  obtain ⟨hv, e⟩ | ⟨_, _, e⟩ | ⟨_, _, e⟩ := s.openCall_cases <;> rw [e]
  · exact ⟨rfl, hv, by simp, by simp, fun h => absurd rfl h⟩
  · exact ⟨rfl, rfl, by simp, by simp, fun _ => rfl⟩
  · exact ⟨rfl, rfl, by simp, by simp, fun h => absurd rfl h⟩

/-- What classifying starts from is the remaining input: the held byte is pending already, and nothing else is (R95). -/
theorem scan_openCall (s : State) :
    scan (s.args.input.drop s.ipos) s.openCall.pending s.openCall.nulls.toNat = scan (remaining s) [] 0 := by
  unfold remaining
  obtain ⟨hv, e⟩ | ⟨hv, hm, e⟩ | ⟨hv, hm, e⟩ := s.openCall_cases <;> rw [hv]
  · rw [State.pending_of_zero (by rw [e]), e]
    rfl
  · rw [State.pending_of_zero (by rw [e]), e, hm]
    exact (scan_null_counts _ (by decide)).symm
  · rw [State.pending_of_one (by rw [e]), e]
    exact (scan_appends (l := []) _ (.inl hm)).symm

theorem InCall.takeByte {s : State} (h : InCall s) : InCall s.takeByte :=
  ⟨h.running, h.noRemainder, h.litN_le, h.nulls_le, h.exclusive⟩

theorem InCall.countRead {s : State} (h : InCall s) : InCall s.countRead :=
  ⟨h.running, h.noRemainder, h.litN_le, h.nulls_le, h.exclusive⟩

/-- The three things that can be pending inside a call: nulls alone, or one or two literal bytes. -/
theorem InCall.litN_cases {s : State} (h : InCall s) :
    s.litN = 0#2 ∨ (s.nulls = 0#7 ∧ s.litN = 1#2) ∨ (s.nulls = 0#7 ∧ s.litN = 2#2) := by
  by_cases h0 : s.litN = 0#2
  · exact .inl h0
  · have hn : s.nulls = 0#7 := by
      by_contra hn
      exact h0 (h.exclusive hn)
    have h3 : s.litN ≠ 3#2 := by
      intro h3
      have hle := h.litN_le
      rw [h3] at hle
      exact absurd hle (by decide)
    obtain h1 | h2 := litN_one_or_two.1 ⟨h0, h3⟩
    · exact .inr (.inl ⟨hn, h1⟩)
    · exact .inr (.inr ⟨hn, h2⟩)

/-- The count of nulls is 0, 1 or an escapable run (R20). -/
theorem nulls_cases (n : BitVec 7) : n = 0#7 ∨ n = 1#7 ∨ 2 ≤ n.toNat := by
  simp only [← BitVec.toNat_inj, BitVec.toNat_ofNat]
  omega

/-- What a byte makes of a call, and of `Scan` of it and any rest: the call goes on; or a triple is complete; or a run ends
and the byte is held. -/
inductive AfterByte (s : State) (b : Byte) (t : State) : Prop where
  | goesOn (inCall : InCall t)
      (scanned : ∀ r, scan (b :: r) s.pending s.nulls.toNat = scan r t.pending t.nulls.toNat)
  | triple (returned : t.call = .returned (.literal 3#2)) (litN : t.litN = 3#2) (nulls : t.nulls = 0#7)
      (noRemainder : t.remValid = false)
      (scanned : ∀ r, scan (b :: r) s.pending s.nulls.toNat = (.literal t.pending, r))
  | run (c : BitVec 7) (returned : t.call = .returned (.nullRun c)) (two_le : 2 ≤ c.toNat) (le : c.toNat ≤ 78)
      (litN : t.litN = 0#2) (remainder : t.remValid = true) (held : t.remByte = b)
      (scanned : ∀ r, scan (b :: r) s.pending s.nulls.toNat = (.nullRun c.toNat, b :: r))

theorem InCall.nullByte {s : State} (h : InCall s) : ∃ t, execSymNul s = .next t ∧ AfterByte s 0x00#8 t := by
  obtain h0 | ⟨hn, h1⟩ | ⟨hn, h2⟩ := h.litN_cases
  · rw [execSymNul_of_empty h0]
    obtain hlt | hge := Nat.lt_or_ge s.nulls.toNat 78
    · have hsucc : s.countNull.nulls.toNat = s.nulls.toNat + 1 := by
        rw [State.countNull_nulls, BitVec.toNat_add, BitVec.toNat_ofNat]
        omega
      refine ⟨_, execSymNulCount_counts h.running h0 hlt, .goesOn ?_ fun r => ?_⟩
      · exact ⟨h.running, h.noRemainder, h.litN_le, by omega, fun _ => h0⟩
      · rw [State.pending_of_zero h0, scan_null_counts r hlt, State.pending_of_zero (s := s.countNull) h0, hsucc]
    · refine ⟨_, execSymNulCount_cuts h.running h0 hge, .run 78#7 rfl (by decide) (by decide) h0 rfl rfl fun r => ?_⟩
      rw [State.pending_of_zero h0, scan_null_cuts r hge]
      rfl
  · rw [execSymNul_of_pending (by simp [h1]), execSymNulAppend_appends h.running (by simp [h1]) (by simp [h1]),
      append_second _ h1]
    refine ⟨_, rfl, .goesOn ⟨h.running, h.noRemainder, by simp, h.nulls_le, fun h' => absurd hn h'⟩ fun r => ?_⟩
    rw [State.pending_of_one h1, State.pending_of_two rfl, hn]
    exact scan_appends r (.inr (by simp))
  · rw [execSymNul_of_pending (by simp [h2]), execSymNulAppend_appends h.running (by simp [h2]) (by simp [h2]),
      append_third _ h2]
    refine ⟨_, rfl, .triple rfl rfl hn h.noRemainder fun r => ?_⟩
    rw [State.pending_of_two h2, State.pending_of_three rfl, hn]
    exact scan_appends r (.inr (by simp))

theorem InCall.literalByte {s : State} {b : Byte} (h : InCall s) (hb : b ≠ 0x00#8) :
    ∃ t, execSymLit b s = .next t ∧ AfterByte s b t := by
  obtain hn | hn | hn := nulls_cases s.nulls
  · have h3 : s.litN ≠ 3#2 := by
      obtain h0 | ⟨_, h1⟩ | ⟨_, h2⟩ := h.litN_cases
      · simp [h0]
      · simp [h1]
      · simp [h2]
    rw [execSymLit_of_none b hn, execSymLitAppend_appends b h.running hn h3]
    obtain h0 | ⟨_, h1⟩ | ⟨_, h2⟩ := h.litN_cases
    · rw [append_first b h0]
      refine ⟨_, rfl, .goesOn ⟨h.running, h.noRemainder, by simp, h.nulls_le, fun h' => absurd hn h'⟩ fun r => ?_⟩
      rw [State.pending_of_zero h0, State.pending_of_one rfl, hn]
      exact scan_appends r (.inl hb)
    · rw [append_second b h1]
      refine ⟨_, rfl, .goesOn ⟨h.running, h.noRemainder, by simp, h.nulls_le, fun h' => absurd hn h'⟩ fun r => ?_⟩
      rw [State.pending_of_one h1, State.pending_of_two rfl, hn]
      exact scan_appends r (.inl hb)
    · rw [append_third b h2]
      refine ⟨_, rfl, .triple rfl rfl hn h.noRemainder fun r => ?_⟩
      rw [State.pending_of_two h2, State.pending_of_three rfl, hn]
      exact scan_appends r (.inl hb)
  · rw [execSymLit_of_one b hn, execSymLitBacktrack_appends b h.running hn]
    refine ⟨_, rfl, .goesOn ⟨h.running, h.noRemainder, by simp, by simp, fun h' => absurd rfl h'⟩ fun r => ?_⟩
    rw [State.pending_of_two (s := s.nullToLit.appendLit b) rfl, hn]
    exact scan_backtracks r _ hb
  · rw [execSymLit_of_run b hn, execSymLitEndrun_ends b h.running hn]
    have h0 : s.litN = 0#2 := h.exclusive fun e => absurd hn (by simp [e])
    exact ⟨_, rfl, .run s.nulls rfl hn h.nulls_le h0 rfl rfl fun r => scan_run_ends r _ hb hn⟩

/-- A byte inside a call is always classified. -/
theorem InCall.byte {s : State} (h : InCall s) (b : Byte) :
    ∃ t, exec (if b = 0x00#8 then .symNul else .symLit b) s = .next t ∧ AfterByte s b t := by
  by_cases hb : b = 0x00#8
  · rw [if_pos hb, hb]
    exact h.nullByte
  · rw [if_neg hb]
    exact h.literalByte hb

/-- What end of input makes of a call: it returns what is pending. -/
inductive AfterEof (s t : State) : Prop where
  | run (c : BitVec 7) (returned : t.call = .returned (.nullRun c)) (two_le : 2 ≤ c.toNat) (le : c.toNat ≤ 78)
      (litN : t.litN = 0#2) (noRemainder : t.remValid = false)
      (scanned : scan [] s.pending s.nulls.toNat = (.nullRun c.toNat, []))
  | tail (returned : t.call = .returned (.literal t.litN)) (nonempty : t.litN ≠ 0#2) (short : t.litN ≠ 3#2)
      (nulls : t.nulls = 0#7) (noRemainder : t.remValid = false)
      (scanned : scan [] s.pending s.nulls.toNat = (.literal t.pending, []))
  | none (returned : t.call = .returned .endOfInput) (litN : t.litN = 0#2) (nulls : t.nulls = 0#7)
      (noRemainder : t.remValid = false)
      (scanned : scan [] s.pending s.nulls.toNat = (.endOfInput, []))

theorem AfterEof.noRemainder {s t : State} (h : AfterEof s t) : t.remValid = false := by
  cases h <;> assumption

/-- End of input inside a call is always classified. -/
theorem InCall.eof {s : State} (h : InCall s) : ∃ t, execSymEof s = .next t ∧ AfterEof s t := by
  obtain hn | hn | hn := nulls_cases s.nulls
  · by_cases h0 : s.litN = 0#2
    · rw [execSymEof_of_nothing_pending hn h0, execSymEofEnd_of_nothing_pending h.running hn h0]
      refine ⟨_, rfl, .none rfl h0 hn h.noRemainder ?_⟩
      rw [State.pending_of_zero h0, hn]
      rfl
    · have h12 : s.litN = 1#2 ∨ s.litN = 2#2 := (h.litN_cases.resolve_left h0).imp And.right And.right
      have h3 := (litN_one_or_two.2 h12).2
      have hne : s.pending ≠ [] := by
        obtain h1 | h2 := h12
        · simp [State.pending_of_one h1]
        · simp [State.pending_of_two h2]
      rw [execSymEof_of_tail hn h0, execSymEofTail_returns h.running hn h0 h3]
      refine ⟨_, rfl, .tail rfl h0 h3 hn h.noRemainder ?_⟩
      rw [hn]
      exact scan_end_tail hne
  · rw [execSymEof_of_one hn, execSymEofOne_returns h.running hn]
    refine ⟨_, rfl, .tail rfl (by simp) (by simp) rfl h.noRemainder ?_⟩
    rw [hn]
    exact scan_end_one _
  · rw [execSymEof_of_run hn, execSymEofRun_returns h.running hn]
    have h0 : s.litN = 0#2 := h.exclusive fun e => absurd hn (by simp [e])
    exact ⟨_, rfl, .run s.nulls rfl hn h.nulls_le h0 h.noRemainder (scan_end_run _ hn)⟩

/-- What a byte's class does to the rest of the state: nothing (spec/10_state.md R27). -/
theorem exec_byte_frame {s t : State} {b : Byte} (h : exec (if b = 0x00#8 then .symNul else .symLit b) s = .next t) :
    ClassifierFrame s t := by
  by_cases hb : b = 0x00#8
  · rw [if_pos hb] at h
    exact execSymNul_frame h
  · rw [if_neg hb] at h
    exact execSymLit_frame h

/-! ## The whole call -/

/-- What a call may change: the classifier's registers, the input position, the count of reads and the call. -/
def CallFrame (s t : State) : Prop :=
  t = { s with lit := t.lit, litN := t.litN, nulls := t.nulls, remByte := t.remByte, remValid := t.remValid,
               ipos := t.ipos, reads := t.reads, call := t.call }

theorem CallFrame.trans {s t u : State} (h : CallFrame s t) (k : CallFrame t u) : CallFrame s u := by
  have hu : u = _ := k
  rw [show t = _ from h] at hu
  exact hu

theorem CallFrame.of_classifier {s t : State} (h : ClassifierFrame s t) : CallFrame s t := by
  have hi : t.ipos = s.ipos := by rw [show t = _ from h]
  have hr : t.reads = s.reads := by rw [show t = _ from h]
  unfold CallFrame
  rw [hi, hr]
  exact h

theorem openCall_frame (s : State) : CallFrame s s.openCall := by
  obtain ⟨_, e⟩ | ⟨_, _, e⟩ | ⟨_, _, e⟩ := s.openCall_cases <;> rw [e] <;> rfl

/-- How a call from `s` ends: with a token returned, that token and the remaining input being what `Scan` finds. A call reads
one symbol for each byte, and `Eof` once at most: the token `End` never without it, and no byte remains after it. -/
structure CallReturns (s t : State) (tok : Token) : Prop where
  returned : t.call = .returned tok
  scanned : (refToken t tok, remaining t) = scan (s.args.input.drop s.ipos) s.pending s.nulls.toNat
  frame : CallFrame s t
  reads : (t.reads + s.ipos = s.reads + t.ipos ∧ tok ≠ .endOfInput) ∨
    (t.reads + s.ipos = s.reads + t.ipos + 1 ∧ remaining t = [])

/-- Where a byte does not return a token, the call goes on as from the state after it. -/
theorem CallReturns.after_byte {s t u : State} {b : Byte} {tok : Token} (hb : s.args.input[s.ipos]? = some b)
    (hf : ClassifierFrame s.takeByte t)
    (hs : ∀ r, scan (b :: r) s.pending s.nulls.toNat = scan r t.pending t.nulls.toNat) (h : CallReturns t u tok) :
    CallReturns s u tok := by
  have hargs : t.args = s.args := by rw [show t = _ from hf]; rfl
  have hipos : t.ipos = s.ipos + 1 := by rw [show t = _ from hf]; rfl
  have hreads : t.reads = s.reads + 1 := by rw [show t = _ from hf]; rfl
  have hframe : CallFrame s t := CallFrame.trans (t := s.takeByte) rfl (.of_classifier hf)
  obtain ⟨hlt, rfl⟩ := List.getElem?_eq_some_iff.1 hb
  refine ⟨h.returned, ?_, hframe.trans h.frame, ?_⟩
  · rw [h.scanned, List.drop_eq_getElem_cons hlt, hs, hargs, hipos]
  · have hr := h.reads
    rw [hipos, hreads] at hr
    refine hr.imp (fun hr => ⟨by omega, hr.2⟩) (fun hr => ⟨by omega, hr.2⟩)

/-- A byte that returns a token ends the call. -/
theorem CallReturns.of_byte {s t : State} {b : Byte} {tok : Token} (hb : s.args.input[s.ipos]? = some b)
    (hf : ClassifierFrame s.takeByte t) (hc : t.call = .returned tok) (hne : tok ≠ .endOfInput)
    (hs : (refToken t tok, remaining t) = scan (b :: s.args.input.drop (s.ipos + 1)) s.pending s.nulls.toNat) :
    CallReturns s t tok := by
  have hipos : t.ipos = s.ipos + 1 := by rw [show t = _ from hf]; rfl
  have hreads : t.reads = s.reads + 1 := by rw [show t = _ from hf]; rfl
  obtain ⟨hlt, rfl⟩ := List.getElem?_eq_some_iff.1 hb
  refine ⟨hc, ?_, CallFrame.trans (t := s.takeByte) rfl (.of_classifier hf), .inl ⟨by omega, hne⟩⟩
  rw [hs, List.drop_eq_getElem_cons hlt]

/-- End of input ends the call. -/
theorem CallReturns.of_eof {s t : State} (hb : s.args.input[s.ipos]? = none) (hf : ClassifierFrame s.countRead t)
    (h : AfterEof s.countRead t) : ∃ tok, CallReturns s t tok := by
  have hargs : t.args = s.args := by rw [show t = _ from hf]; rfl
  have hipos : t.ipos = s.ipos := by rw [show t = _ from hf]; rfl
  have hreads : t.reads = s.reads + 1 := by rw [show t = _ from hf]; rfl
  have hdrop : s.args.input.drop s.ipos = [] := List.drop_eq_nil_iff.2 (List.getElem?_eq_none_iff.1 hb)
  have hrest : remaining t = [] := by
    simp [remaining, h.noRemainder, hargs, hipos, hdrop]
  have hframe : CallFrame s t := CallFrame.trans (t := s.countRead) rfl (.of_classifier hf)
  have hends : ∀ tok, t.call = .returned tok →
      scan [] s.countRead.pending s.countRead.nulls.toNat = (refToken t tok, []) → ∃ tok, CallReturns s t tok :=
    fun tok hc hs => ⟨tok, hc, by rw [hrest, hdrop, ← hs]; rfl, hframe, .inr ⟨by omega, hrest⟩⟩
  cases h with
  | run c hc _ _ _ _ hs => exact hends _ hc hs
  | tail hc _ _ _ _ hs => exact hends _ hc hs
  | none hc _ _ _ hs => exact hends _ hc hs

/-- A call's loop returns, after one read for each unread byte and one at end of input at most. -/
theorem callLoop_returns {s : State} (h : InCall s) (hr : ReadsAnswered s (s.unread + 1)) :
    ∃ t tok, callLoop (s.unread + 1) s = .next t ∧ CallReturns s t tok := by
  generalize hm : s.unread = m at hr ⊢
  induction m generalizing s with
  | zero =>
    have hb : s.args.input[s.ipos]? = none := List.getElem?_eq_none_iff.2 (Nat.sub_eq_zero_iff_le.1 hm)
    obtain ⟨t, ht, ha⟩ := h.countRead.eof
    obtain ⟨tok, hret⟩ := CallReturns.of_eof hb (execSymEof_frame ht) ha
    refine ⟨t, tok, ?_, hret⟩
    rw [callLoop_succ, readSymbol_eof hr hb, ht]
    simp [hret.returned]
  | succ m ih =>
    have hlt : s.ipos < s.args.input.length := by
      have hu : s.args.input.length - s.ipos = m + 1 := hm
      omega
    have hb : s.args.input[s.ipos]? = some s.args.input[s.ipos] := List.getElem?_eq_getElem hlt
    generalize s.args.input[s.ipos] = b at hb
    obtain ⟨t, ht, ha⟩ := h.takeByte.byte b
    have hf := exec_byte_frame ht
    have hargs : t.args = s.args := by rw [show t = _ from hf]; rfl
    have hipos : t.ipos = s.ipos + 1 := by rw [show t = _ from hf]; rfl
    have hreads : t.reads = s.reads + 1 := by rw [show t = _ from hf]; rfl
    have hr1 : ReadsAnswered s 1 := fun k hk hlt => hr k hk (by omega)
    rw [callLoop_succ, readSymbol_byte hr1 hb, ht]
    have hends : ∀ tok, t.call = .returned tok → tok ≠ .endOfInput →
        (refToken t tok, remaining t) = scan (b :: s.args.input.drop (s.ipos + 1)) s.pending s.nulls.toNat →
        ∃ u tok', (if t.call = .running then callLoop (m + 1) t else .next t) = .next u ∧ CallReturns s u tok' :=
      fun tok hc hne hs => ⟨t, tok, by simp [hc], .of_byte hb hf hc hne hs⟩
    cases ha with
    | goesOn hin hs =>
      have hunread : t.unread = m := by
        rw [State.unread, hargs, hipos]
        have hu : s.args.input.length - s.ipos = m + 1 := hm
        omega
      have hrt : ReadsAnswered t (m + 1) := by
        intro k hk hlt
        rw [hargs]
        exact hr k (by omega) (by omega)
      obtain ⟨u, tok, hu, hret⟩ := ih hin hunread hrt
      exact ⟨u, tok, (if_pos hin.running).trans hu, hret.after_byte hb hf hs⟩
    | triple hc hl _ hv hs =>
      refine hends _ hc nofun ?_
      refine Eq.trans ?_ (hs _).symm
      simp [refToken, State.pending, hl, remaining, hv, hargs, hipos]
    | run c hc _ _ _ hv hheld hs =>
      refine hends _ hc nofun ?_
      refine Eq.trans ?_ (hs _).symm
      simp [refToken, remaining, hv, hheld, hargs, hipos]

/-- GET3 between two calls returns. -/
theorem execGet3_returns {s : State} (hq : s.seq = .streaming) (hc : s.call = .idle)
    (hr : ReadsAnswered s (s.unread + 1)) : ∃ t tok, execGet3 s = .next t ∧ CallReturns s.openCall t tok := by
  have hunread : s.openCall.unread = s.unread := by simp [State.unread]
  have hr' : ReadsAnswered s.openCall (s.openCall.unread + 1) := by
    rw [hunread]
    exact hr.of_eq (by simp) (by simp)
  obtain ⟨t, tok, ht, hret⟩ := callLoop_returns (openCall_inCall s) hr'
  rw [hunread] at ht
  exact ⟨t, tok, (if_pos ⟨hq, hc⟩).trans ht, hret⟩

/-- Settles O32: the call opens with the held byte pending, and each symbol does to the call what it does to `Scan`. -/
theorem get3ReturnsTheTokenOfTheRemainingInput : Obligations.Get3ReturnsTheTokenOfTheRemainingInput := by
  intro s hq hc hr
  obtain ⟨t, tok, ht, hret⟩ := execGet3_returns hq hc hr
  refine ⟨t, tok, ht, hret.returned, ?_, (openCall_frame s).trans hret.frame⟩
  rw [hret.scanned, State.openCall_args, State.openCall_ipos, scan_openCall]

/-! ## The call, symbol by symbol -/

theorem runSteps_succ {s s' : State} (n : Nat) (h : step s = .next s') : runSteps (n + 1) s = runSteps n s' := by
  simp only [runSteps, h]

/-- A symbol that leaves the call running leaves the session where the next step reads on. -/
theorem readSymbol_running {s t : State} (h : readSymbol s = .next t) (hr : t.call = .running) (hq : s.seq = .streaming)
    (hu : s.undisturbed) : t.seq = .streaming ∧ t.undisturbed := by
  have hframe : ∀ u : State, u.seq = .streaming → u.undisturbed → ClassifierFrame u t →
      t.seq = .streaming ∧ t.undisturbed := by
    intro u huq huu hf
    rw [show t = _ from hf]
    exact ⟨huq, huu⟩
  obtain ⟨b, _, ⟨_, he⟩ | ⟨_, he⟩⟩ | ⟨_, he⟩ | rfl := readSymbol_next h
  · exact hframe s.takeByte hq hu (execSymNul_frame he)
  · exact hframe s.takeByte hq hu (execSymLit_frame he)
  · exact hframe s.countRead hq hu (execSymEof_frame he)
  · cases hr

/-- The session's steps, from the start of a call or inside it, end as the call's loop does. -/
theorem exists_runSteps_callLoop (n : Nat) {s : State} (hu : s.undisturbed) (hq : s.seq = .streaming)
    (hc : s.call = .idle ∨ s.call = .running) :
    ∃ m, m ≤ n + 1 ∧ runSteps m s = callLoop (n + 1) s.enterCall := by
  have henter : s.enterCall.seq = .streaming ∧ s.enterCall.undisturbed := by
    obtain hc | hc := hc
    · rw [State.enterCall_idle hc]
      exact ⟨by simpa using hq, by simpa [State.undisturbed] using hu⟩
    · rw [State.enterCall_running hc]
      exact ⟨hq, hu⟩
  have hstep := step_streaming hu hq hc
  have hone : runSteps 1 s = readSymbol s.enterCall := by
    rw [← hstep, runSteps]
    cases step s <;> rfl
  rw [callLoop_succ]
  cases hread : readSymbol s.enterCall with
  | fault f => exact ⟨1, by omega, hone.trans hread⟩
  | refused r => exact ⟨1, by omega, hone.trans hread⟩
  | next t =>
    by_cases hr : t.call = .running
    · obtain ⟨htq, htu⟩ := readSymbol_running hread hr henter.1 henter.2
      cases n with
      | zero => exact ⟨1, by omega, by rw [hone, hread]; simp [hr, callLoop]⟩
      | succ n =>
        obtain ⟨m, hm, h⟩ := exists_runSteps_callLoop n htu htq (.inr hr)
        refine ⟨m + 1, by omega, ?_⟩
        rw [runSteps_succ m (hstep.trans hread), h, State.enterCall_running hr]
        exact (if_pos hr).symm
    · exact ⟨1, by omega, by rw [hone, hread]; simp [hr]⟩

/-- Settles O33: GET3's loop is run by the session one symbol a step. -/
theorem steppingTheSymbolsIsTheCall : Obligations.SteppingTheSymbolsIsTheCall := by
  intro s hu hq hc
  obtain ⟨m, hm, h⟩ := exists_runSteps_callLoop s.unread hu hq (.inl hc)
  refine ⟨m, hm, ?_⟩
  rw [h, State.enterCall_idle hc]
  exact (if_pos ⟨hq, hc⟩).symm

end Sys2Proof.Machine
end

section
/-! Everything one step of the machine can do, as one case distinction, and from it what every step keeps: the ranges of the
registers and the session's invariant (spec/10_state.md R21), the transitions of `SEQ` (spec/45_session_sequencer.md R150), the
streams (spec/20_memory.md R33, R44, R46) and the session against what is presented (spec/60_exceptions.md R162). -/

namespace Sys2Proof.Machine

/-! ## Everything a step can do -/

/-- The state after the output that a unit's wires ask for, every write of it accepted: a group by EMIT, or bytes alone. -/
def UnitOutput (s full : State) : Prop :=
  (∃ g, groupLengthOk g ∧ full = afterEmit s g) ∨ ∃ bytes, full = s.putBytes bytes

/-- `t` is where output from `s` ends: in the state `full` that its rules give, or in `Abort`, which is reached only by a
write that has just failed. -/
structure OutputTo (s t full : State) : Prop where
  writesTo : WritesTo s t full
  failed : t.seq = .abort → AccessFailed t

/-- The steps of the machine, in the order in which fetch looks for them. -/
inductive StepTo (s : State) : State → Prop where
  /-- Reset (R175). -/
  | reset (hr : s.resetLine = true) : StepTo s s.resetSession
  /-- A leaf function presented on its port, within its contract or declined (entry 10). -/
  | port (hr : s.resetLine = false) (r : PortRequest) (hp : s.request = some r) (res : PortResult) (n : Nat) :
      StepTo s { s with request := none, result := res, fresh := n }
  /-- Output on the line writer's wires (entry 24). -/
  | output (hr : s.resetLine = false) (hp : s.request = none) (ho : s.over = false) {t full : State}
      (hf : UnitOutput { s with unitWires := none } full) (hw : OutputTo { s with unitWires := none } t full) : StepTo s t
  /-- A whole call on the wires of GET3 (entries 16 and 24). -/
  | call (hr : s.resetLine = false) (hp : s.request = none) {t : State}
      (h : execGet3 { s with unitWires := none } = .next t) : StepTo s t
  /-- The header line (R136). -/
  | start (hu : s.undisturbed) (hq : s.seq = .start) {t : State}
      (hw : OutputTo s t ((s.putBytes (s.args.hdr ++ [0x0D#8, 0x0A#8])).setSeq .streaming)) : StepTo s t
  /-- The group of a data token (R138 to R140): `FILL` is 0, but after a short literal. -/
  | group (hu : s.undisturbed) (hq : s.seq = .streaming) (tok : Token) (hc : s.call = .accepted tok) (l : Lit)
      (v : BitVec 2) (g : List Byte) (hg : groupLengthOk g)
      (hv : v = 0#2 ∨ (v.toNat ≤ 2 ∧ ∃ n, tok = .literal n ∧ n ≠ 3#2)) {t : State}
      (hw : OutputTo (State.takeToken { s with lit := l } v) t (afterEmit (State.takeToken { s with lit := l } v) g)) :
      StepTo s t
  /-- The token `End` (R141). -/
  | finish (hu : s.undisturbed) (hq : s.seq = .streaming) (hc : s.call = .accepted .endOfInput) :
      StepTo s ((s.takeToken s.fill).setSeq .finalizing)
  /-- The markers and the trailer (R142, R143). -/
  | finalize (hu : s.undisturbed) (hq : s.seq = .finalizing) {t : State}
      (hw : OutputTo s t (((afterMarkers s.fill.toNat s).putBytes [0x0D#8, 0x0A#8]).setSeq .done)) : StepTo s t
  /-- The taking of the token on the bus (entry 11). -/
  | token (hu : s.undisturbed) (hq : s.seq = .streaming) (tok : Token) (hc : s.call = .returned tok) :
      StepTo s (s.acceptToken tok)
  /-- One symbol of a call, the start of the call before its first (entry 6). -/
  | symbol (hu : s.undisturbed) (hq : s.seq = .streaming) (hc : s.call = .idle ∨ s.call = .running) {t : State}
      (h : readSymbol s.enterCall = .next t) : StepTo s t
  /-- Nothing, after `Done` and `Abort` (entry 15). -/
  | nothing (hu : s.undisturbed) (ho : s.over = true) : StepTo s s

/-- What an instruction with written bytes ends in, where it does not start in `Abort`. -/
theorem exec_outputTo {i : Instr} {s u t full : State} {bytes : List Byte} (h : exec i s = .next t)
    (hs : s.seq ≠ .abort) (hb : writtenBytes i s = some bytes) (hw : WritesTo u t full) : OutputTo u t full :=
  ⟨hw, exec_writes_abort hb h hs⟩

/-- The instructions that a unit's wires can name. -/
theorem exec_unit {u : UnitWord} {i : Instr} {s t : State} (hd : decode u.word = .ok i) (h : exec i s = .next t) :
    (u = .get3 ∧ execGet3 s = .next t) ∨ (s.over = false ∧ ∃ full, UnitOutput s full ∧ OutputTo s t full) := by
  have hseq : s.over = false → s.seq ≠ .abort := fun ho => (s.over_false_iff.1 ho).2
  have hwf := (encodeInvertsDecode _ _ hd).1
  cases u with
  | get3 =>
    cases hd
    exact .inl ⟨rfl, h⟩
  | emit w =>
    cases hd
    obtain ⟨ho, hw⟩ := execEmit_next h
    exact .inr ⟨ho, _, .inl ⟨_, busGroup_groupLengthOk _ _, rfl⟩, exec_outputTo h (hseq ho) (if_neg (by simp [ho])) hw⟩
  | wire32 w =>
    dsimp only [UnitWord.word, decode, decodeWire32] at hd
    split at hd <;> cases hd
    obtain ⟨ho, hw⟩ := execWQuad_next h
    exact .inr ⟨ho, _, .inl ⟨_, .inr rfl, rfl⟩, exec_outputTo h (hseq ho) (if_neg (by simp [ho, hwf])) hw⟩
  | wire16 w =>
    dsimp only [UnitWord.word, decode, decodeWire16] at hd
    split_ifs at hd <;> cases hd
    · obtain ⟨ho, hw⟩ := execWPad_next h
      exact .inr ⟨ho, _, .inl ⟨_, .inl rfl, rfl⟩, exec_outputTo h (hseq ho) (if_neg (by simp [ho])) hw⟩
    · obtain ⟨ho, hw⟩ := execWEol_next h
      exact .inr ⟨ho, _, .inr ⟨_, rfl⟩, exec_outputTo h (hseq ho) (if_neg (by simp [ho])) hw⟩
    · obtain ⟨ho, hw⟩ := execWEsc_next h
      exact .inr ⟨ho, _, .inl ⟨_, .inl rfl, rfl⟩, exec_outputTo h (hseq ho) (if_neg (by simp [ho, hwf])) hw⟩
  | wireVar bytes =>
    dsimp only [UnitWord.word, decode, decodeWireVar] at hd
    split at hd <;> cases hd
    obtain ⟨ho, hw⟩ := execWHdr_next h
    exact .inr ⟨ho, _, .inr ⟨_, rfl⟩, exec_outputTo h (hseq ho) (if_neg (by simp [ho])) hw⟩

theorem execSeqLiteral_stepTo {s t : State} (hu : s.undisturbed) (h : exec .seqLiteral s = .next t) : StepTo s t := by
  obtain ⟨hq, hc, hw⟩ := execSeqLiteral_next h
  refine .group hu hq _ hc s.lit 0#2 _ s.lit.pack_groupLengthOk (.inl rfl) (exec_outputTo h ?_ (if_pos ⟨hq, hc⟩) hw)
  rw [hq]
  exact nofun

theorem execSeqShortlit_stepTo {s t : State} (hu : s.undisturbed) (h : exec .seqShortlit s = .next t) : StepTo s t := by
  obtain ⟨hq, n, hn, hc, hw⟩ := execSeqShortlit_next h
  have hs : s.seq ≠ .abort := by rw [hq]; exact nofun
  obtain rfl | rfl := hn
  · exact .group hu hq _ hc _ 2#2 _ (Lit.pack_groupLengthOk _) (.inr ⟨by decide, 1#2, rfl, by decide⟩)
      (exec_outputTo h hs (if_pos ⟨hq, hc⟩) hw)
  · refine .group hu hq _ hc _ 1#2 _ (Lit.pack_groupLengthOk _) (.inr ⟨by decide, 2#2, rfl, by decide⟩)
      (exec_outputTo h hs ((if_neg fun h1 => ?_).trans (if_pos ⟨hq, hc⟩)) hw)
    rw [hc] at h1
    exact absurd h1.2 (by decide)

theorem execSeqNullrun_stepTo {s t : State} (hu : s.undisturbed) (h : exec .seqNullrun s = .next t) : StepTo s t := by
  obtain ⟨hq, n, hn, hc, hw⟩ := execSeqNullrun_next h
  have hb : writtenBytes .seqNullrun s = some (emitBytes s [0x7E#8, BitVec.ofNat 8 (n.toNat + 48)]) := by
    dsimp only [writtenBytes]
    rw [hq, hc]
    exact if_pos hn
  refine .group hu hq _ hc s.lit 0#2 _ (.inl rfl) (.inl rfl) (exec_outputTo h ?_ hb hw)
  rw [hq]
  exact nofun

theorem tokenRow_stepTo {s t : State} {tok : Token} (hu : s.undisturbed) (h : exec (tokenRow tok) s = .next t) :
    StepTo s t := by
  cases tok with
  | literal n =>
    by_cases hn : n = 3#2
    · rw [tokenRow, if_pos hn] at h
      exact execSeqLiteral_stepTo hu h
    · rw [tokenRow, if_neg hn] at h
      exact execSeqShortlit_stepTo hu h
  | nullRun n => exact execSeqNullrun_stepTo hu h
  | endOfInput =>
    obtain ⟨hq, hc, rfl⟩ := execSeqEnd_next h
    exact .finish hu hq hc

theorem selectRow_stepTo {s t : State} {i : Instr} (hu : s.undisturbed) (hi : selectRow s.seq s.call = some i)
    (h : exec i s = .next t) : StepTo s t := by
  cases hq : s.seq with
  | start =>
    rw [hq] at hi
    cases hi
    obtain ⟨_, hw⟩ := execSeqStart_next h
    exact .start hu hq (exec_outputTo h (by simp [hq]) (if_pos hq) hw)
  | streaming =>
    rw [hq] at hi
    cases hc : s.call with
    | accepted tok =>
      rw [hc] at hi
      cases hi
      exact tokenRow_stepTo hu h
    | idle | running | returned =>
      rw [hc] at hi
      cases hi
  | finalizing =>
    rw [hq] at hi
    cases hi
    obtain ⟨_, hw⟩ := execSeqFinalize_next h
    exact .finalize hu hq (exec_outputTo h (by simp [hq]) (if_pos hq) hw)
  | done | abort =>
    rw [hq] at hi
    cases hi

/-- The word on the token bus is the returned token, or is refused. -/
theorem exec_busWord {s t : State} {tok : Token} {i : Instr} (hd : decode (.token (busWord s.lit tok)) = .ok i)
    (h : exec i s = .next t) : t = s.acceptToken tok := by
  cases tok with
  | literal n =>
    by_cases hn : n = 0#2
    · rw [hn, decode_busWord_empty] at hd
      cases hd
    · rw [decode_busWord_literal _ hn] at hd
      cases hd
      obtain ⟨_, _, _, _, ht⟩ := execTLiteral_next h
      exact ht
  | nullRun n =>
    cases hn : isRunCount n with
    | false =>
      rw [decode_busWord_badRun _ hn] at hd
      cases hd
    | true =>
      rw [decode_busWord_nullRun _ hn] at hd
      cases hd
      obtain ⟨_, _, _, ht⟩ := execTNullrun_next h
      exact ht
  | endOfInput =>
    rw [decode_busWord_end] at hd
    cases hd
    obtain ⟨_, _, ht⟩ := execTEnd_next h
    exact ht

/-- A step that has found a word decoded it and ran it. -/
theorem step_word_next {s s' t : State} {p : PortWord} (hf : fetch s = .word p s') (h : step s = .next t) :
    ∃ i, decode p = .ok i ∧ exec i s' = .next t := by
  cases hd : decode p with
  | ok i => exact ⟨i, rfl, by rw [← step_word hf hd, h]⟩
  | error why =>
    rw [step_undecodable hf hd] at h
    cases h

/-- Everything a step that has a next state did. -/
theorem step_stepTo {s t : State} (h : step s = .next t) : StepTo s t := by
  obtain ⟨hr, hf⟩ | ⟨hr, r, hp, hc, hf⟩ | ⟨hr, r, hp, _, hf⟩ | ⟨hr, hp, u, hw, hf⟩ | ⟨hu, i, hi, hf⟩ |
    ⟨hu, hq, tok, hc, hf⟩ | ⟨hu, hq, hc, _⟩ | ⟨hu, ho, hf⟩ := fetch_cases s
  · obtain ⟨i, hd, he⟩ := step_word_next hf h
    cases hd
    cases he
    exact .reset hr
  · obtain ⟨i, hd, he⟩ := step_word_next hf h
    obtain ⟨res, n, hx⟩ := exec_inContract hc hd { s with request := none }
    rw [hx] at he
    cases he
    exact .port hr r hp res n
  · rw [step_of_declined hf] at h
    cases h
    exact .port hr r hp .refused s.fresh
  · obtain ⟨i, hd, he⟩ := step_word_next hf h
    obtain ⟨_, hget⟩ | ⟨ho, full, hfull, hout⟩ := exec_unit hd he
    · exact .call hr hp hget
    · exact .output hr hp ho hfull hout
  · rw [step_of_selected hf] at h
    exact selectRow_stepTo hu hi h
  · obtain ⟨i, hd, he⟩ := step_word_next hf h
    rw [exec_busWord hd he]
    exact .token hu hq tok hc
  · rw [step_streaming hu hq hc] at h
    exact .symbol hu hq hc h
  · rw [step_over hu ho] at h
    cases h
    exact .nothing hu ho

/-! ## How a read ends -/

/-- Either the symbol was classified, or the read has just failed (R156). -/
theorem readSymbol_ends {s t : State} (h : readSymbol s = .next t) :
    (CallFrame s t ∧ s.ipos ≤ t.ipos) ∨ (s.args.readFail = some s.reads ∧ t = s.countRead.raiseIOError .inp) := by
  have hclassified : ∀ u : State, CallFrame s u → s.ipos ≤ u.ipos → ClassifierFrame u t →
      CallFrame s t ∧ s.ipos ≤ t.ipos := fun u hu hi hf =>
    ⟨hu.trans (.of_classifier hf), by rw [show t = _ from hf]; exact hi⟩
  obtain ⟨b, _, e⟩ | ⟨_, e⟩ | ⟨hf, e⟩ | ⟨_, e⟩ := inRead_cases s <;> simp only [readSymbol, e] at h
  · split at h
    · exact .inl (hclassified s.takeByte rfl (Nat.le_succ _) (execSymNul_frame h))
    · exact .inl (hclassified s.takeByte rfl (Nat.le_succ _) (execSymLit_frame h))
  · exact .inl (hclassified s.countRead rfl (Nat.le_refl _) (execSymEof_frame h))
  · cases h
    exact .inr ⟨hf, rfl⟩
  · cases h

/-- A call ends in the session, or at a read that has just failed. -/
theorem callLoop_ends {n : Nat} {s t : State} (h : callLoop n s = .next t) :
    (CallFrame s t ∧ s.ipos ≤ t.ipos) ∨
    ∃ u, CallFrame s u ∧ u.args.readFail = some u.reads ∧ t = u.countRead.raiseIOError .inp := by
  induction n generalizing s with
  | zero =>
    cases h
    exact .inl ⟨rfl, Nat.le_refl _⟩
  | succ n ih =>
    rw [callLoop_succ] at h
    cases hr : readSymbol s with
    | fault f => simp [hr] at h
    | refused r => simp [hr] at h
    | next u =>
      simp only [hr] at h
      obtain ⟨hsu, hi⟩ | ⟨hf, rfl⟩ := readSymbol_ends hr
      · split at h
        · obtain ⟨hut, hi'⟩ | ⟨v, huv, hf, rfl⟩ := ih h
          · exact .inl ⟨hsu.trans hut, Nat.le_trans hi hi'⟩
          · exact .inr ⟨v, hsu.trans huv, hf, rfl⟩
        · cases h
          exact .inl ⟨hsu, hi⟩
      · simp only [State.raiseIOError_call, reduceCtorEq, if_false] at h
        cases h
        exact .inr ⟨s, rfl, hf, rfl⟩

/-- A symbol read in the session, or a whole call: in `Streaming` it ends there, or in `Abort` at a read that has just
failed. -/
def ReadTo (s t : State) : Prop :=
  s.seq = .streaming ∧
    ((CallFrame s t ∧ s.ipos ≤ t.ipos) ∨
     ∃ u, CallFrame s u ∧ u.args.readFail = some u.reads ∧ t = u.countRead.raiseIOError .inp)

theorem execGet3_readTo {s t : State} (h : execGet3 s = .next t) : ReadTo s t := by
  obtain ⟨hq, _, hl⟩ := execGet3_next h
  refine ⟨hq, ?_⟩
  obtain ⟨hf, hi⟩ | ⟨u, hf, hfail, rfl⟩ := callLoop_ends hl
  · exact .inl ⟨(openCall_frame s).trans hf, by simpa using hi⟩
  · exact .inr ⟨u, (openCall_frame s).trans hf, hfail, rfl⟩

theorem enterCall_frame (s : State) : CallFrame s s.enterCall := by
  unfold State.enterCall
  split
  · exact openCall_frame s
  · rfl

theorem readSymbol_readTo {s t : State} (hq : s.seq = .streaming) (h : readSymbol s.enterCall = .next t) : ReadTo s t := by
  refine ⟨hq, ?_⟩
  obtain ⟨hf, hi⟩ | ⟨hfail, rfl⟩ := readSymbol_ends h
  · exact .inl ⟨(enterCall_frame s).trans hf, by simpa using hi⟩
  · exact .inr ⟨_, enterCall_frame s, hfail, rfl⟩

theorem ReadTo.failed {s t : State} (h : ReadTo s t) (ht : t.seq = .abort) : AccessFailed t := by
  obtain ⟨hq, ⟨hf, _⟩ | ⟨u, _, hfail, rfl⟩⟩ := h
  · rw [show t = _ from hf, hq] at ht
    cases ht
  · exact .inl ⟨rfl, u.reads, hfail, rfl⟩

/-! ## The ranges of the registers -/

theorem litN_le_two {n : BitVec 2} (h : n ≠ 3#2) : n.toNat ≤ 2 := by
  revert h
  revert n
  decide

/-- In `Abort` no register is to be relied on (U18). -/
theorem registersInRange_of_abort {s : State} (h : s.seq = .abort) : RegistersInRange s := fun hs => absurd h hs

end Sys2Proof.Machine

namespace Sys2Proof

open Machine

/-- Output changes no register but `COL`, which it keeps in its range. -/
theorem RegistersInRange.of_wroteMore {s t : State} (h : RegistersInRange s) (hw : WroteMore s t)
    (hc : s.col.toNat ≤ 72 → s.col.toNat % 2 = 0 → t.col.toNat ≤ 72 ∧ t.col.toNat % 2 = 0) : RegistersInRange t := by
  intro hq
  rw [hw.1] at hq
  obtain ⟨hn, hcol, heven, hf, hrun⟩ := h hq
  obtain ⟨hcol', heven'⟩ := hc hcol heven
  refine ⟨?_, hcol', heven', ?_⟩ <;> rw [hw.1]
  · exact hn
  · exact ⟨hf, hrun⟩

theorem RegistersInRange.of_outputTo {s t full : State} (h : RegistersInRange full) (hw : OutputTo s t full) :
    RegistersInRange t := by
  obtain rfl | ⟨u, _, rfl⟩ := hw.writesTo
  · exact h
  · exact registersInRange_of_abort rfl

theorem RegistersInRange.after_emit {s : State} {g : List Byte} (h : RegistersInRange s) (hg : groupLengthOk g) :
    RegistersInRange (afterEmit s g) :=
  h.of_wroteMore (afterEmit_wroteMore s g) (afterEmit_col hg)

theorem RegistersInRange.unit_output {s full : State} (h : RegistersInRange s) (hf : UnitOutput s full) :
    RegistersInRange full := by
  obtain ⟨g, hg, rfl⟩ | ⟨bytes, rfl⟩ := hf
  · exact h.after_emit hg
  · exact h

theorem RegistersInRange.appended {s : State} (h : RegistersInRange s) (hr : s.call = .running)
    (b : Byte) : RegistersInRange (s.appendLit b).closeTriple := by
  intro hq
  rw [State.closeTriple_seq] at hq
  obtain ⟨hn, hc, he, hf, hrun⟩ := h hq
  obtain ⟨_, e⟩ | ⟨hroom, e⟩ := (s.appendLit b).closeTriple_cases <;> rw [e]
  · exact ⟨hn, hc, he, hf, nofun⟩
  · exact ⟨hn, hc, he, hf, fun _ => ⟨litN_le_two hroom, (hrun hr).2⟩⟩

theorem RegistersInRange.symNul {s t : State} (h : RegistersInRange s) (he : execSymNul s = .next t) :
    RegistersInRange t := by
  obtain e | e := execSymNul_cases s <;> rw [e] at he
  · obtain ⟨hr, _, _, rfl⟩ := execSymNulAppend_next he
    exact h.appended hr _
  · obtain ⟨hr, _, ⟨hlt, rfl⟩ | ⟨_, rfl⟩⟩ := execSymNulCount_next he
    all_goals
      intro hq
      obtain ⟨_, hc, he, hf, hrun⟩ := h hq
      obtain ⟨hl, hn⟩ := hrun hr
      have hsucc : s.countNull.nulls.toNat = s.nulls.toNat + 1 := by
        rw [State.countNull_nulls, BitVec.toNat_add, BitVec.toNat_ofNat]
        omega
    · exact ⟨by omega, hc, he, hf, fun _ => ⟨hl, by omega⟩⟩
    · exact ⟨by simp only [State.returnToken_nulls, State.holdByte_nulls]; omega, hc, he, hf, nofun⟩

theorem RegistersInRange.symLit {s t : State} {b : Byte} (h : RegistersInRange s) (he : execSymLit b s = .next t) :
    RegistersInRange t := by
  obtain e | e | e := execSymLit_cases b s <;> rw [e] at he
  · obtain ⟨_, _, rfl⟩ := execSymLitEndrun_next he
    intro hq
    obtain ⟨hn, hc, he, hf, _⟩ := h hq
    exact ⟨hn, hc, he, hf, nofun⟩
  · obtain ⟨_, _, rfl⟩ := execSymLitBacktrack_next he
    intro hq
    obtain ⟨_, hc, he, hf, _⟩ := h hq
    exact ⟨by simp, hc, he, hf, fun _ => ⟨by simp, by simp⟩⟩
  · obtain ⟨hr, _, _, rfl⟩ := execSymLitAppend_next he
    exact h.appended hr b

theorem RegistersInRange.symEof {s t : State} (h : RegistersInRange s) (he : execSymEof s = .next t) :
    RegistersInRange t := by
  obtain e | e | e | e := execSymEof_cases s <;> rw [e] at he
  · obtain ⟨_, _, rfl⟩ := execSymEofRun_next he
    intro hq
    obtain ⟨hn, hc, he, hf, _⟩ := h hq
    exact ⟨hn, hc, he, hf, nofun⟩
  · obtain ⟨_, _, rfl⟩ := execSymEofOne_next he
    intro hq
    obtain ⟨_, hc, he, hf, _⟩ := h hq
    exact ⟨by simp, hc, he, hf, nofun⟩
  · obtain ⟨_, _, _, _, rfl⟩ := execSymEofTail_next he
    intro hq
    obtain ⟨hn, hc, he, hf, _⟩ := h hq
    exact ⟨hn, hc, he, hf, nofun⟩
  · obtain ⟨_, _, _, rfl⟩ := execSymEofEnd_next he
    intro hq
    obtain ⟨hn, hc, he, hf, _⟩ := h hq
    exact ⟨hn, hc, he, hf, nofun⟩

theorem RegistersInRange.read_symbol {s t : State} (h : RegistersInRange s) (hr : readSymbol s = .next t) :
    RegistersInRange t := by
  obtain ⟨b, _, ⟨_, he⟩ | ⟨_, he⟩⟩ | ⟨_, he⟩ | rfl := readSymbol_next hr
  · exact RegistersInRange.symNul (s := s.takeByte) h he
  · exact RegistersInRange.symLit (s := s.takeByte) h he
  · exact RegistersInRange.symEof (s := s.countRead) h he
  · exact registersInRange_of_abort rfl

theorem RegistersInRange.open_call {s : State} (h : RegistersInRange s) : RegistersInRange s.openCall := by
  intro hq
  rw [State.openCall_seq] at hq
  obtain ⟨_, hc, he, hf, _⟩ := h hq
  have hin := openCall_inCall s
  have hn := hin.nulls_le
  rw [State.openCall_col, State.openCall_fill]
  exact ⟨by omega, hc, he, hf, fun _ => ⟨hin.litN_le, hn⟩⟩

theorem RegistersInRange.enter_call {s : State} (h : RegistersInRange s) : RegistersInRange s.enterCall := by
  unfold State.enterCall
  split
  · exact h.open_call
  · exact h

/-- Settles O49, by the case distinction of a step: a symbol counts only below its limits, EMIT keeps `COL`, and handling a
token sets `FILL`. -/
theorem everyStepKeepsTheRegistersInRange : Obligations.EveryStepKeepsTheRegistersInRange := by
  intro s t h hstep
  cases step_stepTo hstep with
  | reset => exact fun _ => ⟨by simp, by simp, by simp, by simp, nofun⟩
  | port => exact h
  | output _ _ _ hf hw => exact (RegistersInRange.unit_output (s := { s with unitWires := none }) h hf).of_outputTo hw
  | call _ _ hget =>
    obtain ⟨_, _, hl⟩ := execGet3_next hget
    have hopen := RegistersInRange.open_call (s := { s with unitWires := none }) h
    exact callLoop_keeps (fun _ _ => RegistersInRange.read_symbol) hopen hl
  | start _ hq hw =>
    refine RegistersInRange.of_outputTo (fun _ => ?_) hw
    exact h (by rw [hq]; exact nofun)
  | group _ hq tok hc l v g hg hv hw =>
    have htaken : RegistersInRange (State.takeToken { s with lit := l } v) := by
      intro hq
      obtain ⟨hn, hcol, he, _, _⟩ := h hq
      refine ⟨hn, hcol, he, ?_, nofun⟩
      obtain rfl | ⟨hv, _⟩ := hv
      · exact Nat.zero_le 2
      · exact hv
    exact (htaken.after_emit hg).of_outputTo hw
  | finish _ hq _ =>
    intro _
    obtain ⟨hn, hc, he, hf, _⟩ := h (by rw [hq]; exact nofun)
    exact ⟨hn, hc, he, hf, nofun⟩
  | finalize _ hq hw =>
    have hm : RegistersInRange (afterMarkers s.fill.toNat s) :=
      h.of_wroteMore (afterMarkers_wroteMore _ s) (afterMarkers_col _)
    refine RegistersInRange.of_outputTo (fun _ => ?_) hw
    exact hm (by rw [(afterMarkers_wroteMore _ s).1, hq]; exact nofun)
  | token _ hq tok _ =>
    intro _
    obtain ⟨hn, hc, he, hf, _⟩ := h (by rw [hq]; exact nofun)
    exact ⟨hn, hc, he, hf, nofun⟩
  | symbol _ _ _ hr => exact h.enter_call.read_symbol hr
  | nothing => exact h

end Sys2Proof
end

section
/-! The invariant of a session (spec/10_state.md R17, R21; spec/45_session_sequencer.md R144): kept by a symbol of a call, by
output, and so by every step. -/

namespace Sys2Proof

open Machine

/-- In `Abort` the invariant says only that `ERR` shows an error. -/
theorem sessionInv_of_abort {s : State} (hq : s.seq = .abort) (he : s.err ≠ .none) : SessionInv s :=
  ⟨⟨fun _ => he, fun _ => hq⟩, registersInRange_of_abort hq, fun h => absurd hq h⟩

theorem sessionInv_raiseIOError (s : State) (w : Stream) : SessionInv (s.raiseIOError w) :=
  sessionInv_of_abort rfl (by cases w <;> exact nofun)

theorem SessionInv.err_none {s : State} (h : SessionInv s) (hq : s.seq ≠ .abort) : s.err = .none := by
  by_contra he
  exact hq (h.1.2 he)

/-- The invariant in `Streaming`, with nothing to say of the other session states. -/
theorem sessionInv_of_streaming {s : State} (hq : s.seq = .streaming) (he : s.err = .none) (hr : RegistersInRange s)
    (hi : s.ipos ≤ s.args.input.length) (hx : s.nulls ≠ 0#7 → s.litN = 0#2)
    (hrun : s.call = .running → s.remValid = false)
    (htok : ∀ t, s.call = .returned t ∨ s.call = .accepted t → tokenLegal s t)
    (hfill : s.fill ≠ 0#2 → s.ipos = s.args.input.length ∧ s.remValid = false ∧
      (s.call = .idle ∨ (s.call = .running ∧ s.litN = 0#2 ∧ s.nulls = 0#7) ∨ s.call = .returned .endOfInput ∨
        s.call = .accepted .endOfInput)) : SessionInv s := by
  refine ⟨⟨fun h => ?_, fun h => absurd he h⟩, hr, fun _ => ⟨hi, hx, fun h => ⟨hq, hrun h⟩, fun t ht => ⟨hq, htok t ht⟩,
    hfill, fun h => ?_, fun h => ?_⟩⟩
  · rw [hq] at h
    cases h
  · rw [hq] at h
    cases h
  · rw [hq] at h
    obtain h | h := h <;> cases h

/-- The invariant where a session begins: with the registers as reset leaves them (R25). -/
theorem sessionInv_of_begin {s : State} (hq : s.seq = .start) (he : s.err = .none) (hn : s.nulls = 0#7)
    (hv : s.remValid = false) (hcol : s.col = 0#7) (hf : s.fill = 0#2) (hi : s.ipos = 0) (hc : s.call = .idle) :
    SessionInv s := by
  refine ⟨⟨fun h => ?_, fun h => absurd he h⟩, fun _ => ⟨by simp [hn], by simp [hcol], by simp [hcol], by simp [hf], ?_⟩,
    fun _ => ⟨by simp [hi], fun h => absurd hn h, ?_, fun t ht => ?_, fun h => absurd hf h, fun _ => ⟨hv, hf⟩, fun h => ?_⟩⟩
  · rw [hq] at h
    cases h
  · rw [hc]
    exact nofun
  · rw [hc]
    exact nofun
  · rw [hc] at ht
    obtain ht | ht := ht <;> cases ht
  · rw [hq] at h
    obtain h | h := h <;> cases h

/-- Inside a call the invariant gives what a symbol needs. -/
theorem SessionInv.in_call {s : State} (h : SessionInv s) (hq : s.seq ≠ .abort) (hr : s.call = .running) : InCall s := by
  obtain ⟨_, hx, hrun, _⟩ := h.2.2 hq
  obtain ⟨_, _, _, _, hlim⟩ := h.2.1 hq
  obtain ⟨hl, hn⟩ := hlim hr
  exact ⟨hr, (hrun hr).2, hl, hn, hx⟩

/-- Once padding is due the input is at its end, so a byte that is read finds none due. -/
theorem SessionInv.fill_zero {s : State} (h : SessionInv s) (hq : s.seq ≠ .abort) (hlt : s.ipos < s.args.input.length) :
    s.fill = 0#2 := by
  obtain ⟨_, _, _, _, hfill, _⟩ := h.2.2 hq
  by_contra hf
  exact absurd (hfill hf).1 (by omega)

/-! ## A symbol -/

theorem execSymNul_running {s t : State} (h : execSymNul s = .next t) : s.call = .running := by
  obtain e | e := execSymNul_cases s <;> rw [e] at h
  · exact (execSymNulAppend_next h).1
  · exact (execSymNulCount_next h).1

theorem execSymLit_running {s t : State} {b : Byte} (h : execSymLit b s = .next t) : s.call = .running := by
  obtain e | e | e := execSymLit_cases b s <;> rw [e] at h
  · exact (execSymLitEndrun_next h).1
  · exact (execSymLitBacktrack_next h).1
  · exact (execSymLitAppend_next h).1

theorem execSymEof_running {s t : State} (h : execSymEof s = .next t) : s.call = .running := by
  obtain e | e | e | e := execSymEof_cases s <;> rw [e] at h
  · exact (execSymEofRun_next h).1
  · exact (execSymEofOne_next h).1
  · exact (execSymEofTail_next h).1
  · exact (execSymEofEnd_next h).1

theorem SessionInv.byte {s t : State} {b : Byte} (h : SessionInv s) (hq : s.seq ≠ .abort) (hr : s.call = .running)
    (hlt : s.ipos < s.args.input.length) (hrange : RegistersInRange t)
    (he : exec (if b = 0x00#8 then .symNul else .symLit b) s.takeByte = .next t) : SessionInv t := by
  obtain ⟨_, _, hrun, _⟩ := h.2.2 hq
  have hf := exec_byte_frame he
  have hseq : t.seq = .streaming := by rw [show t = _ from hf]; exact (hrun hr).1
  have herr : t.err = .none := by rw [show t = _ from hf]; exact h.err_none hq
  have hipos : t.ipos ≤ t.args.input.length := by rw [show t = _ from hf]; exact hlt
  have hfill : t.fill = 0#2 := by rw [show t = _ from hf]; exact h.fill_zero hq hlt
  obtain ⟨t', ht', ha⟩ := (h.in_call hq hr).takeByte.byte b
  rw [he] at ht'
  cases ht'
  cases ha with
  | goesOn hin _ =>
    exact sessionInv_of_streaming hseq herr hrange hipos hin.exclusive (fun _ => hin.noRemainder)
      (fun tok ht => by rw [hin.running] at ht; obtain ht | ht := ht <;> cases ht) (fun hne => absurd hfill hne)
  | triple hc hl hn hv _ =>
    refine sessionInv_of_streaming hseq herr hrange hipos (fun hne => absurd hn hne) (fun _ => hv) (fun tok ht => ?_)
      (fun hne => absurd hfill hne)
    rw [hc] at ht
    obtain ht | ht := ht <;> cases ht
    exact ⟨hl.symm, by decide, hn, hv, fun h3 => absurd rfl h3⟩
  | run c hc h2 h78 hl _ _ _ =>
    refine sessionInv_of_streaming hseq herr hrange hipos (fun _ => hl) (fun hrun => ?_) (fun tok ht => ?_)
      (fun hne => absurd hfill hne)
    · rw [hc] at hrun
      cases hrun
    · rw [hc] at ht
      obtain ht | ht := ht <;> cases ht
      exact ⟨h2, h78, hl⟩

theorem SessionInv.eof {s t : State} (h : SessionInv s) (hq : s.seq ≠ .abort) (hr : s.call = .running)
    (hge : s.args.input.length ≤ s.ipos) (hrange : RegistersInRange t) (he : execSymEof s.countRead = .next t) :
    SessionInv t := by
  obtain ⟨hi, _, hrun, _, hfill, _⟩ := h.2.2 hq
  have hf := execSymEof_frame he
  have hseq : t.seq = .streaming := by rw [show t = _ from hf]; exact (hrun hr).1
  have herr : t.err = .none := by rw [show t = _ from hf]; exact h.err_none hq
  have hipos : t.ipos = t.args.input.length := by rw [show t = _ from hf]; exact Nat.le_antisymm hi hge
  have hfill' : t.fill ≠ 0#2 → s.pending = [] ∧ s.nulls = 0#7 := by
    rw [show t = _ from hf]
    intro hne
    obtain ⟨_, _, hc⟩ := hfill hne
    rw [hr] at hc
    obtain hc | ⟨_, hl, hn⟩ | hc | hc := hc
    · cases hc
    · exact ⟨State.pending_of_zero hl, hn⟩
    · cases hc
    · cases hc
  -- with nothing pending, end of input returns `End`, so that padding that is due stays due
  have hend : t.fill ≠ 0#2 → scan [] s.countRead.pending s.countRead.nulls.toNat = (.endOfInput, []) := by
    intro hne
    obtain ⟨hp, hn⟩ := hfill' hne
    rw [show s.countRead.pending = [] from hp, show s.countRead.nulls = 0#7 from hn]
    rfl
  obtain ⟨t', ht', ha⟩ := (h.in_call hq hr).countRead.eof
  rw [he] at ht'
  cases ht'
  have hv := ha.noRemainder
  cases ha with
  | run c hc h2 h78 hl _ hs =>
    refine sessionInv_of_streaming hseq herr hrange (Nat.le_of_eq hipos) (fun _ => hl) (fun _ => hv) (fun tok ht => ?_)
      (fun hne => ?_)
    · rw [hc] at ht
      obtain ht | ht := ht <;> cases ht
      exact ⟨h2, h78, hl⟩
    · rw [hend hne] at hs
      cases hs
  | tail hc h0 h3 hn _ hs =>
    refine sessionInv_of_streaming hseq herr hrange (Nat.le_of_eq hipos) (fun hne => absurd hn hne) (fun _ => hv)
      (fun tok ht => ?_) (fun hne => ?_)
    · rw [hc] at ht
      obtain ht | ht := ht <;> cases ht
      exact ⟨rfl, h0, hn, hv, fun _ => hipos⟩
    · rw [hend hne] at hs
      cases hs
  | none hc hl hn _ _ =>
    refine sessionInv_of_streaming hseq herr hrange (Nat.le_of_eq hipos) (fun _ => hl) (fun _ => hv) (fun tok ht => ?_)
      (fun _ => ⟨hipos, hv, .inr (.inr (.inl hc))⟩)
    rw [hc] at ht
    obtain ht | ht := ht <;> cases ht
    exact ⟨hl, hn, hv, hipos⟩

theorem SessionInv.read_symbol {s t : State} (h : SessionInv s) (hr : readSymbol s = .next t) : SessionInv t := by
  have hrange := h.2.1.read_symbol hr
  by_cases hq : s.seq = .abort
  · have he := h.1.1 hq
    obtain ⟨hf, _⟩ | ⟨_, rfl⟩ := readSymbol_ends hr
    · exact sessionInv_of_abort (by rw [show t = _ from hf]; exact hq) (by rw [show t = _ from hf]; exact he)
    · exact sessionInv_raiseIOError _ _
  · obtain ⟨b, hb, hx⟩ | ⟨hb, he⟩ | rfl := readSymbol_next hr
    · obtain ⟨hlt, _⟩ := List.getElem?_eq_some_iff.1 hb
      obtain ⟨h0, he⟩ | ⟨h0, he⟩ := hx
      · exact h.byte (b := b) hq (execSymNul_running (s := s.takeByte) he) hlt hrange (by rw [if_pos h0]; exact he)
      · exact h.byte (b := b) hq (execSymLit_running (s := s.takeByte) he) hlt hrange (by rw [if_neg h0]; exact he)
    · exact h.eof hq (execSymEof_running (s := s.countRead) he) (List.getElem?_eq_none_iff.1 hb) hrange he
    · exact sessionInv_raiseIOError _ _

theorem SessionInv.open_call {s : State} (h : SessionInv s) (hq : s.seq = .streaming) : SessionInv s.openCall := by
  have hna : s.seq ≠ .abort := by rw [hq]; exact nofun
  obtain ⟨hi, _, _, _, hfill, _⟩ := h.2.2 hna
  have hin := openCall_inCall s
  refine sessionInv_of_streaming (by simpa using hq) (by simpa using h.err_none hna) h.2.1.open_call (by simpa using hi)
    hin.exclusive (fun _ => hin.noRemainder) (fun tok ht => ?_) (fun hne => ?_)
  · rw [hin.running] at ht
    obtain ht | ht := ht <;> cases ht
  · obtain ⟨hend, hv, _⟩ := hfill (by simpa using hne)
    rw [State.openCall_empty hv]
    exact ⟨hend, hv, .inr (.inl ⟨rfl, rfl, rfl⟩)⟩

theorem SessionInv.enter_call {s : State} (h : SessionInv s) (hq : s.seq = .streaming) : SessionInv s.enterCall := by
  unfold State.enterCall
  split
  · exact h.open_call hq
  · exact h

/-! ## Output -/

/-- The invariant says nothing of the output, and of `COL` only its range. -/
theorem SessionInv.of_wroteMore {s t : State} (h : SessionInv s) (hw : WroteMore s t) (hr : RegistersInRange t) :
    SessionInv t := by
  obtain ⟨herr, _, hrest⟩ := h
  refine ⟨?_, hr, ?_⟩
  · rw [hw.1]
    exact herr
  · rw [hw.1]
    exact hrest

theorem SessionInv.of_outputTo {s t full : State} (h : SessionInv full) (hw : OutputTo s t full) : SessionInv t := by
  obtain rfl | ⟨u, _, rfl⟩ := hw.writesTo
  · exact h
  · exact sessionInv_raiseIOError _ _

theorem SessionInv.after_emit {s : State} {g : List Byte} (h : SessionInv s) (hg : groupLengthOk g) :
    SessionInv (afterEmit s g) :=
  h.of_wroteMore (afterEmit_wroteMore s g) (h.2.1.after_emit hg)

theorem SessionInv.unit_output {s full : State} (h : SessionInv s) (hf : UnitOutput s full) : SessionInv full := by
  obtain ⟨g, hg, rfl⟩ | ⟨bytes, rfl⟩ := hf
  · exact h.after_emit hg
  · exact h.of_wroteMore (WroteMore.putBytes s bytes) h.2.1

/-! ## The sequencer -/

/-- Before the header line nothing of a session has happened (R136). -/
theorem SessionInv.header_line {s : State} {bytes : List Byte} (h : SessionInv s) (hq : s.seq = .start) :
    SessionInv ((s.putBytes bytes).setSeq .streaming) := by
  have hna : s.seq ≠ .abort := by rw [hq]; exact nofun
  obtain ⟨hi, hx, hrun, htok, _, hstart, _⟩ := h.2.2 hna
  obtain ⟨_, hfill⟩ := hstart hq
  refine sessionInv_of_streaming rfl (h.err_none hna) (fun _ => h.2.1 hna) hi hx (fun hr => ?_) (fun tok ht => ?_)
    (fun hne => absurd hfill hne)
  · exact (hrun hr).2
  · exact (htok tok ht).2

/-- A token handled leaves `FILL` at 0, or was a short literal, which comes only at end of input (R139, R145). -/
theorem SessionInv.handled {s : State} {tok : Token} {v : BitVec 2} (h : SessionInv s) (l : Lit)
    (hc : s.call = .accepted tok) (hq : s.seq = .streaming)
    (hv : v = 0#2 ∨ (v.toNat ≤ 2 ∧ ∃ n, tok = .literal n ∧ n ≠ 3#2)) :
    SessionInv (State.takeToken { s with lit := l } v) := by
  have hna : s.seq ≠ .abort := by rw [hq]; exact nofun
  obtain ⟨hi, hx, _, htok, _⟩ := h.2.2 hna
  obtain ⟨_, hlegal⟩ := htok tok (.inr hc)
  obtain ⟨hn, hcol, heven, _, _⟩ := h.2.1 hna
  have hv2 : v.toNat ≤ 2 := by
    obtain rfl | ⟨hv, _⟩ := hv
    · exact Nat.zero_le 2
    · exact hv
  refine sessionInv_of_streaming hq (h.err_none hna) (fun _ => ⟨hn, hcol, heven, hv2, nofun⟩) hi hx nofun
    (fun t ht => by obtain ht | ht := ht <;> cases ht) (fun hne => ?_)
  obtain rfl | ⟨_, n, rfl, h3⟩ := hv
  · exact absurd rfl hne
  · obtain ⟨_, _, _, hrem, hend⟩ := hlegal
    exact ⟨hend h3, hrem, .inl rfl⟩

/-- `End` comes with nothing pending, and so does `Finalizing` (R141). -/
theorem SessionInv.finish {s : State} (h : SessionInv s) (hq : s.seq = .streaming)
    (hc : s.call = .accepted .endOfInput) : SessionInv ((s.takeToken s.fill).setSeq .finalizing) := by
  have hna : s.seq ≠ .abort := by rw [hq]; exact nofun
  obtain ⟨hi, hx, _, htok, _⟩ := h.2.2 hna
  obtain ⟨_, hl, hn, hrem, hend⟩ := htok .endOfInput (.inr hc)
  obtain ⟨hnulls, hcol, heven, hfill, _⟩ := h.2.1 hna
  refine ⟨⟨nofun, fun he => absurd (h.err_none hna) he⟩, fun _ => ⟨hnulls, hcol, heven, hfill, nofun⟩,
    fun _ => ⟨hi, hx, nofun, fun t ht => ?_, fun _ => ⟨hend, hrem, .inl rfl⟩, nofun, fun _ => ⟨rfl, hl, hn, hrem, hend⟩⟩⟩
  obtain ht | ht := ht <;> cases ht

/-- `Finalizing` and `Done` differ in the output alone (R142 to R144). -/
theorem SessionInv.finalize {s : State} {bytes : List Byte} (h : SessionInv s) (hq : s.seq = .finalizing) :
    SessionInv ((s.putBytes bytes).setSeq .done) := by
  have hna : s.seq ≠ .abort := by rw [hq]; exact nofun
  obtain ⟨hi, hx, hrun, htok, hfill, _, hend⟩ := h.2.2 hna
  obtain ⟨hc, hrest⟩ := hend (.inl hq)
  refine ⟨⟨nofun, fun he => absurd (h.err_none hna) he⟩, fun _ => h.2.1 hna,
    fun _ => ⟨hi, hx, fun hr => ?_, fun t ht => ?_, hfill, nofun, fun _ => ⟨hc, hrest⟩⟩⟩
  · have hr : s.call = .running := hr
    rw [hc] at hr
    cases hr
  · have ht : s.call = .returned t ∨ s.call = .accepted t := ht
    rw [hc] at ht
    obtain ht | ht := ht <;> cases ht

/-- A token taken off the bus is still the same token (R137). -/
theorem SessionInv.accept {s : State} {tok : Token} (h : SessionInv s) (hq : s.seq = .streaming)
    (hc : s.call = .returned tok) : SessionInv (s.acceptToken tok) := by
  have hna : s.seq ≠ .abort := by rw [hq]; exact nofun
  obtain ⟨hi, hx, _, htok, hfill, _⟩ := h.2.2 hna
  obtain ⟨_, hlegal⟩ := htok tok (.inl hc)
  obtain ⟨hn, hcol, heven, hf, _⟩ := h.2.1 hna
  refine sessionInv_of_streaming hq (h.err_none hna) (fun _ => ⟨hn, hcol, heven, hf, nofun⟩) hi hx nofun
    (fun t ht => ?_) (fun hne => ?_)
  · obtain ht | ht := ht <;> cases ht
    exact hlegal
  · obtain ⟨hend, hrem, hcase⟩ := hfill hne
    rw [hc] at hcase
    obtain hcase | ⟨hcase, _⟩ | hcase | hcase := hcase <;> cases hcase
    exact ⟨hend, hrem, .inr (.inr (.inr rfl))⟩

/-- Settles O50, by the case distinction of a step: each of the session's actions starts from what the invariant says of its
`SEQ` and token, and what is presented touches none of its registers. -/
theorem everyStepKeepsTheSessionInvariant : Obligations.EveryStepKeepsTheSessionInvariant := by
  intro s t h hstep
  cases step_stepTo hstep with
  | reset => exact sessionInv_of_begin rfl rfl rfl rfl rfl rfl rfl rfl
  | port => exact h
  | output _ _ _ hf hw => exact (SessionInv.unit_output (s := { s with unitWires := none }) h hf).of_outputTo hw
  | call _ _ hget =>
    obtain ⟨hq, _, hl⟩ := execGet3_next hget
    have hopen := SessionInv.open_call (s := { s with unitWires := none }) h hq
    exact callLoop_keeps (fun _ _ => SessionInv.read_symbol) hopen hl
  | start _ hq hw => exact (h.header_line hq).of_outputTo hw
  | group _ hq tok hc l v g hg hv hw => exact ((h.handled l hc hq hv).after_emit hg).of_outputTo hw
  | finish _ hq hc => exact h.finish hq hc
  | finalize _ hq hw =>
    have hm := afterMarkers_wroteMore s.fill.toNat s
    have hmarkers : SessionInv (afterMarkers s.fill.toNat s) :=
      h.of_wroteMore hm (h.2.1.of_wroteMore hm (afterMarkers_col _))
    have hmq : (afterMarkers s.fill.toNat s).seq = .finalizing := by rw [hm.1]; exact hq
    exact (hmarkers.finalize hmq).of_outputTo hw
  | token _ hq tok hc => exact h.accept hq hc
  | symbol _ hq _ hr => exact (h.enter_call hq).read_symbol hr
  | nothing => exact h

/-- Settles O51: after reset no register holds anything, and the call is not open. -/
theorem invariantsHoldAtReset : Obligations.InvariantsHoldAtReset := by
  have h : SessionInv State.reset := sessionInv_of_begin rfl rfl rfl rfl rfl rfl rfl rfl
  exact ⟨h.2.1, h⟩

end Sys2Proof
end

section
/-! What every step leaves to the session and to the outside: `SEQ`, the streams and the ports (spec/20_memory.md R33, R44, R46;
spec/45_session_sequencer.md R144, R150; spec/60_exceptions.md R156 to R162), and the two events, reset and an abort. -/

namespace Sys2Proof.Machine

/-! ## `SEQ` -/

theorem OutputTo.seq_cases {s t full : State} (h : OutputTo s t full) :
    t.seq = full.seq ∨ (t.seq = .abort ∧ AccessFailed t) := by
  obtain rfl | ⟨u, _, rfl⟩ := h.writesTo
  · exact .inl rfl
  · exact .inr ⟨rfl, h.failed rfl⟩

theorem ReadTo.seq_cases {s t : State} (h : ReadTo s t) : t.seq = s.seq ∨ (t.seq = .abort ∧ AccessFailed t) := by
  obtain ⟨_, ⟨hf, _⟩ | ⟨u, _, _, rfl⟩⟩ := id h
  · exact .inl (by rw [show t = _ from hf])
  · exact .inr ⟨rfl, h.failed rfl⟩

theorem UnitOutput.wroteMore {s full : State} (h : UnitOutput s full) : WroteMore s full := by
  obtain ⟨g, _, rfl⟩ | ⟨bytes, rfl⟩ := h
  · exact afterEmit_wroteMore s g
  · exact WroteMore.putBytes s bytes

theorem State.not_over {s : State} (h : s.over = false) :
    s.seq = .start ∨ s.seq = .streaming ∨ s.seq = .finalizing := by
  obtain ⟨hd, ha⟩ := s.over_false_iff.1 h
  cases hq : s.seq with
  | start => exact .inl rfl
  | streaming => exact .inr (.inl rfl)
  | finalizing => exact .inr (.inr rfl)
  | done => exact absurd hq hd
  | abort => exact absurd hq ha

/-- Settles O52: the step's case says which transition it was; output and reads end where they were, or in `Abort` at an
access that has just failed. -/
theorem sequencerStateFollowsTheTransitionTable : Obligations.SequencerStateFollowsTheTransitionTable := by
  intro s t hstep
  refine ⟨fun hr => ?_, fun hr => ?_⟩
  · rw [step_reset hr] at hstep
    cases hstep
    rfl
  · cases step_stepTo hstep with
    | reset hr' => rw [hr] at hr'; cases hr'
    | port => exact .inl rfl
    | output _ hp ho hfull hw =>
      refine hw.seq_cases.imp (fun ht => ?_) (fun ha => ?_)
      · rw [ht, hfull.wroteMore.1]
      · exact .inr (.inr (.inr ⟨hp, s.not_over ho, ha⟩))
    | call _ hp hget =>
      have hread := execGet3_readTo hget
      exact hread.seq_cases.imp id fun ha => .inr (.inr (.inr ⟨hp, .inr (.inl hread.1), ha⟩))
    | start hu hq hw =>
      obtain ht | ha := hw.seq_cases
      · exact .inr (.inl ⟨hu, hq, ht⟩)
      · exact .inr (.inr (.inr (.inr ⟨hu.2.1, .inl hq, ha⟩)))
    | group hu hq tok _ l v g _ _ hw =>
      refine hw.seq_cases.imp (fun ht => ?_) (fun ha => .inr (.inr (.inr ⟨hu.2.1, .inr (.inl hq), ha⟩)))
      rw [ht, (afterEmit_wroteMore _ g).1]
      rfl
    | finish hu hq hc => exact .inr (.inr (.inl ⟨hu, hq, hc, rfl⟩))
    | finalize hu hq hw =>
      obtain ht | ha := hw.seq_cases
      · exact .inr (.inr (.inr (.inl ⟨hu, hq, ht⟩)))
      · exact .inr (.inr (.inr (.inr ⟨hu.2.1, .inr (.inr hq), ha⟩)))
    | token => exact .inl rfl
    | symbol hu hq _ hread =>
      exact (readSymbol_readTo hq hread).seq_cases.imp id fun ha =>
        .inr (.inr (.inr ⟨hu.2.1, .inr (.inl hq), ha⟩))
    | nothing => exact .inl rfl

/-! ## The streams -/

/-- What an operation of the session keeps of the streams and of the wires between the units. -/
structure StreamsKept (s t : State) : Prop where
  out : s.out <+: t.out
  args : t.args = s.args
  offered : t.offered = s.offered
  unitWires : t.unitWires = s.unitWires
  ipos : t.seq = s.seq ∨ t.err ≠ .inp → s.ipos ≤ t.ipos

theorem StreamsKept.refl (s : State) : StreamsKept s s := ⟨List.prefix_rfl, rfl, rfl, rfl, fun _ => Nat.le_refl _⟩

/-- Output ends with `OUT` grown, at the state its rules give or in `Abort`. -/
theorem OutputTo.streamsKept {s t full : State} (h : OutputTo s t full) (q : Seq)
    (hf : ∃ u, WroteMore s u ∧ full = u.setSeq q) : StreamsKept s t := by
  obtain rfl | ⟨u, hw, rfl⟩ := h.writesTo
  · obtain ⟨u, hw, rfl⟩ := hf
    refine ⟨hw.2, ?_, ?_, ?_, fun _ => ?_⟩ <;> rw [hw.1]
    · rfl
    · rfl
    · rfl
    · exact Nat.le_refl _
  · refine ⟨hw.2.trans (u.raiseIOError_out_prefix .out), ?_, ?_, ?_, fun _ => ?_⟩
    · rw [State.raiseIOError_args, hw.1]
    · rw [State.raiseIOError_offered, hw.1]
    · rw [State.raiseIOError_unitWires, hw.1]
    · rw [State.raiseIOError_out_ipos, hw.1]

theorem OutputTo.streamsKept_of_wroteMore {s t full : State} (h : OutputTo s t full) (hf : WroteMore s full) :
    StreamsKept s t :=
  h.streamsKept full.seq ⟨full, hf, rfl⟩

theorem ReadTo.streamsKept {s t : State} (h : ReadTo s t) : StreamsKept s t := by
  obtain ⟨hq, ⟨hf, hi⟩ | ⟨u, hf, _, rfl⟩⟩ := h
  · refine ⟨?_, ?_, ?_, ?_, fun _ => hi⟩ <;> rw [show t = _ from hf]
  · refine ⟨?_, ?_, ?_, ?_, fun ht => ?_⟩
    · rw [State.raiseIOError_inp_out, show u = _ from hf]
      exact List.prefix_rfl
    · rw [State.raiseIOError_args, show u = _ from hf]
      rfl
    · rw [State.raiseIOError_offered, show u = _ from hf]
      rfl
    · rw [State.raiseIOError_unitWires, show u = _ from hf]
      rfl
    · rw [hq] at ht
      obtain ht | ht := ht
      · cases ht
      · exact absurd rfl ht

/-- Every step but reset keeps the streams; a word on a unit's wires is gone after it. -/
theorem StepTo.streamsKept {s t : State} (h : StepTo s t) (hr : s.resetLine = false) :
    StreamsKept s t ∨ StreamsKept { s with unitWires := none } t := by
  cases h with
  | reset hr' => rw [hr] at hr'; cases hr'
  | port => exact .inl ⟨List.prefix_rfl, rfl, rfl, rfl, fun _ => Nat.le_refl _⟩
  | output _ _ _ hf hw => exact .inr (hw.streamsKept_of_wroteMore hf.wroteMore)
  | call _ _ hget => exact .inr (execGet3_readTo hget).streamsKept
  | start _ _ hw => exact .inl (hw.streamsKept _ ⟨_, WroteMore.putBytes s _, rfl⟩)
  | group _ _ _ _ l v g _ _ hw =>
    obtain ⟨ho, ha, hf, hu, hi⟩ := hw.streamsKept_of_wroteMore (afterEmit_wroteMore _ g)
    exact .inl ⟨ho, ha, hf, hu, hi⟩
  | finish => exact .inl ⟨List.prefix_rfl, rfl, rfl, rfl, fun _ => Nat.le_refl _⟩
  | finalize _ _ hw =>
    exact .inl (hw.streamsKept _ ⟨_, (afterMarkers_wroteMore _ s).trans (WroteMore.putBytes _ _), rfl⟩)
  | token => exact .inl ⟨List.prefix_rfl, rfl, rfl, rfl, fun _ => Nat.le_refl _⟩
  | symbol _ hq _ hread => exact .inl (readSymbol_readTo hq hread).streamsKept
  | nothing => exact .inl (.refl s)

/-- Settles O53: the session's arguments and output are among the streams that every step but reset keeps. -/
theorem outputGrowsAndInputIsImmutable : Obligations.OutputGrowsAndInputIsImmutable := by
  intro s t hstep hr
  obtain h | h := (step_stepTo hstep).streamsKept hr
  · exact ⟨h.out, h.args, h.offered, h.ipos⟩
  · exact ⟨h.out, h.args, h.offered, h.ipos⟩

/-! ## The outside -/

/-- Every operand on a leaf function's port decodes. -/
theorem PortRequest.decode_word (r : PortRequest) : ∃ i, decode r.word = .ok i := by
  cases r <;> exact ⟨_, rfl⟩

/-- Settles O60: an operand is run or declined, and either has a next state; no case of a step puts a word on a unit's
wires. -/
theorem nothingPresentedAltersTheSession : Obligations.NothingPresentedAltersTheSession := by
  refine ⟨fun s r hr hp => ?_, fun s t hu hstep => ?_, rfl⟩
  · cases hc : r.inContract with
    | true =>
      obtain ⟨i, hd⟩ := r.decode_word
      obtain ⟨res, n, he⟩ := exec_inContract hc hd { s with request := none }
      exact ⟨_, (step_word (fetch_request hr hp hc) hd).trans he, rfl⟩
    | false => exact ⟨_, step_of_declined (fetch_declined hr hp hc), rfl⟩
  · cases hr : s.resetLine with
    | true =>
      rw [step_reset hr] at hstep
      cases hstep
      rfl
    | false =>
      obtain h | h := (step_stepTo hstep).streamsKept hr
      · rw [h.unitWires, hu]
      · rw [h.unitWires]

/-! ## After the session -/

theorem presentGroup_over {s : State} (g : List Byte) (h : s.over = true) :
    presentGroup g s = .refused .sessionOver :=
  if_pos h

/-- Settles O12: once the session is over, the only cases of a step that are left are a port and nothing; and each output
operation tests it first. -/
theorem afterTheSessionOnlyResetActs : Obligations.AfterTheSessionOnlyResetActs := by
  refine ⟨fun s hu hq => step_over hu (s.over_iff.2 hq), fun s t hr hq hstep => ?_, fun s hq => ?_⟩
  · have hns : s.seq ≠ .start ∧ s.seq ≠ .streaming ∧ s.seq ≠ .finalizing := by
      obtain hq | hq := hq <;> rw [hq] <;> exact ⟨nofun, nofun, nofun⟩
    obtain ⟨hstart, hstream, hfin⟩ := hns
    cases step_stepTo hstep with
    | reset hr' => rw [hr] at hr'; cases hr'
    | port => rfl
    | output _ _ ho => rw [s.over_iff.2 hq] at ho; cases ho
    | call _ _ hget => exact absurd (execGet3_readTo hget).1 hstream
    | start _ hs => exact absurd hs hstart
    | group _ hs => exact absurd hs hstream
    | finish _ hs => exact absurd hs hstream
    | finalize _ hs => exact absurd hs hfin
    | token _ hs => exact absurd hs hstream
    | symbol _ hs => exact absurd hs hstream
    | nothing hu =>
      rw [← hu.2.1]
  · have ho : s.over = true := s.over_iff.2 hq
    refine ⟨fun l g => presentGroup_over _ ho, fun a b c d hwf => ?_, fun k hwf => ?_, presentGroup_over _ ho, if_pos ho,
      fun hdr => if_pos ho⟩
    · exact (if_pos hwf).trans (presentGroup_over _ ho)
    · exact (if_pos hwf).trans (presentGroup_over _ ho)

/-- Settles O41: each row's test fails. -/
theorem sequencerActionsAreRefusedElsewhere : Obligations.SequencerActionsAreRefusedElsewhere := by
  intro s
  refine ⟨fun h => if_neg h, fun h => ?_, fun h => ?_, fun h => ?_, fun h => ?_, fun h => if_neg h, fun h => ?_, fun h => ?_⟩
  · exact if_neg (not_and_or.2 h)
  · simp only [exec, execSeqShortlit]
    split
    · rename_i n hq hc
      refine if_neg fun hn => ?_
      rw [hc] at h
      obtain h | ⟨h1, h2⟩ := h
      · exact h hq
      · obtain rfl | rfl := hn
        · exact h1 rfl
        · exact h2 rfl
    · rfl
  · simp only [exec, execSeqNullrun]
    split
    · rename_i n hq hc
      obtain h | h := h
      · exact absurd hq h
      · exact absurd hc (h n)
    · rfl
  · exact if_neg (not_and_or.2 h)
  · have hc : canFail .inp s.seq s.call = false := by
      cases hq : s.seq with
      | streaming => exact beq_false_of_ne (h.resolve_left (not_not.2 hq))
      | _ => rfl
    simp [exec, execAbort, hc]
  · have hc : canFail .out s.seq s.call = false := by
      obtain hq | hq := h <;> rw [hq] <;> rfl
    simp [exec, execAbort, hc]

/-! ## Abort and reset -/

/-- Settles O42: ABORT is the exception of R158 where an access of its stream can be made. -/
theorem abortRecordsTheFailingStream : Obligations.AbortRecordsTheFailingStream := by
  intro which s hinp hout
  have hcan : canFail which s.seq s.call = true := by
    cases which with
    | inp =>
      obtain ⟨hq, hc⟩ := hinp rfl
      rw [hq, hc]
      rfl
    | out => obtain hq | hq | hq := hout rfl <;> rw [hq] <;> rfl
  refine ⟨s.raiseIOError which, if_pos hcan, rfl, rfl, ?_, ?_, s.raiseIOError_out_prefix which, rfl, rfl, rfl, rfl, rfl,
    rfl, rfl, rfl⟩
  · rintro rfl
    exact ⟨rfl, rfl⟩
  · rintro rfl
    exact ⟨rfl, rfl⟩

/-- Settles O46: the state after reset is written out in `State.resetSession`, and fetch looks at the reset line first. -/
theorem resetBeginsANewSession : Obligations.ResetBeginsANewSession :=
  ⟨fun s => ⟨s.resetSession, rfl, rfl, rfl, rfl, rfl, rfl, rfl, rfl, rfl, rfl, rfl, rfl, rfl, rfl, rfl⟩,
    fun _ hr => step_reset hr⟩

/-- Settles O48: what the state after reset does not name, it takes from the offered arguments or from outside the session. -/
theorem nothingOfASessionSurvivesReset : Obligations.NothingOfASessionSurvivesReset := by
  refine ⟨fun s t hdr input hp ho h => ?_, fun s s' t t' ho h h' => ?_, fun s t h => ?_⟩
  · cases h
    exact ⟨⟨rfl, hp, rfl⟩, rfl, rfl, rfl, rfl, rfl, rfl, rfl, ho, rfl, rfl, rfl, rfl, rfl⟩
  · cases h
    cases h'
    simp [State.resetSession, ho]
  · cases h
    exact ⟨rfl, rfl, rfl⟩

end Sys2Proof.Machine
end

section
/-! The leaf functions (spec/40_alphabet_mapper.md, spec/42_packer.md, spec/43_escaper.md): the mapper and its ROM, the packer's
slices and their way back, the escaper's pairs. -/

namespace Sys2Proof.Machine

/-! ## The alphabet mapper -/

theorem execToChar_of_le {n : BitVec 7} (s : State) (h : n.toNat ≤ 78) :
    execToChar n s = .next (s.showResult (.char (mapChar n))) := by
  have hc : toChar n = some (mapChar n) := if_pos h
  simp only [execToChar, hc]

theorem execToChar_of_gt {n : BitVec 7} (s : State) (h : 78 < n.toNat) :
    execToChar n s = .refused .charIndexOutOfRange := by
  have hc : toChar n = none := if_neg (Nat.not_le.2 h)
  simp only [execToChar, hc]

/-- Settles O13: the adder within the domain, the refusal above it. -/
theorem toCharAddsTheBaseOnItsDomain : Obligations.ToCharAddsTheBaseOnItsDomain := by
  intro n s
  exact ⟨fun h => ⟨mapChar n, mapChar_toNat n, execToChar_of_le s h⟩, execToChar_of_gt s⟩

theorem charValid_iff (c : Byte) : charValid c = true ↔ 48 ≤ c.toNat ∧ c.toNat ≤ 126 := by simp [charValid]

/-- A valid character's index as a number: the difference fits in 7 bits. -/
theorem charIndexOf_toNat {c : Byte} (h : charValid c = true) : (charIndexOf c).toNat = c.toNat - 48 := by
  obtain ⟨hlo, hhi⟩ := (charValid_iff c).1 h
  have hlt := c.isLt
  rw [charIndexOf, toNat_field, BitVec.toNat_sub, BitVec.toNat_ofNat]
  omega

theorem execFromChar_of_valid {c : Byte} (s : State) (h : charValid c = true) :
    execFromChar c s = .next (s.showResult (.charIndex true (charIndexOf c) (charIs6 c))) :=
  if_pos h

/-- Settles O14: on the valid characters the index and the packer's range, elsewhere two free values. -/
theorem fromCharReportsValidity : Obligations.FromCharReportsValidity := by
  intro c s
  refine ⟨fun hlo hhi => ?_, fun h => ?_⟩
  · have hv : charValid c = true := (charValid_iff c).2 ⟨hlo, hhi⟩
    exact ⟨charIndexOf c, charIndexOf_toNat hv, execFromChar_of_valid s hv⟩
  · have hv : ¬ charValid c = true := by
      rw [charValid_iff]
      omega
    exact ⟨_, _, _, if_neg hv⟩

theorem mapChar_valid {n : BitVec 7} (h : n.toNat ≤ 78) : charValid (mapChar n) = true := by
  rw [charValid_iff, mapChar_toNat]
  omega

theorem charIndexOf_mapChar {n : BitVec 7} (h : n.toNat ≤ 78) : charIndexOf (mapChar n) = n := by
  apply BitVec.eq_of_toNat_eq
  rw [charIndexOf_toNat (mapChar_valid h), mapChar_toNat, Nat.add_sub_cancel]

theorem mapChar_charIndexOf {c : Byte} (h : charValid c = true) : mapChar (charIndexOf c) = c := by
  obtain ⟨hlo, _⟩ := (charValid_iff c).1 h
  apply BitVec.eq_of_toNat_eq
  rw [mapChar_toNat, charIndexOf_toNat h, Nat.sub_add_cancel hlo]

/-- The packer's characters are those of the indices below 64 (R71). -/
theorem charIs6_mapChar (n : BitVec 7) : charIs6 (mapChar n) = decide (n.toNat ≤ 63) := by
  rw [charIs6, mapChar_toNat]
  exact decide_eq_decide.2 (by omega)

/-- Settles O15: the adder and the subtraction undo each other on the domain and on the valid characters. -/
theorem fromCharAndToCharAreInverse : Obligations.FromCharAndToCharAreInverse := by
  refine ⟨fun n c s t u h hres => ?_, fun c n is6 s t u h hres => ?_⟩
  · obtain hn | hn := Nat.lt_or_ge 78 n.toNat
    · have he : exec (.toChar n) s = .refused .charIndexOutOfRange := execToChar_of_gt s hn
      rw [he] at h
      cases h
    · have he : exec (.toChar n) s = .next (s.showResult (.char (mapChar n))) := execToChar_of_le s hn
      rw [he] at h
      cases h
      cases hres
      rw [exec, execFromChar_of_valid u (mapChar_valid hn), charIndexOf_mapChar hn, charIs6_mapChar]
      rfl
  · by_cases hv : charValid c = true
    · have he : exec (.fromChar c) s = .next (s.showResult (.charIndex true (charIndexOf c) (charIs6 c))) :=
        execFromChar_of_valid s hv
      rw [he] at h
      cases h
      cases hres
      have hn : (charIndexOf c).toNat ≤ 78 := by
        obtain ⟨_, hhi⟩ := (charValid_iff c).1 hv
        rw [charIndexOf_toNat hv]
        omega
      rw [exec, execToChar_of_le u hn, mapChar_charIndexOf hv]
      rfl
    · have he : exec (.fromChar c) s = .next _ := if_neg hv
      rw [he] at h
      cases h
      cases hres

/-- A memory listed from a function on a range of addresses: each of them holds its value, and there is no other. -/
theorem readCell_range (f : Nat → Byte) (i len lo : Nat) :
    readCell ((List.range' lo len).map fun n => (n, f n)) i = if lo ≤ i ∧ i < lo + len then some (f i) else none := by
  induction len generalizing lo with
  | zero => exact (if_neg (by omega)).symm
  | succ len ih =>
    rw [List.range'_succ, List.map_cons, readCell, ih]
    by_cases hlo : lo = i
    · rw [if_pos hlo, if_pos (by omega), hlo]
    · rw [if_neg hlo]
      exact if_congr (by omega) rfl rfl

/-- The alphabet ROM is such a memory. -/
theorem romRead_eq (i : Nat) : romRead i = if i ≤ 78 then some (BitVec.ofNat 8 (i + 48)) else none := by
  have h := readCell_range (fun n => BitVec.ofNat 8 (n + 48)) i 79 0
  rw [romRead, Config.alphabetRom, List.range_eq_range']
  exact h.trans (if_congr (by omega) rfl rfl)

/-- Settles O16: the ROM is read on its range, and nowhere else; TOCHAR tests the same range. -/
theorem alphabetRomHoldsEveryCharacter : Obligations.AlphabetRomHoldsEveryCharacter := by
  refine ⟨fun i hi => ?_, fun i hi => ?_, fun n => ?_⟩
  · rw [romRead_eq, if_pos hi]
  · rw [romRead_eq, if_neg (Nat.not_le.2 hi)]
  · rw [romRead_eq, toChar, mapChar_eq_ofNat]
    rfl

/-! ## The packer -/

/-- The document's formulas (R110) are the four 6-bit fields of the 24-bit word, bit by bit. -/
theorem packFields_of_word (w : BitVec 24) :
    packFields (w.extractLsb' 16 8) (w.extractLsb' 8 8) (w.extractLsb' 0 8) =
      (w.extractLsb' 18 6, w.extractLsb' 12 6, w.extractLsb' 6 6, w.extractLsb' 0 6) := by
  simp only [packFields, Prod.mk.injEq]
  refine ⟨?_, ?_, ?_, ?_⟩ <;> ext i hi <;> interval_cases i <;> simp

theorem packFields_eq (x y z : Byte) :
    packFields x y z = ((x ++ y ++ z).extractLsb' 18 6, (x ++ y ++ z).extractLsb' 12 6, (x ++ y ++ z).extractLsb' 6 6,
      (x ++ y ++ z).extractLsb' 0 6) := by
  have h := packFields_of_word (x ++ y ++ z)
  obtain ⟨hx, hy, hz⟩ := tripleWord_fields x y z
  rwa [hx, hy, hz] at h

/-- Settles O17: each character is the adder on its field, on the port's wires as in the list that is written. -/
theorem packSlicesTheTriple : Obligations.PackSlicesTheTriple := by
  intro x y z s
  have hf := packFields_eq x y z
  obtain ⟨ha, hb, hc, hd⟩ := quadWord_fields (mapField (packFields x y z).1) (mapField (packFields x y z).2.1)
    (mapField (packFields x y z).2.2.1) (mapField (packFields x y z).2.2.2)
  refine ⟨packWord x y z, rfl, ?_, ?_, ?_, ?_, ?_⟩
  · rw [packWord, ha, mapField_toNat, hf]
  · rw [packWord, hb, mapField_toNat, hf]
  · rw [packWord, hc, mapField_toNat, hf]
  · rw [packWord, hd, mapField_toNat, hf]
  · rw [packWord, ha, hb, hc, hd, packChars]

/-- The characters of 6-bit fields are the packer's characters (R71). -/
theorem mapField_isQuadChar (v : BitVec 6) : isQuadChar (mapField v) = true := by
  have h := v.isLt
  rw [isQuadChar, mapField_toNat, decide_eq_true_iff]
  omega

theorem mapField_sub_base (v : BitVec 6) : mapField v - 48#8 = v.zeroExtend 8 := by
  have h := v.isLt
  apply BitVec.eq_of_toNat_eq
  rw [BitVec.toNat_sub, mapField_toNat, BitVec.zeroExtend, BitVec.toNat_setWidth, BitVec.toNat_ofNat]
  omega

/-- UNPACK undoes PACK (R114), bit by bit. -/
theorem unpackChars_pack (x y z : Byte) :
    unpackChars (mapField (packFields x y z).1) (mapField (packFields x y z).2.1) (mapField (packFields x y z).2.2.1)
      (mapField (packFields x y z).2.2.2) = [x, y, z] := by
  simp only [unpackChars, mapField_sub_base, List.cons.injEq, and_true]
  refine ⟨?_, ?_, ?_⟩ <;> ext i hi <;> interval_cases i <;> simp [packFields]

theorem pack_wellFormed (x y z : Byte) :
    (Instr.wQuad (mapField (packFields x y z).1) (mapField (packFields x y z).2.1) (mapField (packFields x y z).2.2.1)
      (mapField (packFields x y z).2.2.2)).wellFormed = true := by
  simp only [Instr.wellFormed, mapField_isQuadChar, Bool.and_self]

/-- Settles O18: the four characters lie in the range that a packed group is decoded by, and UNPACK undoes the slices. -/
theorem packedQuadUnpacksToItsTriple : Obligations.PackedQuadUnpacksToItsTriple := by
  intro x y z s t w h hres
  cases h
  cases hres
  exact ⟨_, _, _, _, decodeWire32_quad (pack_wellFormed x y z), unpackChars_pack x y z⟩

/-! ## The escaper -/

/-- Settles O19: the count character of a legal count is one that a reader takes (R54). -/
theorem escapeAndPadMarkGiveTheirPairs : Obligations.EscapeAndPadMarkGiveTheirPairs := by
  intro n s
  refine ⟨fun h2 h78 => ?_, fun h => ?_, rfl⟩
  · have hn : isRunCount n = true := (isRunCount_iff n).2 ⟨h2, h78⟩
    have hk : isCountChar (mapChar n) = true := by
      rw [isCountChar, mapChar_toNat, decide_eq_true_iff]
      omega
    have hw : escapeWord n = some (Config.escChar ++ mapChar n) := if_pos hn
    exact ⟨mapChar n, mapChar_toNat n, by simp only [exec, execEscape, hw]; rfl, decodeWire16_esc hk⟩
  · have hw : escapeWord n = none := if_neg (by rw [(isRunCount_false_iff n).2 h]; exact nofun)
    simp only [exec, execEscape, hw]

end Sys2Proof.Machine
end

section
/-! The token sequence of an input (spec/41_byte_classifier.md R96 to R98): `Scan` as a relation with one rule for each thing a
symbol can do, and an induction over the tokens of an input. -/

namespace Sys2Proof

/-! ## `Scan` as a relation -/

/-- `Scans input lit nulls t rest`: from a state that a call can be in, `Scan` finds `t` and leaves `rest` (R96). -/
inductive Scans : List Byte → List Byte → Nat → RefToken → List Byte → Prop where
  | count {r rest : List Byte} {n : Nat} {t : RefToken} (hn : n < 78) (h : Scans r [] (n + 1) t rest) :
      Scans (0x00#8 :: r) [] n t rest
  | cut (r : List Byte) : Scans (0x00#8 :: r) [] 78 (.nullRun 78) (0x00#8 :: r)
  | endRun {b : Byte} (r : List Byte) {n : Nat} (hb : b ≠ 0x00#8) (h2 : 2 ≤ n) (h78 : n ≤ 78) :
      Scans (b :: r) [] n (.nullRun n) (b :: r)
  | backtrack {b : Byte} {r rest : List Byte} {t : RefToken} (hb : b ≠ 0x00#8) (h : Scans r [0x00#8, b] 0 t rest) :
      Scans (b :: r) [] 1 t rest
  | append {b : Byte} {r l rest : List Byte} {t : RefToken} (hb : b ≠ 0x00#8 ∨ l ≠ []) (hl : l.length < 2)
      (h : Scans r (l ++ [b]) 0 t rest) : Scans (b :: r) l 0 t rest
  | triple {b : Byte} (r : List Byte) {l : List Byte} (hl : l.length = 2) : Scans (b :: r) l 0 (.literal (l ++ [b])) r
  | endOfRun {n : Nat} (h2 : 2 ≤ n) (h78 : n ≤ 78) : Scans [] [] n (.nullRun n) []
  | endOfOne : Scans [] [] 1 (.literal [0x00#8]) []
  | endOfTail {l : List Byte} (h1 : 1 ≤ l.length) (h2 : l.length ≤ 2) : Scans [] l 0 (.literal l) []
  | endOfAll : Scans [] [] 0 .endOfInput []

/-- `Scan` follows the rules, from every state that a call can be in. -/
theorem scan_scans (input lit : List Byte) (n : Nat) (hx : n ≠ 0 → lit = []) (hn : n ≤ 78) (hl : lit.length ≤ 2) :
    Scans input lit n (scan input lit n).1 (scan input lit n).2 := by
  induction input generalizing lit n with
  | nil =>
    obtain rfl | rfl | h2 : n = 0 ∨ n = 1 ∨ 2 ≤ n := by omega
    · cases lit with
      | nil => exact .endOfAll
      | cons a l => exact .endOfTail (Nat.succ_le_succ (Nat.zero_le _)) hl
    · obtain rfl := hx Nat.one_ne_zero
      exact .endOfOne
    · obtain rfl := hx (by omega)
      rw [scan_end_run [] h2]
      exact .endOfRun h2 hn
  | cons b r ih =>
    by_cases hnull : b = 0x00#8 ∧ lit = []
    · obtain ⟨rfl, rfl⟩ := hnull
      obtain hlt | rfl := Nat.lt_or_eq_of_le hn
      · rw [scan_null_counts r hlt]
        exact .count hlt (ih [] (n + 1) (fun _ => rfl) hlt (Nat.zero_le 2))
      · exact .cut r
    obtain rfl | rfl | h2 : n = 0 ∨ n = 1 ∨ 2 ≤ n := by omega
    · have hb : b ≠ 0x00#8 ∨ lit ≠ [] := not_and_or.1 hnull
      rw [scan_appends r hb]
      by_cases h2 : lit.length = 2
      · rw [if_pos h2]
        exact .triple r h2
      · rw [if_neg h2]
        have hlt : lit.length < 2 := by omega
        exact .append hb hlt (ih _ 0 (fun h => absurd rfl h) hn (by simpa using hlt))
    · obtain rfl := hx Nat.one_ne_zero
      have hb : b ≠ 0x00#8 := fun h => hnull ⟨h, rfl⟩
      rw [scan_backtracks r [] hb]
      exact .backtrack hb (ih _ 0 (fun h => absurd rfl h) (Nat.zero_le _) (Nat.le_refl 2))
    · obtain rfl := hx (by omega)
      have hb : b ≠ 0x00#8 := fun h => hnull ⟨h, rfl⟩
      rw [scan_run_ends r [] hb h2]
      exact .endRun r hb h2 hn

/-- Between two calls nothing is pending. -/
theorem scan_scans_start (input : List Byte) : Scans input [] 0 (scan input [] 0).1 (scan input [] 0).2 :=
  scan_scans input [] 0 (fun _ => rfl) (Nat.zero_le _) (Nat.zero_le _)

/-- R98 (d) for one token: what is pending and unread is what the token covers and the rest. -/
theorem Scans.covers {input lit rest : List Byte} {n : Nat} {t : RefToken} (h : Scans input lit n t rest) :
    t.expand ++ rest = List.replicate n 0x00#8 ++ lit ++ input := by
  induction h with
  | count _ _ ih => rw [ih, List.replicate_succ']; simp
  | cut | endRun | triple | endOfRun | endOfOne | endOfTail | endOfAll => simp [RefToken.expand]
  | backtrack _ _ ih => rw [ih]; simp
  | append _ _ _ ih => rw [ih]; simp

/-- R98 (a) to (c) for one token. -/
inductive LegalToken : RefToken → List Byte → Prop where
  | triple {l : List Byte} (rest : List Byte) (hl : l.length = 3) : LegalToken (.literal l) rest
  | tail {l : List Byte} (h1 : 1 ≤ l.length) (h2 : l.length ≤ 2) : LegalToken (.literal l) []
  | run {n : Nat} (rest : List Byte) (h2 : 2 ≤ n) (h78 : n ≤ 78) : LegalToken (.nullRun n) rest
  | finish : LegalToken .endOfInput []

theorem Scans.legal {input lit rest : List Byte} {n : Nat} {t : RefToken} (h : Scans input lit n t rest) :
    LegalToken t rest := by
  induction h with
  | count _ _ ih => exact ih
  | cut r => exact .run _ (by decide) (by decide)
  | endRun r _ h2 h78 => exact .run _ h2 h78
  | backtrack _ _ ih => exact ih
  | append _ _ _ ih => exact ih
  | triple r hl => exact .triple r (by simp [hl])
  | endOfRun h2 h78 => exact .run _ h2 h78
  | endOfOne => exact .tail (Nat.le_refl 1) (Nat.le_succ 1)
  | endOfTail h1 h2 => exact .tail h1 h2
  | endOfAll => exact .finish

/-- Every token but `End` covers a byte at least, so that less of the input remains. -/
theorem Scans.rest_lt {input rest : List Byte} {t : RefToken} (h : Scans input [] 0 t rest) (ht : t ≠ .endOfInput) :
    rest.length < input.length := by
  have hcover : t.expand.length + rest.length = input.length := by
    have e := congrArg List.length h.covers
    simpa using e
  have hpos : 1 ≤ t.expand.length := by
    cases h.legal with
    | triple _ hl => rw [RefToken.expand, hl]; decide
    | tail h1 => exact h1
    | run _ h2 => rw [RefToken.expand, List.length_replicate]; omega
    | finish => exact absurd rfl ht
  omega

/-! ## The flattened classifier (R97) -/

/-- The flattened classifier's first token is the one that `Scan` finds, and its others are those of the rest. -/
theorem Scans.flatTokens {input lit rest : List Byte} {n : Nat} {t : RefToken} (h : Scans input lit n t rest) :
    flatTokens input lit n = if t = .endOfInput then [.endOfInput] else t :: flatTokens rest [] 0 := by
  induction h with
  | count hn _ ih => rw [← ih, Sys2Proof.flatTokens, if_pos ⟨rfl, rfl⟩, if_neg (by omega)]
  | cut r => rfl
  | endRun r hb h2 _ =>
    rw [Sys2Proof.flatTokens, if_neg (fun h => hb h.1), if_pos ⟨hb, h2⟩, if_neg (by simp)]
    simp [Sys2Proof.flatTokens, hb]
  | backtrack hb _ ih =>
    rw [← ih, Sys2Proof.flatTokens, if_neg (fun h => hb h.1), if_neg (by omega)]
    simp [hb]
  | @append b r l rest t hb hl _ ih =>
    have hnull : ¬ (b = 0x00#8 ∧ l = []) := not_and_or.2 hb
    rw [← ih, Sys2Proof.flatTokens, if_neg hnull, if_neg (by omega)]
    simp [Nat.ne_of_lt hl]
  | @triple b r l hl =>
    have hnull : ¬ (b = 0x00#8 ∧ l = []) := fun h => by
      rw [h.2] at hl
      cases hl
    rw [Sys2Proof.flatTokens, if_neg hnull, if_neg (by omega)]
    simp [hl]
  | endOfRun h2 _ => rw [Sys2Proof.flatTokens, if_pos h2, if_neg (by simp)]; rfl
  | endOfOne => rfl
  | @endOfTail l h1 _ =>
    have hne : l ≠ [] := List.ne_nil_of_length_pos h1
    simp [Sys2Proof.flatTokens, hne]
  | endOfAll => rfl

/-- With fuel for every byte and `End`, the calls emit the flattened classifier's tokens. -/
theorem tokensUpTo_eq_flatTokens {n : Nat} {input : List Byte} (h : input.length < n) :
    tokensUpTo n input = flatTokens input [] 0 := by
  induction n generalizing input with
  | zero => exact absurd h (Nat.not_lt_zero _)
  | succ n ih =>
    have hs := scan_scans_start input
    rw [hs.flatTokens, tokensUpTo]
    generalize scan input [] 0 = p at hs
    obtain ⟨t, rest⟩ := p
    cases t with
    | endOfInput => rfl
    | literal l =>
      have hlt := hs.rest_lt nofun
      exact congrArg _ (ih (Nat.lt_of_lt_of_le hlt (Nat.lt_succ_iff.1 h)))
    | nullRun m =>
      have hlt := hs.rest_lt nofun
      exact congrArg _ (ih (Nat.lt_of_lt_of_le hlt (Nat.lt_succ_iff.1 h)))

/-- Settles O54: token by token, the held byte goes back to the input in the one and is classified at once in the other. -/
theorem flattenedClassifierEmitsTheSameTokens : Obligations.FlattenedClassifierEmitsTheSameTokens :=
  fun input => tokensUpTo_eq_flatTokens (Nat.lt_succ_self input.length)

/-! ## The tokens of an input -/

theorem Scans.tokens {input rest : List Byte} {t : RefToken} (h : Scans input [] 0 t rest) :
    tokens input = if t = .endOfInput then [.endOfInput] else t :: tokens rest := by
  rw [flattenedClassifierEmitsTheSameTokens, flattenedClassifierEmitsTheSameTokens, h.flatTokens]

/-- Induction over the token sequence of an input: no input; a triple or a run before the tokens of the rest; a literal tail. -/
theorem tokens_induction {P : List Byte → List RefToken → Prop} (finish : P [] [.endOfInput])
    (triple : ∀ l rest, l.length = 3 → P rest (tokens rest) → P (l ++ rest) (.literal l :: tokens rest))
    (run : ∀ n rest, 2 ≤ n → n ≤ 78 → P rest (tokens rest) →
      P (List.replicate n 0x00#8 ++ rest) (.nullRun n :: tokens rest))
    (tail : ∀ l, 1 ≤ l.length → l.length ≤ 2 → P l [.literal l, .endOfInput]) (input : List Byte) :
    P input (tokens input) := by
  induction hlen : input.length using Nat.strong_induction_on generalizing input with
  | h len ih =>
    have hs := scan_scans_start input
    generalize (scan input [] 0).1 = t at hs
    generalize (scan input [] 0).2 = rest at hs
    have hrest : t ≠ .endOfInput → P rest (tokens rest) := fun ht => ih _ (hlen ▸ hs.rest_lt ht) rest rfl
    have hinput : t.expand ++ rest = input := by simpa using hs.covers
    rw [hs.tokens, ← hinput]
    cases hs.legal with
    | triple _ hl => exact triple _ _ hl (hrest nofun)
    | run _ h2 h78 => exact run _ _ h2 h78 (hrest nofun)
    | finish => exact finish
    | @tail l h1 h2 =>
      have hend : Sys2Proof.tokens [] = [.endOfInput] := rfl
      rw [if_neg nofun, hend, List.append_nil]
      exact tail l h1 h2

/-- Settles O55, by induction over the tokens: a short literal comes only as the tail, where no other token follows it but
`End`. -/
theorem tokensCoverTheInput : Obligations.TokensCoverTheInput := by
  intro input
  induction input using tokens_induction with
  | finish => exact ⟨[], rfl, by simp, by simp, by simp, by simp, rfl⟩
  | triple l rest hl ih =>
    obtain ⟨ts, e, hrun, hlit, hfull, hend, hcover⟩ := ih
    refine ⟨.literal l :: ts, by rw [e]; rfl, ?_, ?_, ?_, ?_, ?_⟩
    · intro n hn
      exact hrun n (by simpa using hn)
    · intro l' hl'
      obtain h | h := List.mem_cons.1 hl'
      · cases h
        omega
      · exact hlit l' h
    · intro l' hl'
      cases ts with
      | nil => cases hl'
      | cons t ts =>
        obtain h | h := List.mem_cons.1 hl'
        · cases h
          exact hl
        · exact hfull l' h
    · simpa using hend
    · rw [List.flatMap_cons, hcover]
      rfl
  | run n rest h2 h78 ih =>
    obtain ⟨ts, e, hrun, hlit, hfull, hend, hcover⟩ := ih
    refine ⟨.nullRun n :: ts, by rw [e]; rfl, ?_, ?_, ?_, ?_, ?_⟩
    · intro m hm
      obtain h | h := List.mem_cons.1 hm
      · cases h
        exact ⟨h2, h78⟩
      · exact hrun m h
    · intro l' hl'
      exact hlit l' (by simpa using hl')
    · intro l' hl'
      cases ts with
      | nil => cases hl'
      | cons t ts =>
        obtain h | h := List.mem_cons.1 hl'
        · cases h
        · exact hfull l' h
    · simpa using hend
    · rw [List.flatMap_cons, hcover]
      rfl
  | tail l h1 h2 =>
    refine ⟨[.literal l], rfl, by simp, ?_, nofun, by simp, by simp [RefToken.expand]⟩
    intro l' hl'
    cases List.mem_singleton.1 hl'
    omega

end Sys2Proof
end

section
/-! Whole sessions in an environment that answers and never fails (spec/45_session_sequencer.md R146): the header line, then
token by token a call, the taking of the token and its group, then the markers and the trailer. -/

namespace Sys2Proof

open Machine

/-! ## Runs -/

/-- The machine gets from `s` to `t` in some number of steps. -/
def Reaches (s t : State) : Prop := ∃ n, runSteps n s = .next t

theorem runSteps_trans {m n : Nat} {s t u : State} (h : runSteps m s = .next t) (k : runSteps n t = .next u) :
    runSteps (m + n) s = .next u := by
  induction m generalizing s with
  | zero =>
    cases h
    rw [Nat.zero_add]
    exact k
  | succ m ih =>
    rw [Nat.add_right_comm]
    simp only [runSteps] at h ⊢
    cases hs : step s with
    | next s' =>
      simp only [hs] at h
      exact ih h
    | fault f => simp [hs] at h
    | refused r => simp [hs] at h

theorem Reaches.trans {s t u : State} (h : Reaches s t) (k : Reaches t u) : Reaches s u := by
  obtain ⟨m, hm⟩ := h
  obtain ⟨n, hn⟩ := k
  exact ⟨m + n, runSteps_trans hm hn⟩

theorem Reaches.of_step {s t : State} (h : step s = .next t) : Reaches s t := ⟨1, by simp only [runSteps, h]⟩

/-- The session's invariant holds along a run. -/
theorem Reaches.sessionInv {s t : State} (h : Reaches s t) (hs : SessionInv s) : SessionInv t := by
  obtain ⟨n, hn⟩ := h
  induction n generalizing s with
  | zero =>
    cases hn
    exact hs
  | succ n ih =>
    simp only [runSteps] at hn
    cases hstep : step s with
    | next s' =>
      simp only [hstep] at hn
      exact ih (everyStepKeepsTheSessionInvariant s s' hs hstep) hn
    | fault f => simp [hstep] at hn
    | refused r => simp [hstep] at hn

/-! ## The output, group by group (R126, R146) -/

/-- EMIT lays a group out as the closed form does, the rest of the groups following from the column it leaves. -/
theorem afterEmit_layout {s : State} {g : List Byte} (rest : List (List Byte)) (hg : groupLengthOk g) :
    (afterEmit s g).out ++ wrapGroups rest (afterEmit s g).col.toNat = s.out ++ wrapGroups (g :: rest) s.col.toNat := by
  have hlen : g.length ≤ 4 := by obtain h | h := hg <;> omega
  rw [wrapGroups]
  unfold afterEmit
  by_cases hw : 72 < s.col.toNat + g.length
  · rw [if_pos hw, if_pos hw]
    simp [Nat.mod_eq_of_lt (show g.length < 128 by omega)]
  · rw [if_neg hw, if_neg hw]
    simp [Nat.mod_eq_of_lt (show s.col.toNat + g.length < 128 by omega)]

theorem afterMarkers_layout (n : Nat) (s : State) :
    (afterMarkers n s).out = s.out ++ wrapGroups (List.replicate n [0x7E#8, 0x30#8]) s.col.toNat := by
  induction n generalizing s with
  | zero => exact (List.append_nil _).symm
  | succ n ih =>
    have hg : groupLengthOk [0x7E#8, 0x30#8] := .inl rfl
    rw [afterMarkers, ih, afterEmit_layout _ hg, List.replicate_succ]

/-- One write for each byte in `OUT` (entry 9). -/
def AllWritten (s : State) : Prop := s.writes = s.out.length

theorem AllWritten.after_emit {s : State} (h : AllWritten s) (g : List Byte) : AllWritten (afterEmit s g) := by
  have h : s.writes = s.out.length := h
  unfold AllWritten afterEmit
  split <;> simp [h, Nat.add_assoc, Nat.add_comm 2]

theorem AllWritten.after_markers {s : State} (h : AllWritten s) (n : Nat) : AllWritten (afterMarkers n s) := by
  induction n generalizing s with
  | zero => exact h
  | succ n ih => exact ih (h.after_emit _)

/-! ## `FILL` (R145) -/

/-- What one token gives `FILL`. -/
def fillStep (f : Nat) (t : RefToken) : Nat :=
  match t with
  | .literal bytes => 3 - bytes.length
  | .nullRun _ => 0
  | .endOfInput => f

theorem fillAfter_eq (ts : List RefToken) : fillAfter ts = ts.foldl fillStep 0 := rfl

/-! ## One token of a session -/

/-- The sequencer takes the token on the bus, which is legal (R137). -/
theorem step_returned {s : State} {tok : Token} (hu : s.undisturbed) (hq : s.seq = .streaming)
    (hc : s.call = .returned tok) (hl : tokenLegal s tok) : step s = .next (s.acceptToken tok) := by
  have haction := stepRunsTheSequencerAction s hu
  obtain ⟨_, _, _, _, _, _, hliteral, hrun, hend, _, _⟩ := haction
  cases tok with
  | literal n =>
    obtain ⟨_, hn, _⟩ := hl
    exact (hliteral n hq hc hn).trans (execTLiteral_offered hn hq hc rfl)
  | nullRun n =>
    obtain ⟨h2, h78, _⟩ := hl
    exact (hrun n hq hc h2 h78).trans (execTNullrun_offered ((isRunCount_iff n).2 ⟨h2, h78⟩) hq hc)
  | endOfInput => exact (hend hq hc).trans (execTEnd_offered hq hc)

/-- A data token is handled by emitting its group, and sets `FILL` (R138 to R140). -/
theorem step_accepted {s : State} {tok : Token} (hu : s.undisturbed) (hq : s.seq = .streaming)
    (hc : s.call = .accepted tok) (hl : tokenLegal s tok) (hne : tok ≠ .endOfInput) (hw : ∀ n, WritesAccepted s n) :
    ∃ l v g, step s = .next (afterEmit { s with lit := l, fill := v, call := .idle } g) ∧ groupLengthOk g ∧
      groupOf (refToken s tok) = [g] ∧ ∀ f, fillStep f (refToken s tok) = v.toNat := by
  have haction := stepRunsTheSequencerAction s hu
  obtain ⟨_, hfull, hshort, hrun, _⟩ := haction
  cases tok with
  | literal n =>
    obtain ⟨_, h0, _⟩ := hl
    by_cases h3 : n = 3#2
    · subst h3
      have h := (hfull hq hc).trans (fullLiteralIsPackedAndEmitted s hq hc (hw _))
      exact ⟨_, _, _, h, .inr rfl, rfl, fun _ => rfl⟩
    · have hstep := hshort n hq hc h3
      obtain rfl | rfl := litN_one_or_two.1 ⟨h0, h3⟩
      · have h := hstep.trans ((shortLiteralIsPaddedAndEmitted s hq).1 hc (hw _))
        exact ⟨_, _, _, h, .inr rfl, rfl, fun _ => rfl⟩
      · have h := hstep.trans ((shortLiteralIsPaddedAndEmitted s hq).2 hc (hw _))
        exact ⟨_, _, _, h, .inr rfl, rfl, fun _ => rfl⟩
  | nullRun n =>
    obtain ⟨h2, h78, _⟩ := hl
    have h := (hrun n hq hc).trans (nullRunIsEscapedAndEmitted s n hq hc h2 h78 (hw _))
    exact ⟨_, _, _, h, .inl rfl, rfl, fun _ => rfl⟩
  | endOfInput => exact absurd rfl hne

/-- A session in `Streaming` between two calls, in an environment that answers and never fails. One byte has been read for
each read but one at end of input, after which nothing remains (R192). -/
structure Between (hdr input : List Byte) (s : State) : Prop where
  undisturbed : s.undisturbed
  streaming : s.seq = .streaming
  idle : s.call = .idle
  args : s.args = { SessionArgs.empty with hdr := hdr, input := input }
  inv : SessionInv s
  allWritten : AllWritten s
  reads : s.reads = s.ipos ∨ (s.reads = s.ipos + 1 ∧ remaining s = [])

theorem readsAnswered_of_args {s : State} {hdr input : List Byte}
    (h : s.args = { SessionArgs.empty with hdr := hdr, input := input }) (n : Nat) : ReadsAnswered s n := by
  intro k _ _
  rw [h]
  exact ⟨nofun, nofun⟩

theorem writesAccepted_of_args {s : State} {hdr input : List Byte}
    (h : s.args = { SessionArgs.empty with hdr := hdr, input := input }) (n : Nat) : WritesAccepted s n := by
  intro k _ _
  rw [h]
  exact ⟨nofun, nofun⟩

theorem refToken_eq_end {s : State} {tok : Token} (h : refToken s tok = .endOfInput) : tok = .endOfInput := by
  cases tok <;> cases h
  rfl

/-- With nothing remaining the only token is `End`. -/
theorem Scans.of_nil {t : RefToken} {rest : List Byte} (h : Scans [] [] 0 t rest) : t = .endOfInput := by
  by_contra ht
  exact absurd (h.rest_lt ht) (Nat.not_lt_zero _)

/-- A call of the session, symbol by symbol, up to the token that the sequencer has taken: `Scan`'s of the remaining input. -/
theorem Between.call {hdr input : List Byte} {s : State} (h : Between hdr input s) :
    ∃ (t : State) (tok : Token), Reaches s (t.acceptToken tok) ∧ CallFrame s t ∧ tokenLegal t tok ∧
      Scans (remaining s) [] 0 (refToken t tok) (remaining t) ∧
      ((tok ≠ .endOfInput ∧ t.reads = t.ipos) ∨ (t.reads = t.ipos + 1 ∧ remaining t = []) ∨
        (tok = .endOfInput ∧ t.reads = t.ipos + 2)) := by
  obtain ⟨t, tok, ht, hret⟩ := execGet3_returns h.streaming h.idle (readsAnswered_of_args h.args _)
  have hframe : CallFrame s t := (openCall_frame s).trans hret.frame
  have hreach : Reaches s t := by
    obtain ⟨n, _, hn⟩ := steppingTheSymbolsIsTheCall s h.undisturbed h.streaming h.idle
    exact ⟨n, hn.trans ht⟩
  have hu : t.undisturbed := by
    rw [show t = _ from hframe]
    exact h.undisturbed
  have hq : t.seq = .streaming := by
    rw [show t = _ from hframe]
    exact h.streaming
  have hlegal : tokenLegal t tok := by
    obtain ⟨_, _, _, htok, _⟩ := (hreach.sessionInv h.inv).2.2 (by rw [hq]; exact nofun)
    exact (htok tok (.inl hret.returned)).2
  have hscan : (refToken t tok, remaining t) = scan (remaining s) [] 0 := by
    rw [hret.scanned, State.openCall_args, State.openCall_ipos, scan_openCall]
  have hs : Scans (remaining s) [] 0 (refToken t tok) (remaining t) := by
    have hstart := scan_scans_start (remaining s)
    rwa [← hscan] at hstart
  refine ⟨t, tok, hreach.trans (.of_step (step_returned hu hq hret.returned hlegal)), hframe, hlegal, hs, ?_⟩
  have hreads := hret.reads
  rw [State.openCall_ipos, State.openCall_reads] at hreads
  obtain hr | ⟨hr, hnil⟩ := h.reads
  · obtain ⟨e, hne⟩ | ⟨e, hrest⟩ := hreads
    · exact .inl ⟨hne, by omega⟩
    · exact .inr (.inl ⟨by omega, hrest⟩)
  · rw [hnil] at hs
    have hend := refToken_eq_end hs.of_nil
    obtain ⟨_, hne⟩ | ⟨e, _⟩ := hreads
    · exact absurd hend hne
    · exact .inr (.inr ⟨hend, by omega⟩)

/-- A data token of the session: its group is laid out, `FILL` set, and the next call finds the rest of the input. -/
theorem Between.data_token {hdr input : List Byte} {s t : State} {tok : Token} (h : Between hdr input s)
    (hreach : Reaches s (t.acceptToken tok)) (hframe : CallFrame s t) (hlegal : tokenLegal t tok)
    (hne : tok ≠ .endOfInput) (hreads : t.reads = t.ipos ∨ (t.reads = t.ipos + 1 ∧ remaining t = [])) :
    ∃ u g, Reaches s u ∧ Between hdr input u ∧ groupOf (refToken t tok) = [g] ∧ remaining u = remaining t ∧
      (∀ f, fillStep f (refToken t tok) = u.fill.toNat) ∧
      ∀ rest, u.out ++ wrapGroups rest u.col.toNat = s.out ++ wrapGroups (g :: rest) s.col.toNat := by
  have hargs : t.args = s.args := by rw [show t = _ from hframe]
  have hseq : t.seq = s.seq := by rw [show t = _ from hframe]
  have hcol : t.col = s.col := by rw [show t = _ from hframe]
  have hout : t.out = s.out := by rw [show t = _ from hframe]
  have hwrites : t.writes = s.writes := by rw [show t = _ from hframe]
  have hu : t.undisturbed := by
    rw [show t = _ from hframe]
    exact h.undisturbed
  obtain ⟨l, v, g, hstep, hg, hgroup, hfill⟩ := step_accepted (s := t.acceptToken tok) hu (hseq.trans h.streaming) rfl
    hlegal hne (writesAccepted_of_args (hargs.trans h.args))
  generalize he : ({ t.acceptToken tok with lit := l, fill := v, call := .idle } : State) = e at hstep
  have hreach' : Reaches s (afterEmit e g) := hreach.trans (.of_step hstep)
  have hw := afterEmit_wroteMore e g
  have hrem : remaining (afterEmit e g) = remaining t := by
    rw [hw.1, ← he]
    rfl
  refine ⟨afterEmit e g, g, hreach', ⟨?_, ?_, ?_, ?_, hreach'.sessionInv h.inv, ?_, ?_⟩, hgroup, hrem, ?_, ?_⟩
  · rw [hw.1, ← he]
    exact hu
  · rw [hw.1, ← he]
    exact hseq.trans h.streaming
  · rw [hw.1, ← he]
  · rw [hw.1, ← he]
    exact hargs.trans h.args
  · have hbefore : AllWritten e := by
      rw [← he]
      exact hwrites.trans (h.allWritten.trans (congrArg List.length hout.symm))
    exact hbefore.after_emit g
  · rw [hrem, hw.1, ← he]
    exact hreads
  · intro f
    rw [hw.1, ← he]
    exact hfill f
  · intro rest
    have hecol : e.col = s.col := he ▸ hcol
    have heout : e.out = s.out := he ▸ hout
    rw [afterEmit_layout rest hg, hecol, heout]

/-- The end of a session: what it has written from `s` on, with `FILL` and the counts. -/
structure FinishesFrom (s t : State) (ts : List RefToken) : Prop where
  reaches : Reaches s t
  done : t.seq = .done
  args : t.args = s.args
  fill : t.fill.toNat = ts.foldl fillStep s.fill.toNat
  out : t.out = s.out ++ wrapGroups (ts.flatMap groupOf ++ List.replicate t.fill.toNat [0x7E#8, 0x30#8]) s.col.toNat ++
    [0x0D#8, 0x0A#8]
  allWritten : AllWritten t
  reads : t.reads = t.ipos + 1 ∨ t.reads = t.ipos + 2

/-- `End`, taken: `Finalizing`, then the markers and the trailer, then `Done` (R141 to R144). -/
theorem Between.end_token {hdr input : List Byte} {s t : State} (h : Between hdr input s)
    (hreach : Reaches s (t.acceptToken .endOfInput)) (hframe : CallFrame s t)
    (hreads : t.reads = t.ipos + 1 ∨ t.reads = t.ipos + 2) : ∃ u, FinishesFrom s u [.endOfInput] := by
  have hargs : t.args = s.args := by rw [show t = _ from hframe]
  have hseq : t.seq = s.seq := by rw [show t = _ from hframe]
  have hcol : t.col = s.col := by rw [show t = _ from hframe]
  have hfill : t.fill = s.fill := by rw [show t = _ from hframe]
  have hout : t.out = s.out := by rw [show t = _ from hframe]
  have hwrites : t.writes = s.writes := by rw [show t = _ from hframe]
  have hu : t.undisturbed := by
    rw [show t = _ from hframe]
    exact h.undisturbed
  generalize he : ({ t.acceptToken .endOfInput with seq := .finalizing, call := .idle } : State) = e
  have hend : step (t.acceptToken .endOfInput) = .next e := by
    have hq : (t.acceptToken .endOfInput).seq = .streaming := hseq.trans h.streaming
    have haction := stepRunsTheSequencerAction (t.acceptToken .endOfInput) hu
    obtain ⟨_, _, _, _, hrow, _⟩ := haction
    rw [hrow hq rfl, endTokenStartsFinalizing _ hq rfl, he]
  have heu : e.undisturbed := he ▸ hu
  have heq : e.seq = .finalizing := by rw [← he]
  have heargs : e.args = s.args := he ▸ hargs
  have hefill : e.fill = s.fill := he ▸ hfill
  have hecol : e.col = s.col := he ▸ hcol
  have heout : e.out = s.out := he ▸ hout
  have hereads : e.reads = e.ipos + 1 ∨ e.reads = e.ipos + 2 := he ▸ hreads
  have hewritten : AllWritten e := by
    rw [← he]
    exact hwrites.trans (h.allWritten.trans (congrArg List.length hout.symm))
  have hfin : step e = .next (((afterMarkers e.fill.toNat e).putBytes [0x0D#8, 0x0A#8]).setSeq .done) := by
    have haction := stepRunsTheSequencerAction e heu
    obtain ⟨_, _, _, _, _, hrow, _⟩ := haction
    exact (hrow heq).trans
      (finalizeWritesMarkersThenTheTrailer e heq (writesAccepted_of_args (heargs.trans h.args) _))
  have hm := afterMarkers_wroteMore e.fill.toNat e
  have hmfill : (afterMarkers e.fill.toNat e).fill = s.fill := by
    rw [hm.1]
    exact hefill
  refine ⟨_, (hreach.trans (.of_step hend)).trans (.of_step hfin), rfl, ?_, ?_, ?_, ?_, ?_⟩
  · rw [State.setSeq_args, State.putBytes_args, hm.1]
    exact heargs
  · rw [State.setSeq_fill, State.putBytes_fill, hmfill]
    rfl
  · rw [State.setSeq_out, State.putBytes_out, State.setSeq_fill, State.putBytes_fill, hmfill,
      afterMarkers_layout, heout, hecol, hefill]
    rfl
  · have hmw : (afterMarkers e.fill.toNat e).writes = (afterMarkers e.fill.toNat e).out.length :=
      hewritten.after_markers _
    simp [AllWritten, hmw]
  · rw [State.setSeq_reads, State.putBytes_reads, State.setSeq_ipos, State.putBytes_ipos, hm.1]
    exact hereads

/-- From between two calls a session finishes with the groups of the remaining input's tokens. -/
theorem Between.finishes {hdr input : List Byte} {s : State} (h : Between hdr input s) :
    ∃ t, FinishesFrom s t (tokens (remaining s)) := by
  induction hlen : (remaining s).length using Nat.strong_induction_on generalizing s with
  | h len ih =>
    obtain ⟨t, tok, hreach, hframe, hlegal, hs, hreads⟩ := h.call
    rw [hs.tokens]
    by_cases hend : tok = .endOfInput
    · subst hend
      have hr : t.reads = t.ipos + 1 ∨ t.reads = t.ipos + 2 := by
        obtain ⟨hne, _⟩ | ⟨hr, _⟩ | ⟨_, hr⟩ := hreads
        · exact absurd rfl hne
        · exact .inl hr
        · exact .inr hr
      exact h.end_token hreach hframe hr
    · have hr : t.reads = t.ipos ∨ (t.reads = t.ipos + 1 ∧ remaining t = []) := by
        obtain ⟨_, hr⟩ | hr | ⟨he, _⟩ := hreads
        · exact .inl hr
        · exact .inr hr
        · exact absurd he hend
      have hne : refToken t tok ≠ .endOfInput := fun e => hend (refToken_eq_end e)
      obtain ⟨u, g, hreach', hb, hgroup, hrem, hfill, hlayout⟩ := h.data_token hreach hframe hlegal hend hr
      have hlt : (remaining u).length < len := by
        rw [hrem, ← hlen]
        exact hs.rest_lt hne
      obtain ⟨v, hv⟩ := ih _ hlt hb rfl
      rw [hrem] at hv
      refine ⟨v, hreach'.trans hv.reaches, hv.done, ?_, ?_, ?_, hv.allWritten, hv.reads⟩
      · rw [hv.args, hb.args, h.args]
      · rw [hv.fill, if_neg hne, List.foldl_cons, hfill]
      · rw [hv.out, hlayout, if_neg hne, List.flatMap_cons, hgroup]
        rfl

/-- A session begins between two calls with the whole input remaining, once the header line is written (R136). -/
theorem SessionStart.header_line {s : State} {hdr input : List Byte} (h : SessionStart s hdr input) :
    ∃ t, Reaches s t ∧ Between hdr input t ∧ remaining t = input ∧ t.out = hdr ++ [0x0D#8, 0x0A#8] ∧ t.col = 0#7 ∧
      t.fill = 0#2 := by
  obtain ⟨hu, _, hn, hv, hcol, hfill, hq, herr, hargs, hi, hout, hr, hw, hc⟩ := h
  have haction := (stepRunsTheSequencerAction s hu).1 hq
  have hstart := startWritesTheHeaderLine s hq (writesAccepted_of_args hargs _)
  have hreach := Reaches.of_step (haction.trans hstart)
  have hinv := hreach.sessionInv (sessionInv_of_begin hq herr hn hv hcol hfill hi hc)
  refine ⟨_, hreach, ⟨hu, rfl, hc, hargs, hinv, ?_, .inl (hr.trans hi.symm)⟩, ?_, ?_, hcol, hfill⟩
  · simp [AllWritten, hout, hw, hargs]
  · simp [remaining, hv, hi, hargs]
  · simp [hout, hargs]

/-- Settles O56: the header line, then the tokens of the whole input. -/
theorem everySessionWritesTheClosedForm : Obligations.EverySessionWritesTheClosedForm := by
  intro s hdr input h
  obtain ⟨u, hreach, hb, hrem, hout, hcol, hfill⟩ := h.header_line
  obtain ⟨t, ht⟩ := hb.finishes
  rw [hrem] at ht
  obtain ⟨n, hn⟩ := hreach.trans ht.reaches
  have htfill : t.fill.toNat = fillAfter (tokens input) := by
    rw [ht.fill, hfill]
    rfl
  have hna : t.seq ≠ .abort := by
    rw [ht.done]
    exact nofun
  have hinv := ht.reaches.sessionInv hb.inv
  have hipos : t.ipos = input.length := by
    obtain ⟨_, _, _, _, _, _, hend⟩ := hinv.2.2 hna
    obtain ⟨_, _, _, _, hend⟩ := hend (.inr ht.done)
    rw [hend, ht.args, hb.args]
  refine ⟨n, t, hn, ht.done, hinv.err_none hna, ?_, hipos, htfill, ht.allWritten, ?_⟩
  · rw [ht.out, hout, hcol, htfill]
    rfl
  · rw [← hipos]
    exact ht.reads

/-! ## Reading the output back (spec/30_encoding.md R67) -/

/-- The groups of a body: of a length EMIT takes, and without a line break in them (R53 to R55). -/
def BodyGroup (g : List Byte) : Prop := groupLengthOk g ∧ ∀ c ∈ g, c ≠ 0x0D#8 ∧ c ≠ 0x0A#8

/-- The characters of the alphabet begin above both bytes of the line break. -/
theorem not_break_of_ge {c : Byte} (h : 48 ≤ c.toNat) : c ≠ 0x0D#8 ∧ c ≠ 0x0A#8 := by
  constructor <;> rintro rfl <;> exact absurd h (by decide)

theorem mapField_ge (v : BitVec 6) : 48 ≤ (mapField v).toNat := by
  rw [mapField_toNat]
  omega

theorem packChars_bodyGroup (x y z : Byte) : BodyGroup (packChars x y z) := by
  refine ⟨.inr rfl, fun c hc => not_break_of_ge ?_⟩
  simp only [packChars, List.mem_cons, List.not_mem_nil, or_false] at hc
  obtain rfl | rfl | rfl | rfl := hc <;> exact mapField_ge _

theorem countChar_toNat {n : Nat} (h : n ≤ 78) : (BitVec.ofNat 8 (n + 48)).toNat = n + 48 := by
  rw [BitVec.toNat_ofNat]
  omega

theorem escape_bodyGroup {n : Nat} (h : n ≤ 78) : BodyGroup [0x7E#8, BitVec.ofNat 8 (n + 48)] := by
  refine ⟨.inl rfl, fun c hc => not_break_of_ge ?_⟩
  simp only [List.mem_cons, List.not_mem_nil, or_false] at hc
  obtain rfl | rfl := hc
  · decide
  · rw [countChar_toNat h]
    omega

theorem marker_bodyGroup : BodyGroup [0x7E#8, 0x30#8] := escape_bodyGroup (n := 0) (Nat.zero_le _)

/-- A literal of one to three bytes, as the bytes of its quad. -/
theorem literal_cases {l : List Byte} (h1 : 1 ≤ l.length) (h3 : l.length ≤ 3) :
    (∃ x, l = [x]) ∨ (∃ x y, l = [x, y]) ∨ ∃ x y z, l = [x, y, z] := by
  match l, h1, h3 with
  | [x], _, _ => exact .inl ⟨x, rfl⟩
  | [x, y], _, _ => exact .inr (.inl ⟨x, y, rfl⟩)
  | [x, y, z], _, _ => exact .inr (.inr ⟨x, y, z, rfl⟩)
  | _ :: _ :: _ :: _ :: _, _, h3 => exact absurd h3 (by simp)

theorem literal_bodyGroup {l : List Byte} (h1 : 1 ≤ l.length) (h3 : l.length ≤ 3) :
    ∀ g ∈ groupOf (.literal l), BodyGroup g := by
  intro g hg
  obtain ⟨x, rfl⟩ | ⟨x, y, rfl⟩ | ⟨x, y, z, rfl⟩ := literal_cases h1 h3
  · rw [List.mem_singleton.1 hg]
    exact packChars_bodyGroup _ _ _
  · rw [List.mem_singleton.1 hg]
    exact packChars_bodyGroup _ _ _
  · rw [List.mem_singleton.1 hg]
    exact packChars_bodyGroup _ _ _

theorem tokens_bodyGroup (input : List Byte) : ∀ g ∈ (tokens input).flatMap groupOf, BodyGroup g := by
  induction input using tokens_induction with
  | finish => exact nofun
  | triple l rest hl ih =>
    rw [List.flatMap_cons]
    exact List.forall_mem_append.2 ⟨literal_bodyGroup (by omega) (by omega), ih⟩
  | run n rest _ h78 ih =>
    rw [List.flatMap_cons]
    refine List.forall_mem_append.2 ⟨fun g hg => ?_, ih⟩
    rw [List.mem_singleton.1 hg]
    exact escape_bodyGroup h78
  | tail l h1 h2 =>
    rw [List.flatMap_cons]
    exact List.forall_mem_append.2 ⟨literal_bodyGroup h1 (by omega), nofun⟩

theorem sessionGroups_bodyGroup (input : List Byte) : ∀ g ∈ sessionGroups input, BodyGroup g :=
  List.forall_mem_append.2 ⟨tokens_bodyGroup input, fun g hg => by
    rw [List.eq_of_mem_replicate hg]
    exact marker_bodyGroup⟩

theorem dropBreaks_append (a b : List Byte) : dropBreaks (a ++ b) = dropBreaks a ++ dropBreaks b := List.filter_append ..

theorem dropBreaks_group {g : List Byte} (h : BodyGroup g) : dropBreaks g = g := by
  refine List.filter_eq_self.2 fun c hc => ?_
  obtain ⟨hcr, hlf⟩ := h.2 c hc
  simp [hcr, hlf]

/-- The lines of a body, with their breaks dropped, are its groups. -/
theorem dropBreaks_wrapGroups {gs : List (List Byte)} (h : ∀ g ∈ gs, BodyGroup g) (col : Nat) :
    dropBreaks (wrapGroups gs col) = gs.flatten := by
  induction gs generalizing col with
  | nil => rfl
  | cons g rest ih =>
    obtain ⟨hg, hrest⟩ := List.forall_mem_cons.1 h
    rw [wrapGroups, List.flatten_cons]
    split
    · rw [dropBreaks_append, dropBreaks_append, dropBreaks_group hg, ih hrest]
      rfl
    · rw [dropBreaks_append, dropBreaks_group hg, ih hrest]

/-- A quad is read as the three bytes it packs, in front of what follows it. -/
theorem readGroups_pack (x y z : Byte) (rest : List Byte) :
    readGroups (packChars x y z ++ rest) = (readGroups rest).map fun p => ([x, y, z] ++ p.1, p.2) := by
  have hne : mapField (packFields x y z).1 ≠ 0x7E#8 := by
    intro e
    have hq := mapField_isQuadChar (packFields x y z).1
    rw [e] at hq
    exact absurd hq (by decide)
  have hunpack := unpackChars_pack x y z
  simp only [packChars, List.cons_append, List.nil_append, readGroups, if_neg hne, mapField_isQuadChar, Bool.and_self,
    if_true, hunpack]
  cases readGroups rest <;> rfl

/-- An escape sequence is read as its run, in front of what follows it. -/
theorem readGroups_escape {n : Nat} (h2 : 2 ≤ n) (h78 : n ≤ 78) (rest : List Byte) :
    readGroups ([0x7E#8, BitVec.ofNat 8 (n + 48)] ++ rest) =
      (readGroups rest).map fun p => (List.replicate n 0x00#8 ++ p.1, p.2) := by
  have hk := countChar_toNat h78
  have hne : BitVec.ofNat 8 (n + 48) ≠ 0x30#8 := by
    intro e
    rw [e] at hk
    have hk : 48 = n + 48 := hk
    omega
  have hcount : isCountChar (BitVec.ofNat 8 (n + 48)) = true := by
    rw [isCountChar, hk, decide_eq_true_iff]
    omega
  generalize BitVec.ofNat 8 (n + 48) = k at hk hne hcount ⊢
  rw [List.cons_append, List.cons_append, List.nil_append, readGroups.eq_def]
  simp only [if_true]
  cases readGroups rest with
  | none => rfl
  | some p => simp only [if_neg hne, hcount, if_true, hk, Nat.add_sub_cancel, Option.map_some]

/-- At most two markers at the end are read as what to trim. -/
theorem readGroups_markers {k : Nat} (hk : k ≤ 2) :
    readGroups (List.replicate k [0x7E#8, 0x30#8]).flatten = some ([], k) := by
  match k, hk with
  | 0, _ => rfl
  | 1, _ => rfl
  | 2, _ => rfl

/-- The groups of an input are read as the input with its pad bytes, and its markers as their number. -/
theorem readGroups_tokens (input : List Byte) :
    readGroups ((tokens input).flatMap groupOf ++
        List.replicate ((tokens input).foldl fillStep 0) [0x7E#8, 0x30#8]).flatten =
      some (input ++ List.replicate ((tokens input).foldl fillStep 0) 0x00#8, (tokens input).foldl fillStep 0) := by
  induction input using tokens_induction with
  | finish => rfl
  | triple l rest hl ih =>
    obtain ⟨x, rfl⟩ | ⟨x, y, rfl⟩ | ⟨x, y, z, rfl⟩ := literal_cases (l := l) (by omega) (by omega)
    · cases hl
    · cases hl
    · have hread := readGroups_pack x y z
        ((tokens rest).flatMap groupOf ++ List.replicate ((tokens rest).foldl fillStep 0) [0x7E#8, 0x30#8]).flatten
      rw [ih] at hread
      exact hread
  | run n rest h2 h78 ih =>
    have hread := readGroups_escape h2 h78
      ((tokens rest).flatMap groupOf ++ List.replicate ((tokens rest).foldl fillStep 0) [0x7E#8, 0x30#8]).flatten
    rw [ih] at hread
    rw [List.append_assoc]
    exact hread
  | tail l h1 h2 =>
    obtain ⟨x, rfl⟩ | ⟨x, y, rfl⟩ | ⟨x, y, z, rfl⟩ := literal_cases h1 (by omega)
    · have hread := readGroups_pack x 0x00#8 0x00#8 (List.replicate 2 [0x7E#8, 0x30#8]).flatten
      rw [readGroups_markers (by decide)] at hread
      exact hread
    · have hread := readGroups_pack x y 0x00#8 (List.replicate 1 [0x7E#8, 0x30#8]).flatten
      rw [readGroups_markers (by decide)] at hread
      exact hread
    · exact absurd h2 (by simp)

theorem bodyOf_sessionOutput (hdr input : List Byte) :
    bodyOf hdr (sessionOutput hdr input) = wrapGroups (sessionGroups input) 0 ++ [0x0D#8, 0x0A#8] := by
  rw [bodyOf, sessionOutput, List.append_assoc]
  exact List.drop_left' (by simp)

/-- What the reader finds in the body of a session's output. -/
theorem readGroups_body (hdr input : List Byte) :
    readGroups (dropBreaks (bodyOf hdr (sessionOutput hdr input))) =
      some (input ++ List.replicate (fillAfter (tokens input)) 0x00#8, fillAfter (tokens input)) := by
  have htrailer : dropBreaks [0x0D#8, 0x0A#8] = [] := rfl
  rw [bodyOf_sessionOutput, dropBreaks_append, dropBreaks_wrapGroups (sessionGroups_bodyGroup input), htrailer,
    List.append_nil]
  exact readGroups_tokens input

/-- Settles O57: the reader finds the input and its pad bytes, and as many markers as pad bytes. -/
theorem finishedOutputReadsBackAsTheInput : Obligations.FinishedOutputReadsBackAsTheInput := by
  intro s hdr input h
  obtain ⟨n, t, hn, hq, _, hout, _⟩ := everySessionWritesTheClosedForm s hdr input h
  refine ⟨n, t, hn, hq, ?_, ?_⟩
  · rw [hout, sessionOutput, List.append_assoc]
    exact List.prefix_append _ _
  · rw [hout, readBody, readGroups_body]
    simp

/-! ## The lines of the body (R128) -/

/-- Characters that are no line break lengthen the line by their number. -/
theorem linesFit_chars {g : List Byte} (rest : List Byte) {col : Nat} (hg : ∀ c ∈ g, c ≠ 0x0D#8 ∧ c ≠ 0x0A#8)
    (hfit : col + g.length ≤ 72) : linesFit (g ++ rest) col = linesFit rest (col + g.length) := by
  induction g generalizing col with
  | nil => rfl
  | cons c g ih =>
    obtain ⟨⟨hcr, hlf⟩, hg⟩ := List.forall_mem_cons.1 hg
    rw [List.length_cons] at hfit
    rw [List.cons_append, linesFit, if_neg hlf, if_neg hcr, ih hg (by omega), decide_eq_true (by omega), Bool.true_and,
      List.length_cons, Nat.add_right_comm, Nat.add_assoc]

/-- A line break begins a line. -/
theorem linesFit_break (rest : List Byte) (col : Nat) : linesFit ([0x0D#8, 0x0A#8] ++ rest) col = linesFit rest 0 := by
  simp [linesFit]

theorem linesFit_wrapGroups {gs : List (List Byte)} (h : ∀ g ∈ gs, BodyGroup g) (col : Nat) :
    linesFit (wrapGroups gs col ++ [0x0D#8, 0x0A#8]) col = true := by
  induction gs generalizing col with
  | nil => exact linesFit_break [] col
  | cons g rest ih =>
    obtain ⟨⟨hlen, hg⟩, hrest⟩ := List.forall_mem_cons.1 h
    have hshort : g.length ≤ 4 := by obtain h | h := hlen <;> omega
    rw [wrapGroups]
    split
    · rw [List.append_assoc, List.append_assoc, linesFit_break, linesFit_chars _ hg (by omega), Nat.zero_add]
      exact ih hrest g.length
    · rw [List.append_assoc, linesFit_chars _ hg (by omega)]
      exact ih hrest _

/-- Settles O58: `W` breaks the line before a group that would pass its end. -/
theorem noBodyLineExceedsTheWidth : Obligations.NoBodyLineExceedsTheWidth := by
  intro s hdr input h
  obtain ⟨n, t, hn, hq, _, hout, _⟩ := everySessionWritesTheClosedForm s hdr input h
  refine ⟨n, t, hn, hq, ?_⟩
  rw [hout, bodyOf_sessionOutput]
  exact linesFit_wrapGroups (sessionGroups_bodyGroup input) 0

/-! ## The padding (R147) -/

/-- What one token makes of the length of the literal tail. -/
def tailStep (n : Nat) (t : RefToken) : Nat :=
  match t with
  | .literal bytes => n + bytes.length
  | .nullRun _ => 0
  | .endOfInput => n

theorem literalTail_eq (ts : List RefToken) : literalTail ts = ts.foldl tailStep 0 := rfl

/-- `FILL` completes the literal tail to triples, whatever triples stand before it. -/
theorem fill_tokens (input : List Byte) : ∀ m, m % 3 = 0 →
    (tokens input).foldl fillStep 0 = (3 - (tokens input).foldl tailStep m % 3) % 3 := by
  induction input using tokens_induction with
  | finish =>
    intro m hm
    simp only [List.foldl_cons, List.foldl_nil, fillStep, tailStep]
    omega
  | triple l rest hl ih =>
    intro m hm
    simp only [List.foldl_cons, fillStep, tailStep, hl]
    exact ih (m + 3) (by omega)
  | run n rest _ _ ih =>
    intro m _
    exact ih 0 rfl
  | tail l h1 h2 =>
    intro m hm
    simp only [List.foldl_cons, List.foldl_nil, fillStep, tailStep]
    omega

theorem fillAfter_tokens (input : List Byte) : fillAfter (tokens input) = (3 - literalTail (tokens input) % 3) % 3 := by
  rw [fillAfter_eq, literalTail_eq]
  exact fill_tokens input 0 rfl

/-- Settles O59: `FILL` follows from the literal tail, and the reader counts `FILL` markers. -/
theorem paddingCountComesFromTheLiteralTail : Obligations.PaddingCountComesFromTheLiteralTail := by
  intro s hdr input h
  obtain ⟨n, t, hn, hq, _, hout, _, hfill, _⟩ := everySessionWritesTheClosedForm s hdr input h
  refine ⟨n, t, hn, hq, hfill.trans (fillAfter_tokens input), ?_⟩
  rw [hout, markerCount, readGroups_body, fillAfter_tokens]
  rfl

end Sys2Proof
end
